-- ==== Sys2Proof/Word.lean ====
section
/-! DEFINITION. The word types of the command port and of the configuration registers: a command word
(R55), a pin identifier (R5), an immediate operand (R59), a response value (R56), a result (R31) and a
raw sample (R11, R16). -/

namespace Sys2Proof

/-- One 32-bit command word, or the 32-bit value of a response (R55, R56). -/
abbrev Word := BitVec 32

/-- A pin identifier: 8 bits, every one well formed; `PINMAP` says which are valid (R5, R44). -/
abbrev Pin := BitVec 8

/-- The unsigned 16-bit operand field of a command (R55, R59). -/
abbrev Imm := BitVec 16

/-- A digitized code as the result register holds it (R31). -/
abbrev Code := BitVec 16

/-- One raw acquisition as the environment presents it. The widest native width is 12 bits (R16), so
12 bits carry every draw; a conversion of native width `w` uses the low `w` bits (R11, R104). -/
abbrev RawSample := BitVec 12

end Sys2Proof
end

