-- ==== Sys2Proof/Syntax.lean ====
section
/-! DEFINITION. The commands of the port: one constructor per row of spec/opcode_table.json (R64). -/

namespace Sys2Proof

/-- An attenuation level: a closed set of four, held in 2 bits (R21). -/
inductive Level where
  | db0
  | db2p5
  | db6
  | db11
deriving DecidableEq, Repr

/-- The 2-bit encoding of a level: 0 = 0dB, 1 = 2.5dB, 2 = 6dB, 3 = 11dB (R21, R60). -/
def Level.code : Level → BitVec 2
  | .db0 => 0
  | .db2p5 => 1
  | .db6 => 2
  | .db11 => 3

/-- The level a 2-bit code stands for: there is no illegal code (R21). -/
def Level.ofCode (c : BitVec 2) : Level :=
  if c = 0 then .db0 else if c = 1 then .db2p5 else if c = 2 then .db6 else .db11

/-- The fifteen commands (R64), with the operands their formats carry (R58). -/
inductive Instr where
  /-- READ `pin`: attach, start and end in one command (R111). -/
  | read (pin : Pin)
  /-- SETRES `bits` (R81). -/
  | setRes (bits : Imm)
  /-- SETWIDTH `bits` (R82). -/
  | setWidth (bits : Imm)
  /-- SETCYCLES `n` (R83). -/
  | setCycles (n : Imm)
  /-- SETSAMPLES `n` (R84). -/
  | setSamples (n : Imm)
  /-- SETCLKDIV `n` (R85). -/
  | setClkDiv (n : Imm)
  /-- SETATTEN `level` (R74). -/
  | setAtten (level : Level)
  /-- SETPINATTEN `pin, level` (R75). -/
  | setPinAtten (pin : Pin) (level : Level)
  /-- HALLREAD (R113). -/
  | hallRead
  /-- ATTACH `pin` (R89). -/
  | attach (pin : Pin)
  /-- START `pin` (R91). -/
  | start (pin : Pin)
  /-- BUSY `pin` (R93). -/
  | busy (pin : Pin)
  /-- END `pin` (R94). -/
  | endConv (pin : Pin)
  /-- GETCFG `idx` (R86); `idx` is a 3-bit field of which 6 and 7 are reserved (R61). -/
  | getCfg (idx : BitVec 3)
  /-- GETATTEN `pin` (R76). -/
  | getAtten (pin : Pin)
deriving DecidableEq, Repr

end Sys2Proof
end

