-- ==== Sys2Proof/WellFormed.lean ====
section
/-! DEFINITION. Which commands a word can spell. Every operand field of every format holds only legal
values (R21, R44, R59) but one: GETCFG's register number 6 or 7 is reserved (R61, R66). An out-of-range
immediate is a legal word; its range is checked by the command's own rule (R59). -/

namespace Sys2Proof

/-- A register number of the configuration register file: 0 to 5 (R14, R61). -/
abbrev cfgIndexLegal (idx : BitVec 3) : Prop := idx.toNat ≤ 5

/-- The command is one that some word spells (R65, R66). -/
def Instr.wf : Instr → Bool
  | .getCfg idx => decide (cfgIndexLegal idx)
  | .read _ | .setRes _ | .setWidth _ | .setCycles _ | .setSamples _ | .setClkDiv _
  | .setAtten _ | .setPinAtten _ _ | .hallRead | .attach _ | .start _ | .busy _
  | .endConv _ | .getAtten _ => true

end Sys2Proof
end

