-- ==== Sys2Proof/Decode.lean ====
section
/-! DEFINITION. The decoder and the encoder of command words (R55, R58, R64 to R68). -/

namespace Sys2Proof

/-! ### Fields of a command word (R55) -/

/-- `op = cmd[31:24]`. -/
def opField (w : Word) : BitVec 8 := w.extractLsb' 24 8

/-- `pin = cmd[23:16]`. -/
def pinField (w : Word) : Pin := w.extractLsb' 16 8

/-- `imm = cmd[15:0]`. -/
def immField (w : Word) : Imm := w.extractLsb' 0 16

/-- The level operand `imm[1:0]` of formats L and PL (R60). -/
def levelField (w : Word) : Level := Level.ofCode (w.extractLsb' 0 2)

/-- The register number `imm[2:0]` of GETCFG (R61). -/
def idxField (w : Word) : BitVec 3 := w.extractLsb' 0 3

/-! ### The opcode map (R64) -/

/-- One row of the opcode map: a word `w` spells the row's command exactly when
`w & mask = pattern` (and GETCFG's register number is legal); `build` reads the operands. -/
structure OpRow where
  mnemonic : String
  pattern : Word
  mask : Word
  build : Word → Instr

/-- The fifteen rows of R64. -/
def opTable : List OpRow := [
  ⟨"READ", 0x01000000, 0xFF00FFFF, fun w => .read (pinField w)⟩,
  ⟨"SETRES", 0x03000000, 0xFFFF0000, fun w => .setRes (immField w)⟩,
  ⟨"SETWIDTH", 0x04000000, 0xFFFF0000, fun w => .setWidth (immField w)⟩,
  ⟨"SETCYCLES", 0x05000000, 0xFFFF0000, fun w => .setCycles (immField w)⟩,
  ⟨"SETSAMPLES", 0x06000000, 0xFFFF0000, fun w => .setSamples (immField w)⟩,
  ⟨"SETCLKDIV", 0x07000000, 0xFFFF0000, fun w => .setClkDiv (immField w)⟩,
  ⟨"SETATTEN", 0x08000000, 0xFFFFFFFC, fun w => .setAtten (levelField w)⟩,
  ⟨"SETPINATTEN", 0x09000000, 0xFF00FFFC, fun w => .setPinAtten (pinField w) (levelField w)⟩,
  ⟨"HALLREAD", 0x0A000000, 0xFFFFFFFF, fun _ => .hallRead⟩,
  ⟨"ATTACH", 0x0B000000, 0xFF00FFFF, fun w => .attach (pinField w)⟩,
  ⟨"START", 0x0C000000, 0xFF00FFFF, fun w => .start (pinField w)⟩,
  ⟨"BUSY", 0x0D000000, 0xFF00FFFF, fun w => .busy (pinField w)⟩,
  ⟨"END", 0x0E000000, 0xFF00FFFF, fun w => .endConv (pinField w)⟩,
  ⟨"GETCFG", 0x0F000000, 0xFFFFFFF8, fun w => .getCfg (idxField w)⟩,
  ⟨"GETATTEN", 0x10000000, 0xFF00FFFF, fun w => .getAtten (pinField w)⟩]

/-- Step (1) of R65: the row whose `op` equals the word's. -/
def rowOf (op : BitVec 8) : Option OpRow :=
  opTable.find? fun r => opField r.pattern == op

/-- Why a word spells no command. The port answers all of them alike, `IllegalCmd` (R125). -/
inductive DecodeError where
  /-- The opcode is 0x00 or 0x11 to 0xFF (R67). -/
  | unassignedOpcode
  /-- The opcode is 0x02, the slot of the excluded `write` (R68). -/
  | reservedOpcode
  /-- A reserved field of an assigned opcode is not zero (R66). -/
  | reservedField
  /-- GETCFG names register 6 or 7 (R61, R66). -/
  | reservedRegister
deriving DecidableEq, Repr

/-- The decoding procedure of R65, its four steps in order. -/
def decode (w : Word) : Except DecodeError Instr :=
  match rowOf (opField w) with
  | none => .error (if opField w = 0x02 then .reservedOpcode else .unassignedOpcode)
  | some r =>
    if w &&& r.mask ≠ r.pattern then .error .reservedField
    else if (r.build w).wf then .ok (r.build w)
    else .error .reservedRegister

/-- The instruction the decoder reads from the word `w` of `nbits` bits, bits above `nbits` zero; every
command is one word of 32 bits (R55, R70). -/
def decodeTableWord (nbits w : Nat) : Option Instr :=
  match decode (BitVec.ofNat 32 (w % 2 ^ nbits)) with
  | .ok i => some i
  | .error _ => none

/-! ### The encoder (R55, R58, R64) -/

/-- A command word from its three fields (R55). -/
def cmdWord (op : BitVec 8) (pin : Pin) (imm : Imm) : Word := op ++ pin ++ imm

/-- The opcode of a command (R64). -/
def Instr.opcode : Instr → BitVec 8
  | .read _ => 0x01
  | .setRes _ => 0x03
  | .setWidth _ => 0x04
  | .setCycles _ => 0x05
  | .setSamples _ => 0x06
  | .setClkDiv _ => 0x07
  | .setAtten _ => 0x08
  | .setPinAtten _ _ => 0x09
  | .hallRead => 0x0A
  | .attach _ => 0x0B
  | .start _ => 0x0C
  | .busy _ => 0x0D
  | .endConv _ => 0x0E
  | .getCfg _ => 0x0F
  | .getAtten _ => 0x10

/-- The `pin` field of a command: its pin operand, or zero where the format reserves it (R58). -/
def Instr.pinOperand : Instr → Pin
  | .read p | .setPinAtten p _ | .attach p | .start p | .busy p | .endConv p | .getAtten p => p
  | .setRes _ | .setWidth _ | .setCycles _ | .setSamples _ | .setClkDiv _ | .setAtten _
  | .hallRead | .getCfg _ => 0

/-- The `imm` field of a command: its operand zero-extended, or zero where the format reserves it
(R58). -/
def Instr.immOperand : Instr → Imm
  | .setRes v | .setWidth v | .setCycles v | .setSamples v | .setClkDiv v => v
  | .setAtten l | .setPinAtten _ l => l.code.setWidth 16
  | .getCfg idx => idx.setWidth 16
  | .read _ | .hallRead | .attach _ | .start _ | .busy _ | .endConv _ | .getAtten _ => 0

/-- The word that spells a command (R64). -/
def encode (i : Instr) : Word := cmdWord i.opcode i.pinOperand i.immOperand

end Sys2Proof
end

