-- ==== Sys2Proof/Config.lean ====
section
/-! DEFINITION. What the platform or the implementation fixes (R4 to R10 and the summary table of
00_scope.md): the open parameters as constants without a body, the decided defaults as the spec decides
them, and the environment's free raw samples (R11). No proof can see the value of an opaque constant. -/

namespace Sys2Proof

/-- `UNREAD_POLICY` (R8): what a START does when its bus holds another pin's finished, unread result. -/
inductive UnreadPolicy where
  /-- The START fails with `BusBusy` until that result is retrieved (the spec's default, C3). -/
  | hold
  /-- The START succeeds and the unread result is lost. -/
  | evict
deriving DecidableEq, Repr

/-- `RANGE_POLICY` (R9): what a setter does with an operand outside its range. -/
inductive RangePolicy where
  /-- Answer `InvalidConfig`, register unchanged (the spec's default). -/
  | reject
  /-- Write the nearer bound and answer `OK`. -/
  | clamp
deriving DecidableEq, Repr

/-- `HALL_COMBINE` (R7). State is plain data, so the formula is named here and the open choice stands
for one uninterpreted function. -/
inductive HallFormula where
  /-- `vP - vN` in unbounded integers: the spec's decided default (D7). -/
  | difference
  /-- Some other fixed total function of the two operands alone: `Config.hallOther`. -/
  | other
deriving DecidableEq, Repr

/-- The parameters of the hardware that are fixed for its life (R5 to R9). `NBUS` (R4) is not here: it
is the number of bus records the state holds. -/
structure Platform where
  /-- `PINMAP` (R5) as a table: entry `p` names the bus of pin `p`. It is read through
  `State.pinMap`, which takes an entry that names no existing bus as NONE. -/
  pinTable : Vector (Option Nat) 256
  /-- `HALL_P` (R6). -/
  hallP : Pin
  /-- `HALL_N` (R6). -/
  hallN : Pin
  /-- `UNREAD_POLICY` (R8). -/
  unread : UnreadPolicy
  /-- `RANGE_POLICY` (R9). -/
  range : RangePolicy
  /-- `HALL_COMBINE` (R7). -/
  hall : HallFormula
deriving DecidableEq, Repr

namespace Config

/-- `RES_RESET` (R10): the spec's decision D10, 12 bits. -/
def resReset : BitVec 5 := 12

/-- `WIDTH_RESET` (R10): the spec's decision D10, 12 bits. -/
def widthReset : BitVec 4 := 12

/-! ### The open parameters (R4 to R6), free within what the rules ask of them -/

/-- How many buses there are beyond the first: open (R4, D4). -/
opaque extraBuses : Nat

/-- `NBUS` (R4): open, and at least 1 by its form. -/
abbrev nbus : Nat := extraBuses + 1

/-- The bus of each pin that is no Hall pin: open (R5, D5). -/
opaque pinBus : Pin → Option (Fin nbus)

/-- `HALL_P` (R6): open (D6). -/
opaque hallP : Pin

/-- The distance from `HALL_P` to `HALL_N`, less one: open (D6). -/
opaque hallGap : Fin 255

/-- The bus of `HALL_P`: open, and a bus that exists (R6). -/
opaque hallBusP : Fin nbus

/-- The bus of `HALL_N`: open, and a bus that exists (R6). -/
opaque hallBusN : Fin nbus

/-- `HALL_N` (R6): any pin other than `HALL_P`. -/
def hallN : Pin := hallP + BitVec.ofNat 8 (hallGap.val + 1)

/-- `PINMAP` (R5): the two Hall pins are valid (R6), every other pin is as `pinBus` says. Every map
that R5 and R6 allow has this form. -/
def pinMap (p : Pin) : Option Nat :=
  if p = hallP then some hallBusP.val
  else if p = hallN then some hallBusN.val
  else (pinBus p).map Fin.val

/-- The platform of the machine after reset: the open parameters open, the decided ones at the spec's
defaults (R7 `vP - vN`, R8 `HOLD`, R9 `REJECT`). -/
def platform : Platform where
  pinTable := Vector.ofFn fun i => pinMap (BitVec.ofNat 8 i.val)
  hallP := hallP
  hallN := hallN
  unread := .hold
  range := .reject
  hall := .difference

/-! ### Free values -/

/-- `HALL_COMBINE` where it is left open (R7): `sext_32` of the formula's value, a function of the two
operands alone. -/
opaque hallOther : Code → Code → Word

/-- The environment's raw samples where the state lists none (R11): sample number `k` of the machine's
life, for the owner pin and the latched attenuation code it is told (`none` on the dedicated Hall path,
R104), and for the latched width, cycles and divider of the physical read, whose effect on a sample R110
neither states nor lets a model rule out. That it depends on nothing else is the model's (DESIGN CHOICE,
log entry 5; unsafe for a claim that compares two such samples). -/
opaque rawSample (k : Nat) (owner : Pin) (level : Option (BitVec 2)) (width : BitVec 4)
  (cycles clkdiv : BitVec 8) : RawSample

end Config

end Sys2Proof
end

