-- ==== Sys2Proof/Machine/State.lean ====
section
/-! DEFINITION. The state of ADCFE as plain data (R13 to R40): the configuration register file, the pin
table, the bus records and the host port, and beside them the model's own fields: the fixed parameters
and what the world outside the block does next. -/

namespace Sys2Proof.Machine

/-- The configuration register file `CFG[0..5]` (R14), each register at its width. -/
structure CfgFile where
  /-- `CFG[RES]`, register 0, legal values 1 to 16 (R15). -/
  res : BitVec 5
  /-- `CFG[WIDTH]`, register 1, legal values 9 to 12 (R16). -/
  width : BitVec 4
  /-- `CFG[CYCLES]`, register 2, legal values 1 to 255 (R17). -/
  cycles : BitVec 8
  /-- `CFG[SAMPLES]`, register 3, legal values 1 to 255 (R18). -/
  samples : BitVec 8
  /-- `CFG[CLKDIV]`, register 4, legal values 1 to 255 (R19). -/
  clkdiv : BitVec 8
  /-- `CFG[GATTEN]`, register 5, 2 bits, every level legal (R20). -/
  gatten : Level
deriving DecidableEq, Repr

/-- One entry `PIN[p]` of the pin table (R22 to R26). -/
structure PinEntry where
  /-- `PIN[p].attached` (R23). -/
  attached : Bool
  /-- `PIN[p].ovr_valid` (R24). -/
  ovrValid : Bool
  /-- `PIN[p].ovr_level` (R24), meaningful while `ovrValid` is set. -/
  ovrLevel : Level
  /-- `PIN[p].altmode` (R26). -/
  altmode : Bool
deriving DecidableEq, Repr

/-- The configuration latched for a conversion, `BUS[b].snap` (R32). -/
structure Snapshot where
  res : BitVec 5
  width : BitVec 4
  cycles : BitVec 8
  samples : BitVec 8
  clkdiv : BitVec 8
  atten : Level
  /-- Set for a conversion issued by HALLREAD (R32, R116). -/
  hall : Bool
deriving DecidableEq, Repr

/-- One bus record `BUS[b]` (R27 to R32). -/
structure BusRec where
  /-- `BUS[b].busy`: the bus is claimed by `owner` (R28). -/
  busy : Bool
  /-- `BUS[b].owner` (R29), meaningful while `busy` is set. -/
  owner : Pin
  /-- `BUS[b].done`: the completion flag (R30), driven on `done_out[b]` (R129). -/
  done : Bool
  /-- `BUS[b].result` (R31). -/
  result : Code
  /-- `BUS[b].snap` (R32). -/
  snap : Snapshot
deriving DecidableEq, Repr

/-- The host port sequencer `PORT.seq` (R33). -/
inductive Seq where
  /-- No command in progress. -/
  | idle
  /-- `WAIT(p)`: an END or READ of `p` waits for that pin's conversion. -/
  | wait (p : Pin)
  /-- `HALL_WAIT_P`: a HALLREAD waits for the conversion on `HALL_P`. -/
  | hallWaitP
  /-- `HALL_WAIT_N(vP)`: a HALLREAD holds the first value and waits for the second conversion. -/
  | hallWaitN (vP : Code)
deriving DecidableEq, Repr

/-- The status of a response (R62). -/
inductive Status where
  | ok
  | invalidPin
  | notAttached
  | busBusy
  | invalidConfig
  | illegalCmd
deriving DecidableEq, Repr

/-- The 4-bit code of a status (R62). -/
def Status.code : Status → BitVec 4
  | .ok => 0
  | .invalidPin => 1
  | .notAttached => 2
  | .busBusy => 3
  | .invalidConfig => 4
  | .illegalCmd => 5

/-- A response `(status, value)` (R56). -/
structure Response where
  status : Status
  value : Word
deriving DecidableEq, Repr

/-- The pair in one word: `rsp[35:32] = status`, `rsp[31:0] = value` (R56). -/
def Response.word (r : Response) : BitVec 36 := r.status.code ++ r.value

/-- Which agent takes the next step (R3), with what the environment supplies to it. The rules fix no
order between the agents, so the order is an input of the machine: a list of turns held in the state,
which a fair order follows (R151).
A turn given to an agent that has no enabled step leaves the block as it is. -/
inductive Turn where
  /-- The host port: issue the next command when idle, else the enabled resume step (R50). -/
  | host
  /-- The conversion agent of bus `b`, with the environment's raw samples for its draws (R102, R104). -/
  | engine (b : Nat) (draws : List RawSample)
  /-- The excluded digital-output collaborator gives pin `p` another mode (R26). -/
  | altmode (p : Pin)
  /-- The reset input is asserted (R135). -/
  | reset
deriving DecidableEq, Repr

/-- Why a step stops with a fault. ADCFE has no trap, no error is fatal to it and it never halts (R126,
R152), so there is no reason: the type is empty, and no step raises one. -/
inductive Fault where
deriving DecidableEq, Repr

/-- Why a step is refused. Every word has an answer (R65, R125), so no step refuses. -/
inductive Refusal where
  /-- Raised by an arm of `exec` for an instruction that has no meaning yet. No arm is left that raises
  it. Safe: the machine stops and claims nothing. -/
  | notModelled (mnemonic : String)
deriving DecidableEq, Repr

/-- The state of the machine. -/
structure State where
  /-- The configuration register file (R14). -/
  cfg : CfgFile
  /-- The pin table `PIN[0..255]` (R22). -/
  pins : Vector PinEntry 256
  /-- The bus records `BUS[0..NBUS-1]` (R27): `NBUS` is their number (R4). -/
  buses : List BusRec
  /-- `PORT.seq` (R33). -/
  seq : Seq
  /-- The model's own: the response that the last step produced, if it produced one (R56). -/
  rsp : Option Response
  /-- The model's own: the fixed parameters (R5 to R9), which no step changes (R13). -/
  platform : Platform
  /-- The model's own: the command words the host will present, in order (R50, R57). -/
  commands : List Word
  /-- The model's own: whose turn it is, next first: any finite interleaving (R50). Where no turn is
  listed the agents move in a fair order (`State.unlistedTurn`; R12, R151). -/
  turns : List Turn
  /-- The model's own: how many raw samples have been drawn, so that a draw the turn does not list is a
  fresh free value of `Config.rawSample` (R11). -/
  drawn : Nat
deriving DecidableEq, Repr

/-! ### Reset values (R40) -/

/-- `CFG` after reset (R40). -/
def CfgFile.reset : CfgFile where
  res := Config.resReset
  width := Config.widthReset
  cycles := 8
  samples := 1
  clkdiv := 1
  gatten := .db11

/-- A pin entry after reset (R40). `ovr_level` is unspecified by R40: 0dB is the model's choice
(DESIGN CHOICE, log entry 3; unsafe). -/
def PinEntry.reset : PinEntry where
  attached := false
  ovrValid := false
  ovrLevel := .db0
  altmode := false

/-- A snapshot after reset: unspecified by R40; zeros are the model's choice (DESIGN CHOICE, log
entry 3; unsafe). -/
def Snapshot.reset : Snapshot where
  res := 0
  width := 0
  cycles := 0
  samples := 0
  clkdiv := 0
  atten := .db0
  hall := false

/-- A bus record after reset (R40): free and not done. `owner`, `result` and `snap` are unspecified by
R40; zeros are the model's choice (DESIGN CHOICE, log entry 3; unsafe). -/
def BusRec.reset : BusRec where
  busy := false
  owner := 0
  done := false
  result := 0
  snap := .reset

/-- The block right after reset on hardware with `n` buses and parameters `p` (R40, R136), with nothing
presented at the port. -/
def State.resetOn (n : Nat) (p : Platform) : State where
  cfg := .reset
  pins := Vector.replicate 256 .reset
  buses := List.replicate n .reset
  seq := .idle
  rsp := none
  platform := p
  commands := []
  turns := []
  drawn := 0

/-- The machine right after reset (R40, R136), on the hardware whose parameters `Config` leaves open. -/
def State.reset : State := State.resetOn Config.nbus Config.platform

end Sys2Proof.Machine
end

