-- ==== Sys2Proof/Machine/Ops.lean ====
section
/-! DEFINITION. The named operations every meaning is written with: access to pins and buses, the
response to a command (the spec's form of raising an error, R126), the attach step, the claim and the
release of a bus, and the reset input. -/

namespace Sys2Proof.Machine

/-! ### Index spaces (R42) -/

/-- `NBUS` (R4). -/
def State.nbus (s : State) : Nat := s.buses.length

/-- `PINMAP` (R5): a function to the existing buses or NONE, whatever the table holds. -/
def State.pinMap (s : State) (p : Pin) : Option Nat :=
  (s.platform.pinTable[p.toNat]'p.isLt).filter fun b => decide (b < s.nbus)

/-- A pin with `PINMAP(p) ≠ NONE` (R5). -/
abbrev State.validPin (s : State) (p : Pin) : Prop := (s.pinMap p).isSome = true

/-- `PIN[p]` (R22). -/
def State.pin (s : State) (p : Pin) : PinEntry := s.pins[p.toNat]'p.isLt

/-- Write of the entry `PIN[p]`. -/
def State.setPin (s : State) (p : Pin) (e : PinEntry) : State :=
  { s with pins := s.pins.set p.toNat e p.isLt }

/-- `BUS[b]` (R27). No rule reads a record that does not exist; such an index reads as a free bus. -/
def State.bus (s : State) (b : Nat) : BusRec := s.buses.getD b .reset

/-- Write of the record `BUS[b]`. -/
def State.setBus (s : State) (b : Nat) (r : BusRec) : State :=
  { s with buses := s.buses.set b r }

/-! ### Responses (R56, R63, R126) -/

/-- `respond(st, v)`: the command completes with this response and the port is idle (notation table of
00_scope.md). -/
def State.respond (s : State) (st : Status) (v : Word) : State :=
  { s with seq := .idle, rsp := some ⟨st, v⟩ }

/-- The spec's form of raising an exception: a status other than `OK` with value 0. It saves no state,
changes no mode and transfers no control (R63, R126, R128). -/
def State.fail (s : State) (st : Status) : State := s.respond st 0

/-- `PORT.seq <- q ; wait`: the command does not complete in this step. -/
def State.waitFor (s : State) (q : Seq) : State := { s with seq := q, rsp := none }

/-! ### The attach step and the override (R75, R89) -/

/-- `PIN[p].attached <- 1 ; PIN[p].altmode <- 0` (R89). -/
def State.attachPin (s : State) (p : Pin) : State :=
  s.setPin p { s.pin p with attached := true, altmode := false }

/-- `PIN[p].ovr_valid <- 1 ; PIN[p].ovr_level <- level` (R75). -/
def State.setOverride (s : State) (p : Pin) (l : Level) : State :=
  s.setPin p { s.pin p with ovrValid := true, ovrLevel := l }

/-- `Lookup(p)` (R73): the pin's own level if set, else the global default. -/
def State.lookup (s : State) (p : Pin) : Level :=
  if (s.pin p).ovrValid then (s.pin p).ovrLevel else s.cfg.gatten

/-! ### Claim and release (R92, R96) -/

/-- What `Claim` latches: `CFG` and `Lookup(p)` as they stand (R92). -/
def State.snapshot (s : State) (p : Pin) (hall : Bool) : Snapshot where
  res := s.cfg.res
  width := s.cfg.width
  cycles := s.cfg.cycles
  samples := s.cfg.samples
  clkdiv := s.cfg.clkdiv
  atten := s.lookup p
  hall := hall

/-- `Claim(b, p, h)` (R92). `result` is not written. -/
def State.claim (s : State) (b : Nat) (p : Pin) (hall : Bool) : State :=
  s.setBus b { s.bus b with busy := true, owner := p, done := false, snap := s.snapshot p hall }

/-- `Release(b)` (R96): `owner`, `result` and `snap` keep their values. -/
def State.release (s : State) (b : Nat) : State :=
  s.setBus b { s.bus b with busy := false, done := false }

/-! ### The inputs that are no command -/

/-- The reset input (R135 to R137): the block goes to the reset state whatever it was doing; the
parameters, the words the host has not presented yet, the agents' turns and the count of draws are
outside the block and stay. -/
def State.assertReset (s : State) : State :=
  { State.resetOn s.nbus s.platform with
    commands := s.commands, turns := s.turns, drawn := s.drawn }

/-- The excluded collaborator gives a valid pin another mode (R26); an entry of an invalid pin never
leaves its reset state (R22). -/
def State.setAltmode (s : State) (p : Pin) : State :=
  if (s.pinMap p).isSome then s.setPin p { s.pin p with altmode := true } else s

/-- The step begins: the response of the step before is no longer driven (R56). -/
def State.quiet (s : State) : State := { s with rsp := none }

end Sys2Proof.Machine
end

