-- ==== Sys2Proof/Machine/Flags.lean ====
section
/-! DEFINITION. The status flags and what is derived from them (R37): the pin state machine's state
(R34), the arbiter's test (R90) and the completion output (R129). -/

namespace Sys2Proof.Machine

/-- The four pin states (R34). -/
inductive PinState where
  | unattached
  | idle
  | running
  | done
deriving DecidableEq, Repr

/-- `PinState(p)` (R34), not defined for an invalid pin. -/
def State.pinState (s : State) (p : Pin) : Option PinState :=
  match s.pinMap p with
  | none => none
  | some b =>
    some <|
      if (s.pin p).attached = false then .unattached
      else if (s.bus b).busy = true ∧ (s.bus b).owner = p then
        (if (s.bus b).done = false then .running else .done)
      else .idle

/-- `BusFree(b, p)` (R90): may pin `p` claim bus `b` now. -/
def State.busFree (s : State) (b : Nat) (p : Pin) : Bool :=
  if (s.bus b).busy = false then true
  else if s.platform.unread = .evict ∧ (s.bus b).done = true ∧ (s.bus b).owner ≠ p then true
  else false

/-- The completion output `done_out[b]` (R129). -/
def State.doneOut (s : State) (b : Nat) : Bool := (s.bus b).done

/-- The conversion agent of bus `b` has an enabled step: the guard of `Complete(b)` (R103). -/
def State.converting (s : State) (b : Nat) : Bool := (s.bus b).busy && !(s.bus b).done

end Sys2Proof.Machine
end

