-- ==== Sys2Proof/Machine/Operands.lean ====
section
/-! DEFINITION. The operand forms of the commands: a pin (R59, R121), a range-checked immediate (R80)
and a configuration register number (R61). -/

namespace Sys2Proof.Machine

/-- The first semantic check of every command that takes a pin: `InvalidPin` where `PINMAP(pin) = NONE`,
with no state change; else the command goes on with the pin's bus (R121). -/
def State.onPin (s : State) (p : Pin) (k : Nat → State) : State :=
  match s.pinMap p with
  | none => s.fail .invalidPin
  | some b => k b

/-- `CFG[idx]` zero-extended to 32 bits (R45, R86); the reserved numbers 6 and 7 name no register
(R61). -/
def State.readCfg (s : State) (idx : BitVec 3) : Option Word :=
  match idx.toNat with
  | 0 => some (s.cfg.res.setWidth 32)
  | 1 => some (s.cfg.width.setWidth 32)
  | 2 => some (s.cfg.cycles.setWidth 32)
  | 3 => some (s.cfg.samples.setWidth 32)
  | 4 => some (s.cfg.clkdiv.setWidth 32)
  | 5 => some (s.cfg.gatten.code.setWidth 32)
  | _ => none

/-- `SetCfg` (R80): the 16-bit operand against the closed range `[lo, hi]`; `write` stores a value of the
range in the setter's register. -/
def State.setCfg (s : State) (lo hi : Nat) (v : Imm) (write : Nat → CfgFile) : State :=
  if lo ≤ v.toNat ∧ v.toNat ≤ hi then
    { s with cfg := write v.toNat }.respond .ok 0
  else
    match s.platform.range with
    | .reject => s.fail .invalidConfig
    | .clamp => { s with cfg := write (if v.toNat < lo then lo else hi) }.respond .ok 0

end Sys2Proof.Machine
end

