-- ==== Sys2Proof/Machine/Arbiter.lean ====
section
/-! DEFINITION. The bus arbiter's commands and the resume step of END and READ (42_bus_arbiter.md). -/

namespace Sys2Proof.Machine

/-- ATTACH `pin` (R89): claims nothing. -/
def execAttach (pin : Pin) (s : State) : Host.Outcome State Fault Refusal :=
  .next (s.onPin pin fun _ => (s.attachPin pin).respond .ok 1)

/-- START `pin` (R91): the bus is tested before the attached bit (C5). -/
def execStart (pin : Pin) (s : State) : Host.Outcome State Fault Refusal :=
  .next (s.onPin pin fun b =>
    if s.busFree b pin = false then s.fail .busBusy
    else if (s.pin pin).attached = false then s.fail .notAttached
    else (s.claim b pin false).respond .ok 1)

/-- BUSY `pin` (R93): about the pin's own conversion, not about its bus (C8). -/
def execBusy (pin : Pin) (s : State) : Host.Outcome State Fault Refusal :=
  .next (s.onPin pin fun _ => s.respond .ok (if s.pinState pin = some .running then 1 else 0))

/-- END `pin`, the issue step (R94): it checks and waits; `resume` delivers the value. -/
def execEnd (pin : Pin) (s : State) : Host.Outcome State Fault Refusal :=
  .next (s.onPin pin fun _ =>
    if (s.pin pin).attached = false then s.fail .notAttached
    else s.waitFor (.wait pin))

/-- `Resume` for `WAIT(p)` (R95): where the guard is false the step is not enabled and the port keeps
waiting. -/
def resume (p : Pin) (s : State) : State :=
  match s.pinMap p with
  | some b =>
    if s.pinState p = some .done then
      (s.release b).respond .ok ((s.bus b).result.setWidth 32)
    else s
  | none => s

end Sys2Proof.Machine
end

