-- ==== Sys2Proof/Machine/Attenuation.lean ====
section
/-! DEFINITION. The attenuation table's commands (40_attenuation.md). -/

namespace Sys2Proof.Machine

/-- SETATTEN `level` (R74). -/
def execSetAtten (level : Level) (s : State) : Host.Outcome State Fault Refusal :=
  .next ({ s with cfg := { s.cfg with gatten := level } }.respond .ok 0)

/-- SETPINATTEN `pin, level` (R75): the attach step, then the override. -/
def execSetPinAtten (pin : Pin) (level : Level) (s : State) : Host.Outcome State Fault Refusal :=
  .next (s.onPin pin fun _ => ((s.attachPin pin).setOverride pin level).respond .ok 0)

/-- GETATTEN `pin` (R76): the level a conversion claimed now would latch. -/
def execGetAtten (pin : Pin) (s : State) : Host.Outcome State Fault Refusal :=
  .next (s.onPin pin fun _ => s.respond .ok ((s.lookup pin).code.setWidth 32))

end Sys2Proof.Machine
end

