-- ==== Sys2Proof/Machine/Compound.lean ====
section
/-! DEFINITION. The compound commands READ and HALLREAD and the resume steps of HALLREAD
(44_compound.md). -/

namespace Sys2Proof.Machine

/-- READ `pin`, the issue step (R111): attach, start, and wait as END does. A failing start step ends
the command, and the attach step is kept (R112). -/
def execRead (pin : Pin) (s : State) : Host.Outcome State Fault Refusal :=
  .next (s.onPin pin fun b =>
    if (s.attachPin pin).busFree b pin = false then (s.attachPin pin).fail .busBusy
    else ((s.attachPin pin).claim b pin false).waitFor (.wait pin))

/-- HALLREAD, the issue step (R113). Both Hall pins are valid on every platform R6 allows; where the
table of another platform makes one invalid, the answer is R121's. -/
def execHallRead (s : State) : Host.Outcome State Fault Refusal :=
  .next (s.onPin s.platform.hallP fun bP => s.onPin s.platform.hallN fun bN =>
    if s.busFree bP s.platform.hallP = false ∨ s.busFree bN s.platform.hallN = false then
      s.fail .busBusy
    else
      (((s.attachPin s.platform.hallP).attachPin s.platform.hallN).claim
        bP s.platform.hallP true).waitFor .hallWaitP)

/-- `HALL_COMBINE(vP, vN)` in 32-bit two's complement (R7, R115). -/
def hallCombine (f : HallFormula) (vP vN : Code) : Word :=
  match f with
  | .difference => BitVec.ofInt 32 ((vP.toNat : Int) - (vN.toNat : Int))
  | .other => Config.hallOther vP vN

/-- `HallResumeP` (R114): retrieve the first value, release its bus, claim the second conversion. -/
def hallResumeP (s : State) : State :=
  match s.pinMap s.platform.hallP, s.pinMap s.platform.hallN with
  | some bP, some bN =>
    if s.pinState s.platform.hallP = some .done then
      ((s.release bP).claim bN s.platform.hallN true).waitFor (.hallWaitN (s.bus bP).result)
    else s
  | _, _ => s

/-- `HallResumeN` (R115): retrieve the second value, release its bus, respond with the combination. -/
def hallResumeN (vP : Code) (s : State) : State :=
  match s.pinMap s.platform.hallN with
  | some bN =>
    if s.pinState s.platform.hallN = some .done then
      (s.release bN).respond .ok (hallCombine s.platform.hall vP (s.bus bN).result)
    else s
  | none => s

end Sys2Proof.Machine
end

