-- ==== Sys2Proof/Machine/Sampling.lean ====
section
/-! DEFINITION. The sampling-parameter register file's commands (41_sampling_config.md). -/

namespace Sys2Proof.Machine

/-- SETRES `bits` (R81): `SetCfg(RES, 1, 16, bits)`. -/
def execSetRes (bits : Imm) (s : State) : Host.Outcome State Fault Refusal :=
  .next (s.setCfg 1 16 bits fun v => { s.cfg with res := BitVec.ofNat 5 v })

/-- SETWIDTH `bits` (R82): `SetCfg(WIDTH, 9, 12, bits)`. -/
def execSetWidth (bits : Imm) (s : State) : Host.Outcome State Fault Refusal :=
  .next (s.setCfg 9 12 bits fun v => { s.cfg with width := BitVec.ofNat 4 v })

/-- SETCYCLES `n` (R83): `SetCfg(CYCLES, 1, 255, n)`. -/
def execSetCycles (n : Imm) (s : State) : Host.Outcome State Fault Refusal :=
  .next (s.setCfg 1 255 n fun v => { s.cfg with cycles := BitVec.ofNat 8 v })

/-- SETSAMPLES `n` (R84): `SetCfg(SAMPLES, 1, 255, n)`. -/
def execSetSamples (n : Imm) (s : State) : Host.Outcome State Fault Refusal :=
  .next (s.setCfg 1 255 n fun v => { s.cfg with samples := BitVec.ofNat 8 v })

/-- SETCLKDIV `n` (R85): `SetCfg(CLKDIV, 1, 255, n)`. -/
def execSetClkDiv (n : Imm) (s : State) : Host.Outcome State Fault Refusal :=
  .next (s.setCfg 1 255 n fun v => { s.cfg with clkdiv := BitVec.ofNat 8 v })

/-- GETCFG `idx` (R86). The decoder lets only 0 to 5 through; a reserved number spells no command and is
answered as such a word is (R61, R125). -/
def execGetCfg (idx : BitVec 3) (s : State) : Host.Outcome State Fault Refusal :=
  .next (match s.readCfg idx with
    | some v => s.respond .ok v
    | none => s.fail .illegalCmd)

end Sys2Proof.Machine
end

