-- ==== Sys2Proof/Machine/Dispatch.lean ====
section
/-! DEFINITION. One arm per command, each a direct call of its meaning: the issue step of the command
at the host port (R46). -/

namespace Sys2Proof.Machine

def exec (i : Instr) (s : State) : Host.Outcome State Fault Refusal :=
  match i with
  | .read pin => Sys2Proof.Machine.execRead pin s
  | .setRes bits => Sys2Proof.Machine.execSetRes bits s
  | .setWidth bits => Sys2Proof.Machine.execSetWidth bits s
  | .setCycles n => Sys2Proof.Machine.execSetCycles n s
  | .setSamples n => Sys2Proof.Machine.execSetSamples n s
  | .setClkDiv n => Sys2Proof.Machine.execSetClkDiv n s
  | .setAtten level => Sys2Proof.Machine.execSetAtten level s
  | .setPinAtten pin level => Sys2Proof.Machine.execSetPinAtten pin level s
  | .hallRead => Sys2Proof.Machine.execHallRead s
  | .attach pin => Sys2Proof.Machine.execAttach pin s
  | .start pin => Sys2Proof.Machine.execStart pin s
  | .busy pin => Sys2Proof.Machine.execBusy pin s
  | .endConv pin => Sys2Proof.Machine.execEnd pin s
  | .getCfg idx => Sys2Proof.Machine.execGetCfg idx s
  | .getAtten pin => Sys2Proof.Machine.execGetAtten pin s

end Sys2Proof.Machine
end

