-- ==== Sys2Proof/Machine/Engine.lean ====
section
/-! DEFINITION. The conversion engine: the asynchronous step `Complete(b)` and its arithmetic
(43_conversion_engine.md). -/

namespace Sys2Proof.Machine

/-- `Average(s_1 .. s_n)` (R105): the integer mean, rounded toward zero. -/
def average (xs : List Nat) : Nat := xs.sum / xs.length

/-- `Rescale(v, w, r)` (R106): from native width `w` to resolution `r`. -/
def rescale (v w r : Nat) : Nat :=
  if r = w then v
  else if r < w then v >>> (w - r)
  else v <<< (r - w)

/-- What the environment is told of the analog path (R104): the latched level's code, or nothing on the
dedicated Hall path. -/
def Snapshot.path (n : Snapshot) : Option (BitVec 2) :=
  if n.hall then none else some n.atten.code

/-- The free value a draw takes where the environment lists none: sample number `k` of the machine's life
for the conversion of record `r`. It may depend on the latched `cycles` and `clkdiv`, which R110 forbids
to rule out of the environment; what it may depend on besides is the model's choice (DESIGN CHOICE, log
entry 5). -/
def BusRec.freeSample (r : BusRec) (k : Nat) : RawSample :=
  Config.rawSample k r.owner r.snap.path r.snap.width r.snap.cycles r.snap.clkdiv

/-- The draws of one conversion (R104): `samples` raw samples, each in `0 .. 2^width - 1`. Sample `k` is
the `k`-th the environment lists, or else a free value (R11, R110; DESIGN CHOICE, log entry 5). -/
def acquire (r : BusRec) (draws : List RawSample) (drawn : Nat) : List Nat :=
  (List.range r.snap.samples.toNat).map fun k =>
    (draws.getD k (r.freeSample (drawn + k))).toNat % 2 ^ r.snap.width.toNat

/-- The code a conversion reports for its draws: averaged, then rescaled with the latched width and
resolution (R107). -/
def convert (n : Snapshot) (xs : List Nat) : Code :=
  BitVec.ofNat 16 (rescale (average xs) n.width.toNat n.res.toNat)

/-- `Complete(b)` (R103, R107): enabled while the bus is in its running phase; it reads the snapshot and
writes `result` and `done` alone. -/
def complete (b : Nat) (draws : List RawSample) (s : State) : State :=
  if s.converting b then
    { s.setBus b { s.bus b with
        result := convert (s.bus b).snap (acquire (s.bus b) draws s.drawn)
        done := true } with
      drawn := s.drawn + (s.bus b).snap.samples.toNat }
  else s

end Sys2Proof.Machine
end

