-- ==== Sys2Proof/Machine/Port.lean ====
section
/-! DEFINITION. The host port: which step of it is enabled (R33, R50, R57), the acceptance of a command
word, and one turn of each agent (R3). -/

namespace Sys2Proof.Machine

/-- The port accepts the word `w` (R57): its command's issue step, or the answer to a word that spells no
command, with no change of state (R65, R125). -/
def issue (w : Word) (s : State) : Host.Outcome State Fault Refusal :=
  match decode w with
  | .ok i => exec i s
  | .error _ => .next (s.fail .illegalCmd)

/-- One turn of the host port: in `IDLE` it accepts the next word presented, if there is one; while a
blocking command holds it, it takes that command's resume step where the step is enabled and accepts
nothing (R33, R50). -/
def hostTurn (s : State) : Host.Outcome State Fault Refusal :=
  match s.seq with
  | .idle =>
    match s.commands with
    | [] => .next s
    | w :: rest => issue w { s with commands := rest }
  | .wait p => .next (resume p s)
  | .hallWaitP => .next (hallResumeP s)
  | .hallWaitN vP => .next (hallResumeN vP s)

/-- One turn of the agent `t` (R3). -/
def agentTurn (t : Turn) (s : State) : Host.Outcome State Fault Refusal :=
  match t with
  | .host => hostTurn s
  | .engine b draws => .next (complete b draws s)
  | .altmode p => .next (s.setAltmode p)
  | .reset => .next s.assertReset

/-- The agent that moves where no turn is listed: the conversion agent of the lowest-numbered bus whose
conversion is running, with every draw free, or else the host port. R12, R103 and R151 assume weak
fairness and nothing more of the order; this order is fair, since every enabled `Complete(b)` and every
enabled resume step fires after at most `NBUS` other steps (DESIGN CHOICE, log entry 15). -/
def State.unlistedTurn (s : State) : Turn :=
  match (List.range s.nbus).find? s.converting with
  | some b => .engine b []
  | none => .host

/-- The agent whose turn it is: the first listed, or, where none is listed, the next in a fair order. -/
def State.nextTurn (s : State) : Turn := s.turns.headD s.unlistedTurn

/-- The state the agent's turn starts from: its turn is used up and no response is driven. -/
def State.beginTurn (s : State) : State := { s.quiet with turns := s.turns.tail }

/-- The state from which the port runs the word it accepts: nothing driven, the host's turn used up and
the word taken from what the host presents. -/
def State.accept (s : State) : State := { s.beginTurn with commands := s.commands.tail }

/-- Present the word `w` at the port as the next thing that happens: the port free, the word first and
the turn the host's. -/
def State.present (s : State) (w : Word) : State :=
  { s with seq := .idle, commands := w :: s.commands, turns := .host :: s.turns }

end Sys2Proof.Machine
end

