-- ==== Sys2Proof/Machine/Step.lean ====
section
/-! DEFINITION. One step of the machine: one turn of one agent (R3, R46). -/

namespace Sys2Proof.Machine

/-- One atomic step: the agent whose turn it is moves (R46, R50). -/
def step (s : State) : Host.Outcome State Fault Refusal :=
  agentTurn s.nextTurn s.beginTurn

/-- `s` with the word `w` of `nbits` bits presented at a free port, so that the next step accepts and
runs it. The host presents every command from outside the block (R36, R57). -/
def State.withFetchWord (s : State) (nbits w : Nat) : State :=
  s.present (BitVec.ofNat 32 (w % 2 ^ nbits))

end Sys2Proof.Machine
end

