-- ==== Sys2Proof/Safety.lean ====
section
/-! DEFINITION. The terms in which claims about runs are made: a platform the spec admits (R4 to R6), the
invariants of every reachable state (R35), the waiting port and the stuck port (R141), the orders of
steps that are fair (R12, R103, R151), and when two states cannot be told apart (R40). -/

namespace Sys2Proof.Machine

/-- The parameters are as R4 to R6 ask: at least one bus, and two different valid Hall pins. -/
structure State.PlatformOk (s : State) : Prop where
  nbus_pos : 1 ≤ s.nbus
  hallP_valid : s.validPin s.platform.hallP
  hallN_valid : s.validPin s.platform.hallN
  hall_ne : s.platform.hallP ≠ s.platform.hallN

/-- Every configuration register holds a legal value of its range (R14, R35 I-e). -/
structure CfgFile.Legal (c : CfgFile) : Prop where
  res : 1 ≤ c.res.toNat ∧ c.res.toNat ≤ 16
  width : 9 ≤ c.width.toNat ∧ c.width.toNat ≤ 12
  cycles : 1 ≤ c.cycles.toNat
  samples : 1 ≤ c.samples.toNat
  clkdiv : 1 ≤ c.clkdiv.toNat

/-- A snapshot holds legal values of the registers it was latched from (R32). -/
structure Snapshot.Legal (n : Snapshot) : Prop where
  res : 1 ≤ n.res.toNat ∧ n.res.toNat ≤ 16
  width : 9 ≤ n.width.toNat ∧ n.width.toNat ≤ 12
  cycles : 1 ≤ n.cycles.toNat
  samples : 1 ≤ n.samples.toNat
  clkdiv : 1 ≤ n.clkdiv.toNat

/-- What R35 says of one bus record (I-a, I-b), with the legality of what is latched in it (R32) and the
range of a result (R108). -/
structure State.BusOk (s : State) (b : Nat) : Prop where
  done_busy : (s.bus b).done = true → (s.bus b).busy = true
  owner_maps : (s.bus b).busy = true → s.pinMap (s.bus b).owner = some b
  owner_attached : (s.bus b).busy = true → (s.pin (s.bus b).owner).attached = true
  snap_legal : (s.bus b).busy = true → (s.bus b).snap.Legal
  result_range : (s.bus b).done = true → (s.bus b).result.toNat < 2 ^ (s.bus b).snap.res.toNat

/-- Pin `p` is RUNNING or DONE: it owns its bus. -/
def State.Owns (s : State) (p : Pin) : Prop :=
  s.pinState p = some .running ∨ s.pinState p = some .done

/-- What R35 I-g says of the sequencer. While a HALLREAD waits for its first conversion its second pin is
attached, and that pin's bus, where it is another one, is still free for it (R113, R114). -/
def State.SeqOk (s : State) : Prop :=
  match s.seq with
  | .idle => True
  | .wait p => s.validPin p ∧ (s.pin p).attached = true
  | .hallWaitP =>
    s.Owns s.platform.hallP ∧ (s.pin s.platform.hallN).attached = true ∧
    ∀ b, s.pinMap s.platform.hallN = some b → s.pinMap s.platform.hallP ≠ some b →
      s.busFree b s.platform.hallN = true
  | .hallWaitN _ => s.Owns s.platform.hallN

/-- The three flags of a pin entry hold their reset values (R40). `ovr_level` is left alone: R40 leaves it
unspecified. -/
structure PinEntry.AtReset (e : PinEntry) : Prop where
  attached : e.attached = false
  ovrValid : e.ovrValid = false
  altmode : e.altmode = false

/-- The invariants of every reachable state (R35, R22). I-c and I-d hold by the form of the state:
`owner` is one field (R98). -/
structure State.Inv (s : State) : Prop where
  platform : s.PlatformOk
  cfg : s.cfg.Legal
  buses : ∀ b, s.BusOk b
  attached_valid : ∀ p, (s.pin p).attached = true → s.validPin p
  invalid_reset : ∀ p, s.pinMap p = none → (s.pin p).AtReset
  seq : s.SeqOk

/-- A command holds the port: it has been accepted and has not responded (R33). -/
abbrev State.PortHeld (s : State) : Prop := s.seq ≠ .idle

/-- The pin whose conversion the command at the port waits for (R33). -/
def State.awaited (s : State) : Option Pin :=
  match s.seq with
  | .idle => none
  | .wait p => some p
  | .hallWaitP => some s.platform.hallP
  | .hallWaitN _ => some s.platform.hallN

/-- A resume step of the port is enabled: the guard of `Resume`, `HallResumeP` or `HallResumeN` holds (R95,
R114, R115). -/
def State.ResumeEnabled (s : State) : Prop :=
  ∃ p, s.awaited = some p ∧ s.pinState p = some .done

/-- The state after the turn `x` of `s`, whatever `s` lists. -/
def State.takes (s : State) (x : Turn) : State :=
  match step { s with turns := [x] } with
  | .next t => t
  | .fault _ => s
  | .refused _ => s

/-- The state after the first `n` turns of the endless order `σ` of the agents' steps. -/
def State.along (s : State) (σ : Nat → Turn) : Nat → State
  | 0 => s
  | n + 1 => (s.along σ n).takes (σ n)

/-- The order `σ` is weakly fair on the run from `s` (R12, R103, R151, the spec's own decision D12): a
`Complete(b)` or a resume step that is enabled at some instant is disabled at a later one or fires. -/
structure State.WeaklyFair (s : State) (σ : Nat → Turn) : Prop where
  complete : ∀ n b, (s.along σ n).converting b = true →
    ∃ m, n ≤ m ∧ ((s.along σ m).converting b = false ∨ ∃ ds, σ m = .engine b ds)
  resume : ∀ n, (s.along σ n).ResumeEnabled →
    ∃ m, n ≤ m ∧ (¬ (s.along σ m).ResumeEnabled ∨ σ m = .host)

/-- The port is stuck: it waits for a pin that has no conversion running or done (R141). -/
def State.PortStuck (s : State) : Prop :=
  ∃ p, s.seq = .wait p ∧ s.pinState p = some .idle

/-- No command can tell the two entries apart: `ovr_level` counts only under `ovr_valid` (R24, R40). -/
def PinEntry.Same (e f : PinEntry) : Prop :=
  e.attached = f.attached ∧ e.ovrValid = f.ovrValid ∧ e.altmode = f.altmode ∧
  (e.ovrValid = true → e.ovrLevel = f.ovrLevel)

/-- No command can tell the two records apart: `owner` and `snap` count only under `busy`, `result` only
under `busy` and `done` (R29, R31, R32, R40). -/
def BusRec.Same (r q : BusRec) : Prop :=
  r.busy = q.busy ∧ r.done = q.done ∧
  (r.busy = true → r.owner = q.owner ∧ r.snap = q.snap) ∧
  (r.busy = true → r.done = true → r.result = q.result)

/-- The two states differ only in fields no command can observe (R40). -/
structure State.Same (s t : State) : Prop where
  cfg : s.cfg = t.cfg
  pins : ∀ p, (s.pin p).Same (t.pin p)
  nbus : s.nbus = t.nbus
  buses : ∀ b, (s.bus b).Same (t.bus b)
  seq : s.seq = t.seq
  rsp : s.rsp = t.rsp
  platform : s.platform = t.platform
  commands : s.commands = t.commands
  turns : s.turns = t.turns
  drawn : s.drawn = t.drawn

/-- The two states differ in `altmode` of pins alone (R26). -/
structure State.SameButAltmode (s t : State) : Prop where
  cfg : s.cfg = t.cfg
  pins : ∀ p, { s.pin p with altmode := (t.pin p).altmode } = t.pin p
  buses : s.buses = t.buses
  seq : s.seq = t.seq
  rsp : s.rsp = t.rsp
  platform : s.platform = t.platform
  commands : s.commands = t.commands
  turns : s.turns = t.turns
  drawn : s.drawn = t.drawn

/-- What a command leaves alone of everything beyond the pin table, the bus records and the port: the
parameters, the agenda and the count of draws. -/
structure State.OutsideKept (s t : State) : Prop where
  platform : t.platform = s.platform
  nbus : t.nbus = s.nbus
  commands : t.commands = s.commands
  turns : t.turns = s.turns
  drawn : t.drawn = s.drawn

end Sys2Proof.Machine
end

