-- ==== Sys2Proof/Certificates/Slice0/Obligations.lean ====
section
/-! DEFINITION. The statements for the provers, each with the rule of spec/ it formalises. -/

open Sys2Proof Sys2Proof.Machine

/-! ### Encoding -/

/-- Decoding the word that spells a well-formed command gives the command back, with every operand at
every value (R64, R65, R66). -/
def Obligations.DecodeOfEncode : Prop :=
  ∀ i : Instr, i.wf = true → decode (encode i) = .ok i

/-- A word that decodes is the one word that spells its command, and the command is well formed: the
decoder is injective on commands (R65, R66). -/
def Obligations.EncodeOfDecode : Prop :=
  ∀ (w : Word) (i : Instr), decode w = .ok i → i.wf = true ∧ encode i = w

/-- A word spells a command exactly when it matches a row of the opcode map under the row's mask, and
GETCFG's register number is at most 5; the command is then the row's, with the row's operands (R64,
R65). -/
def Obligations.DecodeIffRowMatches : Prop :=
  ∀ (w : Word) (i : Instr), decode w = .ok i ↔
    ∃ r ∈ opTable, w &&& r.mask = r.pattern ∧
      (r.mnemonic = "GETCFG" → (idxField w).toNat ≤ 5) ∧ i = r.build w

/-- Words written out in the spec decode to the commands it writes beside them, and words it lists as
spelling no command are refused (95_test_vectors.md 2.1 and 2.2). -/
def Obligations.SpecWordsDecode : Prop :=
  decode 0x0B220000 = .ok (.attach 34) ∧ decode 0x09220002 = .ok (.setPinAtten 34 .db6) ∧
  decode 0x0300000A = .ok (.setRes 10) ∧ decode 0x0A000000 = .ok .hallRead ∧
  decode 0x0F000002 = .ok (.getCfg 2) ∧ decode 0x0700FFFF = .ok (.setClkDiv 65535) ∧
  decode 0x0E190000 = .ok (.endConv 25) ∧ decode 0x10220000 = .ok (.getAtten 34) ∧
  decode 0x02220001 = .error .reservedOpcode ∧ decode 0x01070001 = .error .reservedField ∧
  decode 0x0F000006 = .error .reservedRegister ∧ decode 0x11000000 = .error .unassignedOpcode

/-! ### The host port and the step -/

/-- The idle port with a word presented, on the host's turn, runs the command the word spells from the
state that has used up the turn and the word; and a word placed by `withFetchWord` is run by the very
next step (R50, R57). -/
def Obligations.StepRunsTheDecodedCommand : Prop :=
  (∀ (s : State) (w : Word) (rest : List Word) (i : Instr),
    s.nextTurn = .host → s.seq = .idle → s.commands = w :: rest → decode w = .ok i →
    step s = exec i { s with rsp := none, turns := s.turns.tail, commands := rest }) ∧
  (∀ (s : State) (nbits w : Nat) (i : Instr), decodeTableWord nbits w = some i →
    step (s.withFetchWord nbits w) = exec i { s with seq := .idle, rsp := none })

/-- Which words spell no command (R65 to R68, R125): those of an unassigned opcode, of the reserved opcode
0x02, with a reserved field that is not zero, or with GETCFG register 6 or 7; the all-zero word among
them. Each is answered `(IllegalCmd, 0)`; nothing of the block changes and the port stays idle (the
spec's own decision D24). -/
def Obligations.IllegalWordIsAnswered : Prop :=
  (∀ w : Word, (∀ i, decode w ≠ .ok i) ↔
    (opField w = 0x00 ∨ 0x11 ≤ (opField w).toNat ∨ opField w = 0x02 ∨
      (∃ r ∈ opTable, opField r.pattern = opField w ∧ w &&& r.mask ≠ r.pattern) ∨
      (opField w = 0x0F ∧ 5 < (idxField w).toNat))) ∧
  (∀ i, decode 0 ≠ .ok i) ∧
  (∀ (s : State) (w : Word) (rest : List Word),
    s.nextTurn = .host → s.seq = .idle → s.commands = w :: rest → (∀ i, decode w ≠ .ok i) →
    step s = .next { s with
      rsp := some ⟨.illegalCmd, 0⟩, turns := s.turns.tail, commands := rest })

/-- No step of the block faults or is refused: every error is a status (R126), and the block never halts
(R152). -/
def Obligations.EveryStepGoesOn : Prop :=
  ∀ s : State, ∃ t, step s = .next t

/-- The parameters of the hardware do not change while it runs (R13, R5). -/
def Obligations.StepKeepsTheParameters : Prop :=
  ∀ s t : State, step s = .next t →
    t.platform = s.platform ∧ t.nbus = s.nbus ∧ ∀ p, t.pinMap p = s.pinMap p

/-- While a command holds the port no word is accepted, whoever moves, and a response is produced only by
the step that frees the port (R33, R50, R57). -/
def Obligations.HeldPortAcceptsNothing : Prop :=
  ∀ s t : State, s.PortHeld → step s = .next t →
    t.commands = s.commands ∧ (t.rsp ≠ none → t.seq = .idle)

/-! ### Reset and the other inputs -/

/-- The values the spec gives for reset: the configuration, the flags, the port; and what follows from
them for pins, levels and outputs (R40, R136; RES and WIDTH 12 are the spec's own decision D10, log
entry 17). -/
def Obligations.ResetValues : Prop :=
  State.reset.cfg.res = 12 ∧ State.reset.cfg.width = 12 ∧ State.reset.cfg.cycles = 8 ∧
  State.reset.cfg.samples = 1 ∧ State.reset.cfg.clkdiv = 1 ∧ State.reset.cfg.gatten = .db11 ∧
  State.reset.seq = .idle ∧
  (∀ p, (State.reset.pin p).attached = false ∧ (State.reset.pin p).ovrValid = false ∧
    (State.reset.pin p).altmode = false) ∧
  (∀ b, (State.reset.bus b).busy = false ∧ (State.reset.bus b).done = false ∧
    State.reset.doneOut b = false ∧ State.reset.converting b = false) ∧
  (∀ p, State.reset.validPin p → State.reset.pinState p = some .unattached ∧
    State.reset.lookup p = .db11)

/-- The reset state meets the invariants, on the open platform of `Config` (R35). -/
def Obligations.ResetMeetsTheInvariant : Prop := State.reset.Inv

/-- The reset input puts the block into its reset state whatever it was doing, keeps what lies outside
the block, and answers nothing (R135, R136, R137). It says nothing of the fields R40 leaves unspecified.
RES and WIDTH 12 are the spec's own decision D10 (log entry 17); the reset input is its decision D19, and
what lies outside the block is the model's choice (log entry 8). -/
def Obligations.ResetInputResets : Prop :=
  ∀ s : State, s.nextTurn = .reset →
    ∃ t, step s = .next t ∧ t.cfg = CfgFile.reset ∧ (∀ p, (t.pin p).AtReset) ∧
      (∀ b, (t.bus b).busy = false ∧ (t.bus b).done = false ∧ t.converting b = false) ∧
      t.seq = .idle ∧ t.rsp = none ∧ t.platform = s.platform ∧ t.nbus = s.nbus ∧
      t.commands = s.commands ∧ t.turns = s.turns.tail ∧ t.drawn = s.drawn

/-- The collaborator's step sets `altmode` of a valid pin and changes nothing else of the block (R26). -/
def Obligations.CollaboratorSetsAltmode : Prop :=
  ∀ (s : State) (p : Pin), s.nextTurn = .altmode p → s.validPin p →
    ∃ t, step s = .next t ∧ t.pin p = { s.pin p with altmode := true } ∧
      (∀ q, q ≠ p → t.pin q = s.pin q) ∧ t.cfg = s.cfg ∧ t.buses = s.buses ∧ t.seq = s.seq ∧
      t.rsp = none ∧ t.platform = s.platform ∧ t.commands = s.commands ∧ t.drawn = s.drawn

/-- No rule reads `altmode` (R26). Two states that differ in that bit of any pins alone stay so: after every
command, and after every step of every agent (an issue step, `Resume`, `HallResumeP`, `HallResumeN`,
`Complete`, the collaborator's step and the reset input), the responses and all else are the same; and a
pin whose bit was the same in both has it the same afterwards. Both runs have the same draws; that unlisted
draws are the same is the model's choice (log entry 5). -/
def Obligations.AltmodeIsNeverRead : Prop :=
  (∀ (i : Instr) (s s' t : State), s.SameButAltmode s' → exec i s = .next t →
    ∃ t', exec i s' = .next t' ∧ t.SameButAltmode t' ∧
      ∀ q, (s.pin q).altmode = (s'.pin q).altmode → (t.pin q).altmode = (t'.pin q).altmode) ∧
  (∀ s s' t : State, s.SameButAltmode s' → step s = .next t →
    ∃ t', step s' = .next t' ∧ t.SameButAltmode t' ∧
      ∀ q, (s.pin q).altmode = (s'.pin q).altmode → (t.pin q).altmode = (t'.pin q).altmode)

/-! ### Invariants and whole-machine rules -/

/-- Every step of every agent keeps the invariants of R35. -/
def Obligations.StepKeepsTheInvariant : Prop :=
  ∀ s t : State, s.Inv → step s = .next t → t.Inv

/-- At most one pin of a bus is RUNNING or DONE, in every state and under both policies (R98). -/
def Obligations.AtMostOneOwnerPerBus : Prop :=
  ∀ (s : State) (p q : Pin) (b : Nat), s.pinMap p = some b → s.pinMap q = some b →
    s.Owns p → s.Owns q → p = q

/-- A valid pin moves between its four states only as R88 says. It leaves UNATTACHED at the issue of a
command and IDLE at a host step; nothing but the reset input leads back to UNATTACHED; only the pin's
conversion agent takes RUNNING to DONE; DONE is left for IDLE alone, at a host step: the resume step of
the command that waits for this pin, or, under EVICT, a claim of its bus for another pin. READ and
HALLREAD attach and claim in one step. -/
def Obligations.PinStateMachine : Prop :=
  ∀ (s t : State) (p : Pin), s.Inv → s.nextTurn ≠ .reset → s.validPin p → step s = .next t →
    (s.pinState p = some .unattached → t.pinState p = some .unattached ∨
      ((t.pinState p = some .idle ∨ t.pinState p = some .running) ∧
        s.nextTurn = .host ∧ s.seq = .idle)) ∧
    (s.pinState p = some .idle → t.pinState p = some .idle ∨
      (t.pinState p = some .running ∧ s.nextTurn = .host)) ∧
    (s.pinState p = some .running → t.pinState p = some .running ∨
      (t.pinState p = some .done ∧
        ∃ b ds, s.nextTurn = .engine b ds ∧ s.pinMap p = some b)) ∧
    (s.pinState p = some .done → t.pinState p = some .done ∨
      (t.pinState p = some .idle ∧ s.nextTurn = .host ∧
        (s.awaited = some p ∨ (s.platform.unread = .evict ∧
          ∃ q, q ≠ p ∧ s.pinMap q = s.pinMap p ∧ t.pinState q = some .running))))

/-- Lifetime (R39): but for the reset input no step destroys anything. A pin once attached stays attached;
an override once set stays, at its level until another SETPINATTEN of that pin; a running conversion
runs on or is done; and there are as many buses as before. -/
def Obligations.AttachmentOverrideAndConversionLast : Prop :=
  ∀ (s t : State) (p : Pin), s.nextTurn ≠ .reset → step s = .next t →
    ((s.pin p).attached = true → (t.pin p).attached = true) ∧
    ((s.pin p).ovrValid = true → (t.pin p).ovrValid = true ∧
      ((t.pin p).ovrLevel = (s.pin p).ovrLevel ∨
        ∃ w rest l, s.nextTurn = .host ∧ s.seq = .idle ∧ s.commands = w :: rest ∧
          decode w = .ok (.setPinAtten p l) ∧ (t.pin p).ovrLevel = l)) ∧
    (s.Inv → s.pinState p = some .running →
      t.pinState p = some .running ∨ t.pinState p = some .done) ∧
    t.nbus = s.nbus

/-- Under HOLD a claimed bus stays claimed by its owner, with its snapshot, until its finished result is
retrieved by the resume step of the command that waits for that owner (R28, R39, R99). -/
def Obligations.HoldReleasesOnlyByRetrieval : Prop :=
  ∀ (s t : State) (b : Nat), s.Inv → s.platform.unread = .hold → s.nextTurn ≠ .reset →
    (s.bus b).busy = true → step s = .next t →
    ((t.bus b).busy = true ∧ (t.bus b).owner = (s.bus b).owner ∧
      (t.bus b).snap = (s.bus b).snap) ∨
    ((s.bus b).done = true ∧ s.nextTurn = .host ∧ s.awaited = some (s.bus b).owner)

/-- The completion output of a bus rises only at the `Complete` step of its running conversion, and falls
only at a host step (R129, R130). That step is the resume step of the command that waits for the bus's
owner, which leaves the bus free or, in a HALLREAD on one bus, claimed at once for `HALL_N` (R114). Or it
is, under EVICT, a claim that finds the port idle or is a HALLREAD's second: the bus is then busy and not
done, for another owner, which is RUNNING. -/
def Obligations.CompletionOutputRisesAndFalls : Prop :=
  ∀ (s t : State) (b : Nat), s.Inv → s.nextTurn ≠ .reset → step s = .next t →
    (s.doneOut b = false → t.doneOut b = true →
      s.converting b = true ∧ ∃ ds, s.nextTurn = .engine b ds) ∧
    (s.doneOut b = true → t.doneOut b = false →
      s.nextTurn = .host ∧
      ((s.awaited = some (s.bus b).owner ∧
        ((t.bus b).busy = false ∨
          (s.seq = .hallWaitP ∧ t.pinState s.platform.hallN = some .running ∧
            (t.bus b).owner = s.platform.hallN))) ∨
      (s.platform.unread = .evict ∧ (s.seq = .idle ∨ s.seq = .hallWaitP) ∧
        (t.bus b).busy = true ∧ (t.bus b).done = false ∧ (t.bus b).owner ≠ (s.bus b).owner ∧
        s.pinMap (t.bus b).owner = some b ∧ t.pinState (t.bus b).owner = some .running)))

/-- A status other than `OK` is answered only by the step that accepts a command (R128, derived by the spec
from R121 to R125). That command has changed no state, but for the attach step of a READ answered
`BusBusy`, and the port is idle after it. -/
def Obligations.FailingCommandChangesNothing : Prop :=
  ∀ (s t : State) (r : Response), step s = .next t → t.rsp = some r → r.status ≠ .ok →
    s.nextTurn = .host ∧ s.seq = .idle ∧ t.seq = .idle ∧
    ∃ w rest, s.commands = w :: rest ∧
      (t = { s with rsp := some r, turns := s.turns.tail, commands := rest } ∨
        ∃ p, decode w = .ok (.read p) ∧ r.status = .busBusy ∧
          t = { s.attachPin p with rsp := some r, turns := s.turns.tail, commands := rest })

/-- Which status a command answers in its issue step, and exactly when (R119, R121 to R124): the causes of
`InvalidPin`, `NotAttached`, `BusBusy` and `InvalidConfig`. `NotAttached` goes with no change of state;
a command that decodes never answers `IllegalCmd`. -/
def Obligations.StatusCauses : Prop :=
  ∀ (i : Instr) (s t : State) (r : Response), s.PlatformOk → exec i s = .next t → t.rsp = some r →
    (r.status = .invalidPin ↔ ∃ p l, i ∈ [.read p, .setPinAtten p l, .getAtten p, .attach p, .start p,
      .busy p, .endConv p] ∧ s.pinMap p = none) ∧
    (r.status = .notAttached ↔ ∃ p b, s.pinMap p = some b ∧ (s.pin p).attached = false ∧
      (i = .endConv p ∨ (i = .start p ∧ s.busFree b p = true))) ∧
    (r.status = .busBusy ↔
      (∃ p b, s.pinMap p = some b ∧ s.busFree b p = false ∧ (i = .start p ∨ i = .read p)) ∨
      (i = .hallRead ∧ ∃ p b, (p = s.platform.hallP ∨ p = s.platform.hallN) ∧
        s.pinMap p = some b ∧ s.busFree b p = false)) ∧
    (r.status = .invalidConfig ↔ s.platform.range = .reject ∧ ∃ v : Imm,
      (i = .setRes v ∧ ¬ (1 ≤ v.toNat ∧ v.toNat ≤ 16)) ∨
      (i = .setWidth v ∧ ¬ (9 ≤ v.toNat ∧ v.toNat ≤ 12)) ∨
      (i ∈ [.setCycles v, .setSamples v, .setClkDiv v] ∧ ¬ (1 ≤ v.toNat ∧ v.toNat ≤ 255))) ∧
    (r.status = .notAttached → t = { s with seq := .idle, rsp := some r }) ∧
    (i.wf = true → r.status ≠ .illegalCmd)

/-- What a non-blocking command answers (R63): value 0 with every error, from a setter and from an
attenuation setter, and 1 from an ATTACH or START that succeeds. -/
def Obligations.ResponseValues : Prop :=
  ∀ (i : Instr) (s t : State) (r : Response), s.rsp = none → exec i s = .next t →
    t.rsp = some r →
    (r.status ≠ .ok → r.value = 0) ∧
    (r.status = .ok → ∀ (v : Imm) (l : Level) (p : Pin),
      (i ∈ [.setRes v, .setWidth v, .setCycles v, .setSamples v, .setClkDiv v, .setAtten l,
        .setPinAtten p l] → r.value = 0) ∧
      (i ∈ [.attach p, .start p] → r.value = 1) ∧
      (i = .busy p → r.value = 0 ∨ r.value = 1))

/-- Fields that R40 leaves unspecified are unobservable: two states that differ only in an `ovr_level`
without `ovr_valid`, in `owner` or `snap` of a free bus, or in a result that is not done, go the same
way for ever, with the same responses (R40, R136). Both runs have the same draws; that unlisted draws are the
same is the model's choice (log entry 5). -/
def Obligations.UnspecifiedFieldsAreUnobservable : Prop :=
  ∀ s s' t : State, s.Same s' → step s = .next t → ∃ t', step s' = .next t' ∧ t.Same t'

/-! ### The conversion engine -/

/-- `Complete(b)` in full (R107): enabled exactly while its bus is running, it draws `samples` raw samples of
the latched width's range, latches their rescaled mean and sets `done`, and writes nothing else of the
block; on any other bus state the turn changes nothing. In a state of the invariant the owner is then
DONE and BUSY of it answers 0. The turn and its list of draws are the model's form of the agent's free
step (log entries 4 and 5). -/
def Obligations.CompleteLatchesTheResult : Prop :=
  ∀ (s : State) (b : Nat) (ds : List RawSample), s.nextTurn = .engine b ds →
    ∃ t, step s = .next t ∧
      (((s.bus b).busy = true ∧ (s.bus b).done = false) →
        (∃ xs, xs = acquire (s.bus b) ds s.drawn ∧ xs.length = (s.bus b).snap.samples.toNat ∧
          (∀ x ∈ xs, x ≤ 2 ^ (s.bus b).snap.width.toNat - 1) ∧
          t.bus b = { s.bus b with
            result := BitVec.ofNat 16 (rescale (xs.sum / (s.bus b).snap.samples.toNat)
              (s.bus b).snap.width.toNat (s.bus b).snap.res.toNat),
            done := true }) ∧
        t.drawn = s.drawn + (s.bus b).snap.samples.toNat ∧
        (s.Inv → t.pinState (s.bus b).owner = some .done ∧
          exec (.busy (s.bus b).owner) t = .next { t with seq := .idle, rsp := some ⟨.ok, 0⟩ })) ∧
      (¬ ((s.bus b).busy = true ∧ (s.bus b).done = false) →
        t.bus b = s.bus b ∧ t.drawn = s.drawn) ∧
      (∀ c, c ≠ b → t.bus c = s.bus c) ∧ t.nbus = s.nbus ∧ t.cfg = s.cfg ∧ t.pins = s.pins ∧
      t.seq = s.seq ∧ t.rsp = none ∧ t.platform = s.platform ∧ t.commands = s.commands ∧
      t.turns = s.turns.tail

/-- A conversion draws its latched number of samples, each within its native range; where the environment
lists that many samples of the range, they are the draws (R11, R104). A Hall conversion's draws do not
depend on the latched attenuation. The list of samples and the free value where it is short are the
model's (log entry 5). -/
def Obligations.DrawsAreInRange : Prop :=
  ∀ (r : BusRec) (ds : List RawSample) (k : Nat),
    (acquire r ds k).length = r.snap.samples.toNat ∧
    (∀ x ∈ acquire r ds k, x ≤ 2 ^ r.snap.width.toNat - 1) ∧
    (ds.length = r.snap.samples.toNat → (∀ x ∈ ds, x.toNat < 2 ^ r.snap.width.toNat) →
      acquire r ds k = ds.map BitVec.toNat) ∧
    (r.snap.hall = true → ∀ l,
      acquire { r with snap := { r.snap with atten := l } } ds k = acquire r ds k)

/-- A conversion with a legal snapshot averages 1 to 255 draws. `Average` is the integer mean rounded toward
zero; its sum fits 20 bits, one sample is its own average, and the average stays in the native range
(R105; the rounding is the spec's own decision D32). -/
def Obligations.AverageIsTheTruncatedMean : Prop :=
  (∀ (r : BusRec) (ds : List RawSample) (k : Nat), r.snap.Legal →
    1 ≤ (acquire r ds k).length ∧ (acquire r ds k).length ≤ 255) ∧
  ∀ xs : List Nat, xs ≠ [] →
    (xs.length * average xs ≤ xs.sum ∧ xs.sum < xs.length * (average xs + 1)) ∧
    (xs.length ≤ 255 → (∀ x ∈ xs, x ≤ 4095) → xs.sum ≤ 1044225 ∧ xs.sum < 2 ^ 20) ∧
    (∀ x, xs = [x] → average xs = x) ∧
    (∀ w, (∀ x ∈ xs, x ≤ 2 ^ w - 1) → average xs ≤ 2 ^ w - 1)

/-- `Rescale` (R106): pass through at the native width, else a right shift that discards the low bits or a
left shift that fills with zeros; at most 16 bits. And the laws that the spec infers from it (R109, its own
inference): identity, the shift law for every `k` with both of its readings, and monotonicity. The laws are
stated for every width and resolution: outside 9 to 12 and 1 to 16, as at resolution 0 (`k = w`), they
speak of the model's extension of `Rescale` beyond R106 (log entry 16). -/
def Obligations.RescaleLaws : Prop :=
  (∀ v w r, v ≤ 2 ^ w - 1 → 9 ≤ w → w ≤ 12 → 1 ≤ r → r ≤ 16 →
    (r = w → rescale v w r = v) ∧
    (r < w → rescale v w r = v / 2 ^ (w - r)) ∧
    (w < r → rescale v w r = v * 2 ^ (r - w)) ∧ rescale v w r < 2 ^ 16) ∧
  (∀ v w, rescale v w w = v) ∧
  (∀ a w k, k ≤ w →
    rescale a w w >>> k = rescale a w (w - k) ∧
    rescale a w (w - k) <<< k = rescale a w w - rescale a w w % 2 ^ k) ∧
  (∀ v v' w r, v ≤ v' → rescale v w r ≤ rescale v' w r)

/-- A conversion with a legal snapshot reports a code below `2^resolution`: the 16-bit register truncates
nothing, and a resolution above the native width leaves the low bits zero (R108). -/
def Obligations.ResultFitsTheResolution : Prop :=
  ∀ (r : BusRec) (ds : List RawSample) (k : Nat), r.snap.Legal →
    (convert r.snap (acquire r ds k)).toNat =
      rescale (average (acquire r ds k)) r.snap.width.toNat r.snap.res.toNat ∧
    (convert r.snap (acquire r ds k)).toNat ≤ 2 ^ r.snap.res.toNat - 1 ∧
    (r.snap.width.toNat < r.snap.res.toNat →
      (convert r.snap (acquire r ds k)).toNat % 2 ^ (r.snap.res.toNat - r.snap.width.toNat) = 0)

/-- Of the snapshot only `samples`, `width` and `res` enter the reported code: given the same draws,
cycles, divider, attenuation, the Hall mark and the owner change nothing (R110). -/
def Obligations.ResultIgnoresTheOtherLatchedFields : Prop :=
  ∀ (r q : BusRec) (ds : List RawSample) (k m : Nat),
    r.snap.samples = q.snap.samples → r.snap.width = q.snap.width → r.snap.res = q.snap.res →
    r.snap.samples.toNat ≤ ds.length →
    convert r.snap (acquire r ds k) = convert q.snap (acquire q ds m)

/-! ### The attenuation table -/

/-- The level in force for a pin is its own level if set, else the global default (R73). It is what a claim
latches for the pin, and what GETATTEN answers, with no other change of state. -/
def Obligations.LookupPrefersTheOverride : Prop :=
  ∀ (s : State) (p : Pin),
    ((s.pin p).ovrValid = true → s.lookup p = (s.pin p).ovrLevel) ∧
    ((s.pin p).ovrValid = false → s.lookup p = s.cfg.gatten) ∧
    (∀ b h, s.pinMap p = some b → ((s.claim b p h).bus b).snap.atten = s.lookup p) ∧
    (s.validPin p → exec (.getAtten p) s =
      .next { s with seq := .idle, rsp := some ⟨.ok, (s.lookup p).code.setWidth 32⟩ })

/-- SETATTEN writes the global default and nothing else, and always answers `(OK, 0)`: every pin without
an override then follows it and every pin with one does not (R74). -/
def Obligations.SetAttenWritesTheDefault : Prop :=
  ∀ (s : State) (l : Level), ∃ t, exec (.setAtten l) s = .next t ∧
    t = { s with cfg := { s.cfg with gatten := l }, seq := .idle, rsp := some ⟨.ok, 0⟩ } ∧
    (∀ p, (s.pin p).ovrValid = false → t.lookup p = l) ∧
    (∀ p, (s.pin p).ovrValid = true → t.lookup p = s.lookup p)

/-- SETPINATTEN of a valid pin attaches it, clears its other mode, stores the override and answers
`(OK, 0)`; every other pin, the configuration, the bus records (and so the snapshots of conversions in
flight) are as before (R75). -/
def Obligations.SetPinAttenOverridesOnePin : Prop :=
  ∀ (s : State) (p : Pin) (l : Level), s.validPin p →
    ∃ t, exec (.setPinAtten p l) s = .next t ∧ t.rsp = some ⟨.ok, 0⟩ ∧ t.seq = .idle ∧
      t.pin p = { attached := true, ovrValid := true, ovrLevel := l, altmode := false } ∧
      (∀ q, q ≠ p → t.pin q = s.pin q) ∧ t.lookup p = l ∧ t.cfg = s.cfg ∧ t.buses = s.buses ∧
      s.OutsideKept t

/-- GETATTEN of a valid pin answers the level in force, zero-extended, and changes nothing; the pin need
not be attached (R76). -/
def Obligations.GetAttenReadsTheLevel : Prop :=
  ∀ (s : State) (p : Pin), s.validPin p →
    ∃ v, exec (.getAtten p) s = .next { s with seq := .idle, rsp := some ⟨.ok, v⟩ } ∧
      v.toNat = (s.lookup p).code.toNat

/-! ### The sampling-parameter register file -/

/-- A setter with an operand of its range writes exactly that value to its register and nothing else, and
answers `(OK, 0)` (R79, R80, R81 to R85). -/
def Obligations.SettersWriteLegalOperands : Prop :=
  ∀ (s : State) (v : Imm),
    (1 ≤ v.toNat ∧ v.toNat ≤ 16 → ∃ x, x.toNat = v.toNat ∧ exec (.setRes v) s = .next
      { s with cfg := { s.cfg with res := x }, seq := .idle, rsp := some ⟨.ok, 0⟩ }) ∧
    (9 ≤ v.toNat ∧ v.toNat ≤ 12 → ∃ x, x.toNat = v.toNat ∧ exec (.setWidth v) s = .next
      { s with cfg := { s.cfg with width := x }, seq := .idle, rsp := some ⟨.ok, 0⟩ }) ∧
    (1 ≤ v.toNat ∧ v.toNat ≤ 255 → ∃ x, x.toNat = v.toNat ∧ exec (.setCycles v) s = .next
      { s with cfg := { s.cfg with cycles := x }, seq := .idle, rsp := some ⟨.ok, 0⟩ }) ∧
    (1 ≤ v.toNat ∧ v.toNat ≤ 255 → ∃ x, x.toNat = v.toNat ∧ exec (.setSamples v) s = .next
      { s with cfg := { s.cfg with samples := x }, seq := .idle, rsp := some ⟨.ok, 0⟩ }) ∧
    (1 ≤ v.toNat ∧ v.toNat ≤ 255 → ∃ x, x.toNat = v.toNat ∧ exec (.setClkDiv v) s = .next
      { s with cfg := { s.cfg with clkdiv := x }, seq := .idle, rsp := some ⟨.ok, 0⟩ })

/-- Under REJECT a setter with an operand outside its range leaves its register, and everything else,
unchanged and answers `(InvalidConfig, 0)` (R80, R124). -/
def Obligations.RejectingSettersChangeNothing : Prop :=
  ∀ (s : State) (v : Imm), s.platform.range = .reject →
    (¬ (1 ≤ v.toNat ∧ v.toNat ≤ 16) → exec (.setRes v) s =
      .next { s with seq := .idle, rsp := some ⟨.invalidConfig, 0⟩ }) ∧
    (¬ (9 ≤ v.toNat ∧ v.toNat ≤ 12) → exec (.setWidth v) s =
      .next { s with seq := .idle, rsp := some ⟨.invalidConfig, 0⟩ }) ∧
    (¬ (1 ≤ v.toNat ∧ v.toNat ≤ 255) → ∀ i ∈ [Instr.setCycles v, .setSamples v, .setClkDiv v],
      exec i s = .next { s with seq := .idle, rsp := some ⟨.invalidConfig, 0⟩ })

/-- Under CLAMP a setter with an operand outside its range writes the nearer bound to its register and
nothing else, and answers `(OK, 0)` (R80). -/
def Obligations.ClampingSettersWriteTheBound : Prop :=
  ∀ (s : State) (v : Imm), s.platform.range = .clamp →
    (v.toNat < 1 → exec (.setRes v) s = .next
      { s with cfg := { s.cfg with res := 1 }, seq := .idle, rsp := some ⟨.ok, 0⟩ }) ∧
    (16 < v.toNat → exec (.setRes v) s = .next
      { s with cfg := { s.cfg with res := 16 }, seq := .idle, rsp := some ⟨.ok, 0⟩ }) ∧
    (v.toNat < 9 → exec (.setWidth v) s = .next
      { s with cfg := { s.cfg with width := 9 }, seq := .idle, rsp := some ⟨.ok, 0⟩ }) ∧
    (12 < v.toNat → exec (.setWidth v) s = .next
      { s with cfg := { s.cfg with width := 12 }, seq := .idle, rsp := some ⟨.ok, 0⟩ }) ∧
    (v.toNat < 1 → exec (.setCycles v) s = .next
      { s with cfg := { s.cfg with cycles := 1 }, seq := .idle, rsp := some ⟨.ok, 0⟩ }) ∧
    (255 < v.toNat → exec (.setCycles v) s = .next
      { s with cfg := { s.cfg with cycles := 255 }, seq := .idle, rsp := some ⟨.ok, 0⟩ }) ∧
    (v.toNat < 1 → exec (.setSamples v) s = .next
      { s with cfg := { s.cfg with samples := 1 }, seq := .idle, rsp := some ⟨.ok, 0⟩ }) ∧
    (255 < v.toNat → exec (.setSamples v) s = .next
      { s with cfg := { s.cfg with samples := 255 }, seq := .idle, rsp := some ⟨.ok, 0⟩ }) ∧
    (v.toNat < 1 → exec (.setClkDiv v) s = .next
      { s with cfg := { s.cfg with clkdiv := 1 }, seq := .idle, rsp := some ⟨.ok, 0⟩ }) ∧
    (255 < v.toNat → exec (.setClkDiv v) s = .next
      { s with cfg := { s.cfg with clkdiv := 255 }, seq := .idle, rsp := some ⟨.ok, 0⟩ })

/-- GETCFG answers the register its number names, zero-extended, and changes nothing (R86, R61). -/
def Obligations.GetCfgReadsTheRegister : Prop :=
  ∀ (s : State) (idx : BitVec 3), idx.toNat ≤ 5 →
    ∃ v, exec (.getCfg idx) s = .next { s with seq := .idle, rsp := some ⟨.ok, v⟩ } ∧
      (idx = 0 → v.toNat = s.cfg.res.toNat) ∧ (idx = 1 → v.toNat = s.cfg.width.toNat) ∧
      (idx = 2 → v.toNat = s.cfg.cycles.toNat) ∧ (idx = 3 → v.toNat = s.cfg.samples.toNat) ∧
      (idx = 4 → v.toNat = s.cfg.clkdiv.toNat) ∧ (idx = 5 → v.toNat = s.cfg.gatten.code.toNat)

/-- A conversion in flight is unaffected by configuration: after any setter, the bus records are as they
were, and the engine's step latches the code it would have latched before (R51, R77, R110). Both runs have the
same draws; that unlisted draws are the same is the model's choice (log entry 5). -/
def Obligations.SettersLeaveConversionsAlone : Prop :=
  ∀ (s t : State) (v : Imm) (l : Level) (p : Pin) (i : Instr) (b : Nat) (ds : List RawSample),
    i ∈ [.setRes v, .setWidth v, .setCycles v, .setSamples v, .setClkDiv v, .setAtten l,
      .setPinAtten p l] → exec i s = .next t →
    t.buses = s.buses ∧ (complete b ds t).bus b = (complete b ds s).bus b

/-! ### The bus arbiter and the conversion state machine -/

/-- Every command that takes a pin answers `(InvalidPin, 0)` for an invalid one and changes nothing
(R121). -/
def Obligations.InvalidPinIsRefused : Prop :=
  ∀ (s : State) (p : Pin) (l : Level) (i : Instr), s.pinMap p = none →
    i ∈ [.read p, .setPinAtten p l, .getAtten p, .attach p, .start p, .busy p, .endConv p] →
    exec i s = .next { s with seq := .idle, rsp := some ⟨.invalidPin, 0⟩ }

/-- ATTACH of a valid pin marks it attached, clears its other mode and answers `(OK, 1)`; it touches no
bus record and no other pin, and a pin that was attached keeps its state (R89). -/
def Obligations.AttachMarksThePin : Prop :=
  ∀ (s : State) (p : Pin), s.validPin p →
    ∃ t, exec (.attach p) s = .next t ∧ t.rsp = some ⟨.ok, 1⟩ ∧ t.seq = .idle ∧
      t.pin p = { s.pin p with attached := true, altmode := false } ∧
      (∀ q, q ≠ p → t.pin q = s.pin q) ∧ t.cfg = s.cfg ∧ t.buses = s.buses ∧ s.OutsideKept t ∧
      (s.pinState p ≠ some .unattached → t.pinState p = s.pinState p) ∧
      (∀ q, q ≠ p → t.pinState q = s.pinState q)

/-- When a bus is free for a pin, under each policy; a bus still converting is free for no pin, and a bus
that a pin owns is not free for that pin (R90). -/
def Obligations.BusFreeRule : Prop :=
  ∀ (s : State) (b : Nat) (p : Pin),
    (s.platform.unread = .hold → (s.busFree b p = true ↔ (s.bus b).busy = false)) ∧
    (s.platform.unread = .evict → (s.busFree b p = true ↔
      (s.bus b).busy = false ∨ ((s.bus b).done = true ∧ (s.bus b).owner ≠ p))) ∧
    ((s.bus b).busy = true → (s.bus b).done = false → s.busFree b p = false) ∧
    ((s.bus b).busy = true → (s.bus b).owner = p → s.busFree b p = false)

/-- START of an attached pin whose bus is free claims the bus: busy, owned, not done, its old result
kept, the configuration and the level in force latched; the pin is RUNNING and the answer is `(OK, 1)`
(R91, R92). Everything else is as before. -/
def Obligations.StartClaimsAFreeBus : Prop :=
  ∀ (s : State) (p : Pin) (b : Nat), s.pinMap p = some b → s.busFree b p = true →
    (s.pin p).attached = true →
    ∃ t, exec (.start p) s = .next t ∧ t.rsp = some ⟨.ok, 1⟩ ∧ t.seq = .idle ∧
      t.bus b = {
        busy := true, owner := p, done := false, result := (s.bus b).result,
        snap := {
          res := s.cfg.res, width := s.cfg.width, cycles := s.cfg.cycles,
          samples := s.cfg.samples, clkdiv := s.cfg.clkdiv,
          atten := s.lookup p, hall := false } } ∧
      (∀ c, c ≠ b → t.bus c = s.bus c) ∧ t.pins = s.pins ∧ t.cfg = s.cfg ∧ s.OutsideKept t ∧
      t.pinState p = some .running ∧ t.converting b = true

/-- START of a valid pin fails with `BusBusy` where the bus is not free, attached or not, and with
`NotAttached` where it is free and the pin unattached; a failed START changes nothing (R91, R127). -/
def Obligations.StartIsRefused : Prop :=
  ∀ (s : State) (p : Pin) (b : Nat), s.pinMap p = some b →
    (s.busFree b p = false →
      exec (.start p) s = .next { s with seq := .idle, rsp := some ⟨.busBusy, 0⟩ }) ∧
    (s.busFree b p = true → (s.pin p).attached = false →
      exec (.start p) s = .next { s with seq := .idle, rsp := some ⟨.notAttached, 0⟩ })

/-- BUSY of a valid pin answers 1 while the pin's own conversion is running and 0 in its three other
states, and changes nothing (R93). -/
def Obligations.BusyReportsRunning : Prop :=
  ∀ (s : State) (p : Pin), s.validPin p →
    ∃ v, exec (.busy p) s = .next { s with seq := .idle, rsp := some ⟨.ok, v⟩ } ∧
      (s.pinState p = some .running → v = 1) ∧
      (s.pinState p = some .unattached ∨ s.pinState p = some .idle ∨ s.pinState p = some .done →
        v = 0)

/-- END of a valid pin: an attached pin's END enters the wait with no response and no other change; an
unattached pin's answers `(NotAttached, 0)` and changes nothing (R94). -/
def Obligations.EndWaitsForThePin : Prop :=
  ∀ (s : State) (p : Pin), s.validPin p →
    ((s.pin p).attached = true →
      exec (.endConv p) s = .next { s with seq := .wait p, rsp := none }) ∧
    ((s.pin p).attached = false →
      exec (.endConv p) s = .next { s with seq := .idle, rsp := some ⟨.notAttached, 0⟩ })

/-- END of a DONE pin, and the host's next turn, deliver the result and release the bus for any pin; the
pin is IDLE (R94, R95, R96). Nothing else changes. -/
def Obligations.EndDeliversTheResult : Prop :=
  ∀ (s : State) (p : Pin) (b : Nat), s.pinMap p = some b → s.pinState p = some .done →
    s.nextTurn = .host →
    ∃ t u, exec (.endConv p) s = .next t ∧ t.seq = .wait p ∧ step t = .next u ∧
      u.rsp = some ⟨.ok, (s.bus b).result.setWidth 32⟩ ∧ u.seq = .idle ∧
      u.bus b = { s.bus b with busy := false, done := false } ∧
      (∀ c, c ≠ b → u.bus c = s.bus c) ∧ u.pinState p = some .idle ∧
      (∀ q, u.busFree b q = true) ∧ u.pins = s.pins ∧ u.cfg = s.cfg ∧ u.platform = s.platform ∧
      u.nbus = s.nbus ∧ u.commands = s.commands ∧ u.turns = s.turns.tail ∧ u.drawn = s.drawn

/-- Fairness and what follows from it (R12, R103, R151, the spec's own decision D12). END of a RUNNING pin
responds once its conversion agent and then the host have moved, whatever the environment draws, with the
code the engine latched. In the machine's own order (any turns listed, then its fair order: log entries 4
and 15) every enabled `Complete(b)` and every enabled resume step fires, and every END of a RUNNING or DONE
pin, every READ that claims its bus and every HALLREAD that passes its check responds, each within a bound.
And each such command responds after finitely many steps in every weakly fair order without a reset. -/
def Obligations.EnabledStepsFireAndBlockingCommandsRespond : Prop :=
  (∀ (s : State) (p : Pin) (b : Nat) (ds : List RawSample) (rest : List Turn),
    s.pinMap p = some b → s.pinState p = some .running →
    s.turns = .engine b ds :: .host :: rest →
    ∃ t u, exec (.endConv p) s = .next t ∧ Host.Core.run Sys2Proof.core 2 t = .next u ∧
      u.rsp = some ⟨.ok,
        (convert (s.bus b).snap (acquire (s.bus b) ds s.drawn)).setWidth 32⟩ ∧
      u.seq = .idle ∧ u.pinState p = some .idle ∧ (u.bus b).busy = false ∧ u.turns = rest) ∧
  (∀ (s : State) (b : Nat), s.converting b = true → (∀ x ∈ s.turns, x ≠ .reset) →
    ∃ k t ds, k ≤ s.turns.length + b ∧ Host.Core.run Sys2Proof.core k s = .next t ∧
      t.converting b = true ∧ t.nextTurn = .engine b ds) ∧
  (∀ (s : State) (p : Pin), s.awaited = some p → s.pinState p = some .done →
    (∀ x ∈ s.turns, x ≠ .reset) →
    ∃ k t, k ≤ s.turns.length + s.nbus ∧ Host.Core.run Sys2Proof.core k s = .next t ∧
      t.awaited = some p ∧ t.pinState p = some .done ∧ t.nextTurn = .host) ∧
  (∀ (i : Instr) (s t : State), s.Inv → exec i s = .next t → t.PortHeld →
    (∀ p, i = .endConv p → s.Owns p) →
    ((∀ x ∈ s.turns, x ≠ .reset) →
      ∃ k u v, k ≤ s.turns.length + s.nbus + 3 ∧ Host.Core.run Sys2Proof.core k t = .next u ∧
        u.rsp = some ⟨.ok, v⟩ ∧ u.seq = .idle ∧ u.commands = s.commands) ∧
    (∀ σ : Nat → Turn, (∀ n, σ n ≠ .reset) → t.WeaklyFair σ →
      ∃ n v, (t.along σ (n + 1)).rsp = some ⟨.ok, v⟩ ∧ (t.along σ (n + 1)).seq = .idle ∧
        (t.along σ (n + 1)).commands = s.commands))

/-- `Resume` for `WAIT(p)` (R95): with the pin DONE the host's turn responds with the result, releases the
bus for any pin and leaves the pin IDLE, and changes nothing else; while it is not DONE the turn changes
nothing; and only the agent of a RUNNING pin's bus can make it DONE. -/
def Obligations.ResumeRespondsWhenDone : Prop :=
  (∀ (s : State) (p : Pin) (b : Nat), s.nextTurn = .host → s.seq = .wait p → s.pinMap p = some b →
    s.pinState p = some .done →
    ∃ t, step s = .next t ∧ t.rsp = some ⟨.ok, (s.bus b).result.setWidth 32⟩ ∧ t.seq = .idle ∧
      t.bus b = { s.bus b with busy := false, done := false } ∧
      (∀ c, c ≠ b → t.bus c = s.bus c) ∧ t.pinState p = some .idle ∧
      (∀ q, t.busFree b q = true) ∧ t.pins = s.pins ∧ t.cfg = s.cfg ∧ t.platform = s.platform ∧
      t.nbus = s.nbus ∧ t.commands = s.commands ∧ t.turns = s.turns.tail ∧ t.drawn = s.drawn) ∧
  (∀ (s : State) (p : Pin), s.nextTurn = .host → s.seq = .wait p → s.pinState p ≠ some .done →
    step s = .next { s with rsp := none, turns := s.turns.tail }) ∧
  (∀ (s t : State) (p : Pin), s.Inv → s.pinState p ≠ some .done → step s = .next t →
    t.pinState p = some .done →
    s.pinState p = some .running ∧ ∃ b ds, s.pinMap p = some b ∧ s.nextTurn = .engine b ds)

/-- END of an attached pin with no conversion running or done (R141, the spec's own decision D31): it never
responds. In any number of steps without a reset nothing is answered, no command is accepted and the port
still waits, stuck; and the reset input frees it. -/
def Obligations.StuckPortStaysStuck : Prop :=
  ∀ (k : Nat) (s : State) (p : Pin), s.pinState p = some .idle → (∀ x ∈ s.turns, x ≠ .reset) →
    ∃ t u, exec (.endConv p) s = .next t ∧ Host.Core.run Sys2Proof.core k t = .next u ∧
      u.seq = .wait p ∧ u.pinState p = some .idle ∧ u.PortStuck ∧ u.commands = s.commands ∧
      u.rsp = none ∧
      ∃ v, step { u with turns := .reset :: u.turns } = .next v ∧ v.seq = .idle

/-- Under EVICT a START evicts another pin's unread result: the evicted pin is IDLE, BUSY of it answers 0
before and after, and an END of it leaves the port stuck (R101, R147). -/
def Obligations.EvictionLosesTheResult : Prop :=
  ∀ (s : State) (p q : Pin) (b : Nat), s.platform.unread = .evict → s.pinMap p = some b →
    s.pinMap q = some b → p ≠ q → s.pinState p = some .done → (s.pin q).attached = true →
    ∃ t, exec (.start q) s = .next t ∧ t.rsp = some ⟨.ok, 1⟩ ∧ t.pinState q = some .running ∧
      t.pinState p = some .idle ∧
      exec (.busy p) s = .next { s with seq := .idle, rsp := some ⟨.ok, 0⟩ } ∧
      exec (.busy p) t = .next { t with seq := .idle, rsp := some ⟨.ok, 0⟩ } ∧
      ∃ u, exec (.endConv p) t = .next u ∧ u.PortStuck

/-! ### The compound commands -/

/-- READ of a valid pin whose bus is free attaches the pin, claims the bus for it and waits: the effect
of ATTACH, START and END without a response between (R111). -/
def Obligations.ReadAttachesAndClaims : Prop :=
  ∀ (s : State) (p : Pin) (b : Nat), s.pinMap p = some b → s.busFree b p = true →
    ∃ t, exec (.read p) s = .next t ∧ t.rsp = none ∧ t.seq = .wait p ∧
      t.pin p = { s.pin p with attached := true, altmode := false } ∧
      (∀ q, q ≠ p → t.pin q = s.pin q) ∧
      t.bus b = {
        busy := true, owner := p, done := false, result := (s.bus b).result,
        snap := {
          res := s.cfg.res, width := s.cfg.width, cycles := s.cfg.cycles,
          samples := s.cfg.samples, clkdiv := s.cfg.clkdiv,
          atten := s.lookup p, hall := false } } ∧
      (∀ c, c ≠ b → t.bus c = s.bus c) ∧ t.cfg = s.cfg ∧ s.OutsideKept t ∧
      t.pinState p = some .running

/-- A READ answered `BusBusy` has attached its pin and cleared its other mode, and has done nothing else;
a READ answered `InvalidPin` has done nothing (R112). -/
def Obligations.FailedReadKeepsTheAttach : Prop :=
  ∀ (s : State) (p : Pin),
    (∀ b, s.pinMap p = some b → s.busFree b p = false →
      ∃ t, exec (.read p) s = .next t ∧ t.rsp = some ⟨.busBusy, 0⟩ ∧ t.seq = .idle ∧
        t.pin p = { s.pin p with attached := true, altmode := false } ∧
        (∀ q, q ≠ p → t.pin q = s.pin q) ∧ t.buses = s.buses ∧ t.cfg = s.cfg ∧
        s.OutsideKept t) ∧
    (s.pinMap p = none →
      exec (.read p) s = .next { s with seq := .idle, rsp := some ⟨.invalidPin, 0⟩ })

/-- A READ that claims its bus delivers the rescaled mean of the listed draws, at the width and resolution
in force when it was issued, once the bus's agent and the host have moved; the pin is attached and IDLE
and its bus free (R111, R107, R95). -/
def Obligations.ReadDeliversTheConversion : Prop :=
  ∀ (s : State) (p : Pin) (b : Nat) (ds : List RawSample) (rest : List Turn),
    s.pinMap p = some b → s.busFree b p = true → s.cfg.Legal →
    ds.length = s.cfg.samples.toNat → (∀ x ∈ ds, x.toNat < 2 ^ s.cfg.width.toNat) →
    s.turns = .engine b ds :: .host :: rest →
    ∃ t u v, exec (.read p) s = .next t ∧ Host.Core.run Sys2Proof.core 2 t = .next u ∧
      u.rsp = some ⟨.ok, v⟩ ∧
      v.toNat = rescale ((ds.map BitVec.toNat).sum / s.cfg.samples.toNat) s.cfg.width.toNat
        s.cfg.res.toNat ∧
      v.toNat ≤ 2 ^ s.cfg.res.toNat - 1 ∧
      u.seq = .idle ∧ (u.pin p).attached = true ∧ u.pinState p = some .idle ∧
      (u.bus b).busy = false ∧ (u.bus b).done = false ∧ (∀ c, c ≠ b → u.bus c = s.bus c) ∧
      u.cfg = s.cfg

/-- HALLREAD with both Hall pins' buses free attaches both pins, claims the first bus with the Hall mark
and waits (R113). Everything else is as before. -/
def Obligations.HallReadClaimsTheFirstPin : Prop :=
  ∀ (s : State) (bP bN : Nat),
    s.pinMap s.platform.hallP = some bP → s.pinMap s.platform.hallN = some bN →
    s.busFree bP s.platform.hallP = true → s.busFree bN s.platform.hallN = true →
    s.platform.hallP ≠ s.platform.hallN →
    ∃ t, exec .hallRead s = .next t ∧ t.rsp = none ∧ t.seq = .hallWaitP ∧
      t.pin s.platform.hallP =
        { s.pin s.platform.hallP with attached := true, altmode := false } ∧
      t.pin s.platform.hallN =
        { s.pin s.platform.hallN with attached := true, altmode := false } ∧
      (∀ q, q ≠ s.platform.hallP → q ≠ s.platform.hallN → t.pin q = s.pin q) ∧
      t.bus bP = {
        busy := true, owner := s.platform.hallP, done := false, result := (s.bus bP).result,
        snap := {
          res := s.cfg.res, width := s.cfg.width, cycles := s.cfg.cycles,
          samples := s.cfg.samples, clkdiv := s.cfg.clkdiv,
          atten := s.lookup s.platform.hallP, hall := true } } ∧
      (∀ c, c ≠ bP → t.bus c = s.bus c) ∧ t.cfg = s.cfg ∧ s.OutsideKept t ∧
      t.pinState s.platform.hallP = some .running

/-- HALLREAD with a Hall pin's bus not free answers `(BusBusy, 0)` and changes nothing (R113, R146). -/
def Obligations.HallReadIsRefused : Prop :=
  ∀ (s : State) (bP bN : Nat),
    s.pinMap s.platform.hallP = some bP → s.pinMap s.platform.hallN = some bN →
    (s.busFree bP s.platform.hallP = false ∨ s.busFree bN s.platform.hallN = false) →
    exec .hallRead s = .next { s with seq := .idle, rsp := some ⟨.busBusy, 0⟩ }

/-- `HallResumeP` (R114): with the first Hall conversion done, the host's turn takes its value, releases
its bus, claims the second conversion with the Hall mark and waits for it with no response. In a state of
the invariant the second bus was free for it. While the first is not done the turn changes nothing. -/
def Obligations.HallResumePClaimsTheSecondPin : Prop :=
  (∀ (s : State) (bP bN : Nat), s.nextTurn = .host → s.seq = .hallWaitP →
    s.pinMap s.platform.hallP = some bP → s.pinMap s.platform.hallN = some bN →
    s.pinState s.platform.hallP = some .done →
    (s.Inv → (s.release bP).busFree bN s.platform.hallN = true) ∧
    ∃ t, step s = .next t ∧ t.rsp = none ∧ t.seq = .hallWaitN (s.bus bP).result ∧
      t.bus bN = {
        busy := true, owner := s.platform.hallN, done := false, result := (s.bus bN).result,
        snap := {
          res := s.cfg.res, width := s.cfg.width, cycles := s.cfg.cycles,
          samples := s.cfg.samples, clkdiv := s.cfg.clkdiv,
          atten := s.lookup s.platform.hallN, hall := true } } ∧
      (bP ≠ bN → t.bus bP = { s.bus bP with busy := false, done := false }) ∧
      (∀ c, c ≠ bP → c ≠ bN → t.bus c = s.bus c) ∧ t.pins = s.pins ∧ t.cfg = s.cfg ∧
      t.platform = s.platform ∧ t.nbus = s.nbus ∧ t.commands = s.commands ∧
      t.turns = s.turns.tail ∧ t.drawn = s.drawn) ∧
  (∀ s : State, s.nextTurn = .host → s.seq = .hallWaitP →
    s.pinState s.platform.hallP ≠ some .done →
    step s = .next { s with rsp := none, turns := s.turns.tail })

/-- `HallResumeN` (R115): with the second Hall conversion done, the host's turn releases its bus and
responds with the combination of the two values; nothing else changes. While it is not done the turn
changes nothing. -/
def Obligations.HallResumeNCombinesTheValues : Prop :=
  (∀ (s : State) (vP : Code) (bN : Nat), s.nextTurn = .host → s.seq = .hallWaitN vP →
    s.pinMap s.platform.hallN = some bN → s.pinState s.platform.hallN = some .done →
    ∃ t, step s = .next t ∧
      t.rsp = some ⟨.ok, hallCombine s.platform.hall vP (s.bus bN).result⟩ ∧ t.seq = .idle ∧
      t.bus bN = { s.bus bN with busy := false, done := false } ∧
      (∀ c, c ≠ bN → t.bus c = s.bus c) ∧ t.pinState s.platform.hallN = some .idle ∧
      t.pins = s.pins ∧ t.cfg = s.cfg ∧ t.platform = s.platform ∧ t.nbus = s.nbus ∧
      t.commands = s.commands ∧ t.turns = s.turns.tail ∧ t.drawn = s.drawn) ∧
  (∀ (s : State) (vP : Code), s.nextTurn = .host → s.seq = .hallWaitN vP →
    s.pinState s.platform.hallN ≠ some .done →
    step s = .next { s with rsp := none, turns := s.turns.tail })

/-- With the default formula the reading is the signed difference of the two values, exact in 32 bits
(R7, R115); for two values of `r` bits it lies in `-(2^r - 1) .. 2^r - 1` (R118). -/
def Obligations.HallDifferenceIsExact : Prop :=
  (∀ vP vN : Code, (hallCombine .difference vP vN).toInt = (vP.toNat : Int) - vN.toNat) ∧
  (∀ (vP vN : Code) (r : Nat), vP.toNat ≤ 2 ^ r - 1 → vN.toNat ≤ 2 ^ r - 1 →
    -(2 ^ r - 1 : Int) ≤ (hallCombine .difference vP vN).toInt ∧
    (hallCombine .difference vP vN).toInt ≤ 2 ^ r - 1)

/-- A HALLREAD whose check passes answers after four further turns, the agents of its two buses and the
host after each: the value is the difference of the two conversions of the listed draws, first `HALL_P`'s
and then `HALL_N`'s, a function of the draws and the configuration alone, and lies in
`-(2^r - 1) .. 2^r - 1` for the resolution `r` in force; both pins end IDLE and both buses free (R113 to
R118). -/
def Obligations.HallReadDeliversTheDifference : Prop :=
  ∀ (s : State) (bP bN : Nat) (dP dN : List RawSample) (rest : List Turn),
    s.pinMap s.platform.hallP = some bP → s.pinMap s.platform.hallN = some bN →
    s.busFree bP s.platform.hallP = true → s.busFree bN s.platform.hallN = true →
    s.platform.hallP ≠ s.platform.hallN → s.platform.hall = .difference → s.cfg.Legal →
    dP.length = s.cfg.samples.toNat → dN.length = s.cfg.samples.toNat →
    (∀ x ∈ dP, x.toNat < 2 ^ s.cfg.width.toNat) → (∀ x ∈ dN, x.toNat < 2 ^ s.cfg.width.toNat) →
    s.turns = .engine bP dP :: .host :: .engine bN dN :: .host :: rest →
    ∃ t u v, exec .hallRead s = .next t ∧ Host.Core.run Sys2Proof.core 4 t = .next u ∧
      u.rsp = some ⟨.ok, v⟩ ∧
      v.toInt =
        (rescale ((dP.map BitVec.toNat).sum / s.cfg.samples.toNat) s.cfg.width.toNat
          s.cfg.res.toNat : Int) -
        (rescale ((dN.map BitVec.toNat).sum / s.cfg.samples.toNat) s.cfg.width.toNat
          s.cfg.res.toNat : Int) ∧
      -(2 ^ s.cfg.res.toNat - 1 : Int) ≤ v.toInt ∧ v.toInt ≤ 2 ^ s.cfg.res.toNat - 1 ∧
      u.seq = .idle ∧ u.pinState s.platform.hallP = some .idle ∧
      u.pinState s.platform.hallN = some .idle ∧
      (u.bus bP).busy = false ∧ (u.bus bN).busy = false ∧ u.cfg = s.cfg
end

