-- ==== Sys2Proof/Laws/Decode.lean ====
section
/-! SUPPORT. The three fields of a command word (R55): a word is its fields, and each field reads back. -/

namespace Sys2Proof

/-- Bit by bit, a word built from its fields. -/
theorem cmdWord_getLsbD (o : BitVec 8) (p : Pin) (i : Imm) (j : Nat) :
    (cmdWord o p i).getLsbD j =
      if j < 16 then i.getLsbD j else if j < 24 then p.getLsbD (j - 16) else o.getLsbD (j - 24) := by
  have e : (cmdWord o p i).getLsbD j = ((o ++ p ++ i : BitVec (8 + 8 + 16))).getLsbD j := rfl
  rw [e, BitVec.getLsbD_append, BitVec.getLsbD_append]
  by_cases h : j < 16
  · simp [h]
  · by_cases h2 : j < 24
    · have : j - 16 < 8 := by omega
      simp [h, h2, this]
    · have : ¬ j - 16 < 8 := by omega
      simp [h, h2, this, show j - 16 - 8 = j - 24 by omega]

@[simp] theorem opField_cmdWord (o : BitVec 8) (p : Pin) (i : Imm) :
    opField (cmdWord o p i) = o := by
  apply BitVec.eq_of_getLsbD_eq
  intro j hj
  simp only [opField, BitVec.getLsbD_extractLsb', cmdWord_getLsbD]
  simp [hj, show ¬ 24 + j < 16 by omega]
@[simp] theorem pinField_cmdWord (o : BitVec 8) (p : Pin) (i : Imm) :
    pinField (cmdWord o p i) = p := by
  apply BitVec.eq_of_getLsbD_eq
  intro j hj
  simp only [pinField, BitVec.getLsbD_extractLsb', cmdWord_getLsbD]
  simp [hj, show 16 + j < 24 by omega]
@[simp] theorem immField_cmdWord (o : BitVec 8) (p : Pin) (i : Imm) :
    immField (cmdWord o p i) = i := by
  apply BitVec.eq_of_getLsbD_eq
  intro j hj
  simp only [immField, BitVec.getLsbD_extractLsb', cmdWord_getLsbD]
  simp [hj]

/-- A word is its three fields. -/
theorem cmdWord_fields (w : Word) : cmdWord (opField w) (pinField w) (immField w) = w := by
  apply BitVec.eq_of_getLsbD_eq
  intro j hj
  simp only [cmdWord_getLsbD, opField, pinField, immField, BitVec.getLsbD_extractLsb']
  split
  · simp_all
  · split
    · have : j - 16 < 8 := by omega
      simp only [this, decide_true, Bool.true_and]; congr 1; omega
    · have : j - 24 < 8 := by omega
      simp only [this, decide_true, Bool.true_and]; congr 1; omega

theorem cmdWord_and (o o' : BitVec 8) (p p' : Pin) (i i' : Imm) :
    cmdWord o p i &&& cmdWord o' p' i' = cmdWord (o &&& o') (p &&& p') (i &&& i') := by
  apply BitVec.eq_of_getLsbD_eq
  intro j hj
  simp only [BitVec.getLsbD_and, cmdWord_getLsbD]
  split
  · rfl
  · split <;> rfl

theorem cmdWord_inj {o o' : BitVec 8} {p p' : Pin} {i i' : Imm} :
    cmdWord o p i = cmdWord o' p' i' ↔ o = o' ∧ p = p' ∧ i = i' := by
  constructor
  · intro h
    exact ⟨by rw [← opField_cmdWord o p i, h, opField_cmdWord],
      by rw [← pinField_cmdWord o p i, h, pinField_cmdWord],
      by rw [← immField_cmdWord o p i, h, immField_cmdWord]⟩
  · rintro ⟨rfl, rfl, rfl⟩; rfl

/-- Masking a word masks its fields. -/
theorem word_and_eq (w m : Word) :
    w &&& m = cmdWord (opField w &&& opField m) (pinField w &&& pinField m)
      (immField w &&& immField m) := by
  conv_lhs => rw [← cmdWord_fields w, ← cmdWord_fields m, cmdWord_and]

/-- The operand fields of formats L and PL are low bits of the immediate. -/
theorem levelField_eq (w : Word) : levelField w = Level.ofCode ((immField w).extractLsb' 0 2) := by
  unfold levelField; congr 1
  apply BitVec.eq_of_getLsbD_eq
  intro j hj
  simp only [immField, BitVec.getLsbD_extractLsb']
  simp [show j < 16 by omega]
theorem idxField_eq (w : Word) : idxField w = (immField w).extractLsb' 0 3 := by
  apply BitVec.eq_of_getLsbD_eq
  intro j hj
  simp only [idxField, immField, BitVec.getLsbD_extractLsb']
  simp [show j < 16 by omega]

@[simp] theorem Level.ofCode_code (l : Level) : Level.ofCode l.code = l := by cases l <;> rfl
@[simp] theorem Level.code_ofCode (c : BitVec 2) : (Level.ofCode c).code = c := by
  revert c; decide

/-! ### The fields of an encoded command -/

@[simp] theorem opField_encode (i : Instr) : opField (encode i) = i.opcode := opField_cmdWord _ _ _
@[simp] theorem pinField_encode (i : Instr) : pinField (encode i) = i.pinOperand :=
  pinField_cmdWord _ _ _
@[simp] theorem immField_encode (i : Instr) : immField (encode i) = i.immOperand :=
  immField_cmdWord _ _ _

/-- The decoding procedure once the row is found (R65, steps 2 to 4). -/
theorem decode_of_row {w : Word} {r : OpRow} (h : rowOf (opField w) = some r) :
    decode w = if w &&& r.mask ≠ r.pattern then .error .reservedField
      else if (r.build w).wf then .ok (r.build w) else .error .reservedRegister := by
  simp [decode, h]

/-- A row that is found is a row of the table, and has the opcode looked for. -/
theorem rowOf_some {op : BitVec 8} {r : OpRow} (h : rowOf op = some r) :
    r ∈ opTable ∧ opField r.pattern = op := by
  unfold rowOf at h
  exact ⟨List.mem_of_find?_eq_some h, by simpa using List.find?_some h⟩

/-- What decoding to a command says: the row, its mask, its operands. -/
theorem decode_ok {w : Word} {i : Instr} (h : decode w = .ok i) :
    ∃ r, rowOf (opField w) = some r ∧ w &&& r.mask = r.pattern ∧ i = r.build w ∧ i.wf = true := by
  cases hr : rowOf (opField w) with
  | none => simp [decode, hr] at h
  | some r =>
    rw [decode_of_row hr] at h
    split at h
    · exact absurd h (by simp)
    · rename_i hm
      split at h
      · rename_i hw
        injection h with h
        exact ⟨r, rfl, not_not.mp hm, h.symm, h ▸ hw⟩
      · exact absurd h (by simp)

end Sys2Proof
end

