-- ==== Sys2Proof/Laws/State.lean ====
section
/-! SUPPORT. One lemma per field per update of the state, each true by unfolding the update, so that no
later proof unfolds a record update. -/

namespace Sys2Proof.Machine

/-! ### `setPin` -/
@[simp] theorem State.setPin_cfg (s : State) (p : Pin) (e : PinEntry) : (s.setPin p e).cfg = s.cfg := rfl
@[simp] theorem State.setPin_pins (s : State) (p : Pin) (e : PinEntry) : (s.setPin p e).pins = s.pins.set p.toNat e p.isLt := rfl
@[simp] theorem State.setPin_buses (s : State) (p : Pin) (e : PinEntry) : (s.setPin p e).buses = s.buses := rfl
@[simp] theorem State.setPin_seq (s : State) (p : Pin) (e : PinEntry) : (s.setPin p e).seq = s.seq := rfl
@[simp] theorem State.setPin_rsp (s : State) (p : Pin) (e : PinEntry) : (s.setPin p e).rsp = s.rsp := rfl
@[simp] theorem State.setPin_platform (s : State) (p : Pin) (e : PinEntry) : (s.setPin p e).platform = s.platform := rfl
@[simp] theorem State.setPin_commands (s : State) (p : Pin) (e : PinEntry) : (s.setPin p e).commands = s.commands := rfl
@[simp] theorem State.setPin_turns (s : State) (p : Pin) (e : PinEntry) : (s.setPin p e).turns = s.turns := rfl
@[simp] theorem State.setPin_drawn (s : State) (p : Pin) (e : PinEntry) : (s.setPin p e).drawn = s.drawn := rfl

/-! ### `setBus` -/
@[simp] theorem State.setBus_cfg (s : State) (b : Nat) (r : BusRec) : (s.setBus b r).cfg = s.cfg := rfl
@[simp] theorem State.setBus_pins (s : State) (b : Nat) (r : BusRec) : (s.setBus b r).pins = s.pins := rfl
@[simp] theorem State.setBus_buses (s : State) (b : Nat) (r : BusRec) : (s.setBus b r).buses = s.buses.set b r := rfl
@[simp] theorem State.setBus_seq (s : State) (b : Nat) (r : BusRec) : (s.setBus b r).seq = s.seq := rfl
@[simp] theorem State.setBus_rsp (s : State) (b : Nat) (r : BusRec) : (s.setBus b r).rsp = s.rsp := rfl
@[simp] theorem State.setBus_platform (s : State) (b : Nat) (r : BusRec) : (s.setBus b r).platform = s.platform := rfl
@[simp] theorem State.setBus_commands (s : State) (b : Nat) (r : BusRec) : (s.setBus b r).commands = s.commands := rfl
@[simp] theorem State.setBus_turns (s : State) (b : Nat) (r : BusRec) : (s.setBus b r).turns = s.turns := rfl
@[simp] theorem State.setBus_drawn (s : State) (b : Nat) (r : BusRec) : (s.setBus b r).drawn = s.drawn := rfl

/-! ### `respond` -/
@[simp] theorem State.respond_cfg (s : State) (st : Status) (v : Word) : (s.respond st v).cfg = s.cfg := rfl
@[simp] theorem State.respond_pins (s : State) (st : Status) (v : Word) : (s.respond st v).pins = s.pins := rfl
@[simp] theorem State.respond_buses (s : State) (st : Status) (v : Word) : (s.respond st v).buses = s.buses := rfl
@[simp] theorem State.respond_seq (s : State) (st : Status) (v : Word) : (s.respond st v).seq = .idle := rfl
@[simp] theorem State.respond_rsp (s : State) (st : Status) (v : Word) : (s.respond st v).rsp = some ⟨st, v⟩ := rfl
@[simp] theorem State.respond_platform (s : State) (st : Status) (v : Word) : (s.respond st v).platform = s.platform := rfl
@[simp] theorem State.respond_commands (s : State) (st : Status) (v : Word) : (s.respond st v).commands = s.commands := rfl
@[simp] theorem State.respond_turns (s : State) (st : Status) (v : Word) : (s.respond st v).turns = s.turns := rfl
@[simp] theorem State.respond_drawn (s : State) (st : Status) (v : Word) : (s.respond st v).drawn = s.drawn := rfl

/-! ### `fail` -/
@[simp] theorem State.fail_cfg (s : State) (st : Status) : (s.fail st).cfg = s.cfg := rfl
@[simp] theorem State.fail_pins (s : State) (st : Status) : (s.fail st).pins = s.pins := rfl
@[simp] theorem State.fail_buses (s : State) (st : Status) : (s.fail st).buses = s.buses := rfl
@[simp] theorem State.fail_seq (s : State) (st : Status) : (s.fail st).seq = .idle := rfl
@[simp] theorem State.fail_rsp (s : State) (st : Status) : (s.fail st).rsp = some ⟨st, 0⟩ := rfl
@[simp] theorem State.fail_platform (s : State) (st : Status) : (s.fail st).platform = s.platform := rfl
@[simp] theorem State.fail_commands (s : State) (st : Status) : (s.fail st).commands = s.commands := rfl
@[simp] theorem State.fail_turns (s : State) (st : Status) : (s.fail st).turns = s.turns := rfl
@[simp] theorem State.fail_drawn (s : State) (st : Status) : (s.fail st).drawn = s.drawn := rfl

/-! ### `waitFor` -/
@[simp] theorem State.waitFor_cfg (s : State) (q : Seq) : (s.waitFor q).cfg = s.cfg := rfl
@[simp] theorem State.waitFor_pins (s : State) (q : Seq) : (s.waitFor q).pins = s.pins := rfl
@[simp] theorem State.waitFor_buses (s : State) (q : Seq) : (s.waitFor q).buses = s.buses := rfl
@[simp] theorem State.waitFor_seq (s : State) (q : Seq) : (s.waitFor q).seq = q := rfl
@[simp] theorem State.waitFor_rsp (s : State) (q : Seq) : (s.waitFor q).rsp = none := rfl
@[simp] theorem State.waitFor_platform (s : State) (q : Seq) : (s.waitFor q).platform = s.platform := rfl
@[simp] theorem State.waitFor_commands (s : State) (q : Seq) : (s.waitFor q).commands = s.commands := rfl
@[simp] theorem State.waitFor_turns (s : State) (q : Seq) : (s.waitFor q).turns = s.turns := rfl
@[simp] theorem State.waitFor_drawn (s : State) (q : Seq) : (s.waitFor q).drawn = s.drawn := rfl

/-! ### `quiet` -/
@[simp] theorem State.quiet_cfg (s : State) : (s.quiet).cfg = s.cfg := rfl
@[simp] theorem State.quiet_pins (s : State) : (s.quiet).pins = s.pins := rfl
@[simp] theorem State.quiet_buses (s : State) : (s.quiet).buses = s.buses := rfl
@[simp] theorem State.quiet_seq (s : State) : (s.quiet).seq = s.seq := rfl
@[simp] theorem State.quiet_rsp (s : State) : (s.quiet).rsp = none := rfl
@[simp] theorem State.quiet_platform (s : State) : (s.quiet).platform = s.platform := rfl
@[simp] theorem State.quiet_commands (s : State) : (s.quiet).commands = s.commands := rfl
@[simp] theorem State.quiet_turns (s : State) : (s.quiet).turns = s.turns := rfl
@[simp] theorem State.quiet_drawn (s : State) : (s.quiet).drawn = s.drawn := rfl

/-! ### `beginTurn` -/
@[simp] theorem State.beginTurn_cfg (s : State) : (s.beginTurn).cfg = s.cfg := rfl
@[simp] theorem State.beginTurn_pins (s : State) : (s.beginTurn).pins = s.pins := rfl
@[simp] theorem State.beginTurn_buses (s : State) : (s.beginTurn).buses = s.buses := rfl
@[simp] theorem State.beginTurn_seq (s : State) : (s.beginTurn).seq = s.seq := rfl
@[simp] theorem State.beginTurn_rsp (s : State) : (s.beginTurn).rsp = none := rfl
@[simp] theorem State.beginTurn_platform (s : State) : (s.beginTurn).platform = s.platform := rfl
@[simp] theorem State.beginTurn_commands (s : State) : (s.beginTurn).commands = s.commands := rfl
@[simp] theorem State.beginTurn_turns (s : State) : (s.beginTurn).turns = s.turns.tail := rfl
@[simp] theorem State.beginTurn_drawn (s : State) : (s.beginTurn).drawn = s.drawn := rfl

/-! ### `accept` -/
@[simp] theorem State.accept_cfg (s : State) : (s.accept).cfg = s.cfg := rfl
@[simp] theorem State.accept_pins (s : State) : (s.accept).pins = s.pins := rfl
@[simp] theorem State.accept_buses (s : State) : (s.accept).buses = s.buses := rfl
@[simp] theorem State.accept_seq (s : State) : (s.accept).seq = s.seq := rfl
@[simp] theorem State.accept_rsp (s : State) : (s.accept).rsp = none := rfl
@[simp] theorem State.accept_platform (s : State) : (s.accept).platform = s.platform := rfl
@[simp] theorem State.accept_commands (s : State) : (s.accept).commands = s.commands.tail := rfl
@[simp] theorem State.accept_turns (s : State) : (s.accept).turns = s.turns.tail := rfl
@[simp] theorem State.accept_drawn (s : State) : (s.accept).drawn = s.drawn := rfl

/-! ### `present` -/
@[simp] theorem State.present_cfg (s : State) (w : Word) : (s.present w).cfg = s.cfg := rfl
@[simp] theorem State.present_pins (s : State) (w : Word) : (s.present w).pins = s.pins := rfl
@[simp] theorem State.present_buses (s : State) (w : Word) : (s.present w).buses = s.buses := rfl
@[simp] theorem State.present_seq (s : State) (w : Word) : (s.present w).seq = .idle := rfl
@[simp] theorem State.present_rsp (s : State) (w : Word) : (s.present w).rsp = s.rsp := rfl
@[simp] theorem State.present_platform (s : State) (w : Word) : (s.present w).platform = s.platform := rfl
@[simp] theorem State.present_commands (s : State) (w : Word) : (s.present w).commands = w :: s.commands := rfl
@[simp] theorem State.present_turns (s : State) (w : Word) : (s.present w).turns = .host :: s.turns := rfl
@[simp] theorem State.present_drawn (s : State) (w : Word) : (s.present w).drawn = s.drawn := rfl

/-! ### `assertReset` -/
@[simp] theorem State.assertReset_cfg (s : State) : (s.assertReset).cfg = CfgFile.reset := rfl
@[simp] theorem State.assertReset_pins (s : State) : (s.assertReset).pins = Vector.replicate 256 PinEntry.reset := rfl
@[simp] theorem State.assertReset_buses (s : State) : (s.assertReset).buses = List.replicate s.nbus BusRec.reset := rfl
@[simp] theorem State.assertReset_seq (s : State) : (s.assertReset).seq = .idle := rfl
@[simp] theorem State.assertReset_rsp (s : State) : (s.assertReset).rsp = none := rfl
@[simp] theorem State.assertReset_platform (s : State) : (s.assertReset).platform = s.platform := rfl
@[simp] theorem State.assertReset_commands (s : State) : (s.assertReset).commands = s.commands := rfl
@[simp] theorem State.assertReset_turns (s : State) : (s.assertReset).turns = s.turns := rfl
@[simp] theorem State.assertReset_drawn (s : State) : (s.assertReset).drawn = s.drawn := rfl

/-! ### `attachPin` -/
@[simp] theorem State.attachPin_cfg (s : State) (p : Pin) : (s.attachPin p).cfg = s.cfg := rfl
@[simp] theorem State.attachPin_buses (s : State) (p : Pin) : (s.attachPin p).buses = s.buses := rfl
@[simp] theorem State.attachPin_seq (s : State) (p : Pin) : (s.attachPin p).seq = s.seq := rfl
@[simp] theorem State.attachPin_rsp (s : State) (p : Pin) : (s.attachPin p).rsp = s.rsp := rfl
@[simp] theorem State.attachPin_platform (s : State) (p : Pin) : (s.attachPin p).platform = s.platform := rfl
@[simp] theorem State.attachPin_commands (s : State) (p : Pin) : (s.attachPin p).commands = s.commands := rfl
@[simp] theorem State.attachPin_turns (s : State) (p : Pin) : (s.attachPin p).turns = s.turns := rfl
@[simp] theorem State.attachPin_drawn (s : State) (p : Pin) : (s.attachPin p).drawn = s.drawn := rfl

/-! ### `setOverride` -/
@[simp] theorem State.setOverride_cfg (s : State) (p : Pin) (l : Level) : (s.setOverride p l).cfg = s.cfg := rfl
@[simp] theorem State.setOverride_buses (s : State) (p : Pin) (l : Level) : (s.setOverride p l).buses = s.buses := rfl
@[simp] theorem State.setOverride_seq (s : State) (p : Pin) (l : Level) : (s.setOverride p l).seq = s.seq := rfl
@[simp] theorem State.setOverride_rsp (s : State) (p : Pin) (l : Level) : (s.setOverride p l).rsp = s.rsp := rfl
@[simp] theorem State.setOverride_platform (s : State) (p : Pin) (l : Level) : (s.setOverride p l).platform = s.platform := rfl
@[simp] theorem State.setOverride_commands (s : State) (p : Pin) (l : Level) : (s.setOverride p l).commands = s.commands := rfl
@[simp] theorem State.setOverride_turns (s : State) (p : Pin) (l : Level) : (s.setOverride p l).turns = s.turns := rfl
@[simp] theorem State.setOverride_drawn (s : State) (p : Pin) (l : Level) : (s.setOverride p l).drawn = s.drawn := rfl

/-! ### `claim` -/
@[simp] theorem State.claim_cfg (s : State) (b : Nat) (p : Pin) (h : Bool) : (s.claim b p h).cfg = s.cfg := rfl
@[simp] theorem State.claim_pins (s : State) (b : Nat) (p : Pin) (h : Bool) : (s.claim b p h).pins = s.pins := rfl
@[simp] theorem State.claim_seq (s : State) (b : Nat) (p : Pin) (h : Bool) : (s.claim b p h).seq = s.seq := rfl
@[simp] theorem State.claim_rsp (s : State) (b : Nat) (p : Pin) (h : Bool) : (s.claim b p h).rsp = s.rsp := rfl
@[simp] theorem State.claim_platform (s : State) (b : Nat) (p : Pin) (h : Bool) : (s.claim b p h).platform = s.platform := rfl
@[simp] theorem State.claim_commands (s : State) (b : Nat) (p : Pin) (h : Bool) : (s.claim b p h).commands = s.commands := rfl
@[simp] theorem State.claim_turns (s : State) (b : Nat) (p : Pin) (h : Bool) : (s.claim b p h).turns = s.turns := rfl
@[simp] theorem State.claim_drawn (s : State) (b : Nat) (p : Pin) (h : Bool) : (s.claim b p h).drawn = s.drawn := rfl

/-! ### `release` -/
@[simp] theorem State.release_cfg (s : State) (b : Nat) : (s.release b).cfg = s.cfg := rfl
@[simp] theorem State.release_pins (s : State) (b : Nat) : (s.release b).pins = s.pins := rfl
@[simp] theorem State.release_seq (s : State) (b : Nat) : (s.release b).seq = s.seq := rfl
@[simp] theorem State.release_rsp (s : State) (b : Nat) : (s.release b).rsp = s.rsp := rfl
@[simp] theorem State.release_platform (s : State) (b : Nat) : (s.release b).platform = s.platform := rfl
@[simp] theorem State.release_commands (s : State) (b : Nat) : (s.release b).commands = s.commands := rfl
@[simp] theorem State.release_turns (s : State) (b : Nat) : (s.release b).turns = s.turns := rfl
@[simp] theorem State.release_drawn (s : State) (b : Nat) : (s.release b).drawn = s.drawn := rfl

end Sys2Proof.Machine
end

