-- ==== Sys2Proof/Laws/Ops.lean ====
section
/-! SUPPORT. What the shared operations read and write, said once: the pin table, the bus records,
`PINMAP`, the attach step, the claim and the release, and the operand checks. -/

namespace Sys2Proof.Machine

/-! ### `PINMAP` and the index spaces depend on the parameters and the number of buses alone -/

theorem State.pinMap_congr {s t : State} (hp : t.platform = s.platform) (hn : t.nbus = s.nbus)
    (p : Pin) : t.pinMap p = s.pinMap p := by
  unfold State.pinMap; rw [hp, hn]

/-- `PINMAP` names only buses that exist (R5). -/
theorem State.pinMap_lt {s : State} {p : Pin} {b : Nat} (h : s.pinMap p = some b) :
    b < s.buses.length := by
  exact of_decide_eq_true (Option.filter_eq_some_iff.mp h).2

@[simp] theorem State.nbus_setPin (s : State) (p : Pin) (e : PinEntry) :
    (s.setPin p e).nbus = s.nbus := rfl
@[simp] theorem State.nbus_setBus (s : State) (b : Nat) (r : BusRec) :
    (s.setBus b r).nbus = s.nbus := by simp [State.nbus]
@[simp] theorem State.nbus_respond (s : State) (st : Status) (v : Word) :
    (s.respond st v).nbus = s.nbus := rfl
@[simp] theorem State.nbus_fail (s : State) (st : Status) : (s.fail st).nbus = s.nbus := rfl
@[simp] theorem State.nbus_waitFor (s : State) (q : Seq) : (s.waitFor q).nbus = s.nbus := rfl
@[simp] theorem State.nbus_quiet (s : State) : s.quiet.nbus = s.nbus := rfl
@[simp] theorem State.nbus_beginTurn (s : State) : s.beginTurn.nbus = s.nbus := rfl
@[simp] theorem State.nbus_accept (s : State) : s.accept.nbus = s.nbus := rfl
@[simp] theorem State.nbus_attachPin (s : State) (p : Pin) : (s.attachPin p).nbus = s.nbus := rfl
@[simp] theorem State.nbus_setOverride (s : State) (p : Pin) (l : Level) :
    (s.setOverride p l).nbus = s.nbus := rfl
@[simp] theorem State.nbus_claim (s : State) (b : Nat) (p : Pin) (h : Bool) :
    (s.claim b p h).nbus = s.nbus := by simp [State.claim]
@[simp] theorem State.nbus_release (s : State) (b : Nat) : (s.release b).nbus = s.nbus := by
  simp [State.release]
@[simp] theorem State.nbus_assertReset (s : State) : s.assertReset.nbus = s.nbus := by
  simp [State.nbus]

@[simp] theorem State.pinMap_setPin (s : State) (p : Pin) (e : PinEntry) (q : Pin) :
    (s.setPin p e).pinMap q = s.pinMap q := rfl
@[simp] theorem State.pinMap_setBus (s : State) (b : Nat) (r : BusRec) (q : Pin) :
    (s.setBus b r).pinMap q = s.pinMap q := by
  exact State.pinMap_congr (by rfl) (by simp) q
@[simp] theorem State.pinMap_respond (s : State) (st : Status) (v : Word) (q : Pin) :
    (s.respond st v).pinMap q = s.pinMap q := rfl
@[simp] theorem State.pinMap_fail (s : State) (st : Status) (q : Pin) :
    (s.fail st).pinMap q = s.pinMap q := rfl
@[simp] theorem State.pinMap_waitFor (s : State) (x : Seq) (q : Pin) :
    (s.waitFor x).pinMap q = s.pinMap q := rfl
@[simp] theorem State.pinMap_quiet (s : State) (q : Pin) : s.quiet.pinMap q = s.pinMap q := rfl
@[simp] theorem State.pinMap_beginTurn (s : State) (q : Pin) :
    s.beginTurn.pinMap q = s.pinMap q := rfl
@[simp] theorem State.pinMap_accept (s : State) (q : Pin) : s.accept.pinMap q = s.pinMap q := rfl
@[simp] theorem State.pinMap_attachPin (s : State) (p q : Pin) :
    (s.attachPin p).pinMap q = s.pinMap q := rfl
@[simp] theorem State.pinMap_setOverride (s : State) (p : Pin) (l : Level) (q : Pin) :
    (s.setOverride p l).pinMap q = s.pinMap q := rfl
@[simp] theorem State.pinMap_claim (s : State) (b : Nat) (p : Pin) (h : Bool) (q : Pin) :
    (s.claim b p h).pinMap q = s.pinMap q := by
  exact State.pinMap_congr (by rfl) (by simp) q
@[simp] theorem State.pinMap_release (s : State) (b : Nat) (q : Pin) :
    (s.release b).pinMap q = s.pinMap q := by
  exact State.pinMap_congr (by rfl) (by simp) q
@[simp] theorem State.pinMap_assertReset (s : State) (q : Pin) :
    s.assertReset.pinMap q = s.pinMap q := by
  exact State.pinMap_congr (by rfl) (by simp) q

/-! ### The pin table: a read after a write -/

/-- Reading an entry after a write: the written entry at its own pin, the old one elsewhere. -/
theorem State.pin_setPin (s : State) (p : Pin) (e : PinEntry) (q : Pin) :
    (s.setPin p e).pin q = if q = p then e else s.pin q := by
  simp only [State.pin, State.setPin_pins, Vector.getElem_set]
  by_cases h : q = p
  · simp [h]
  · have : ¬ p.toNat = q.toNat := fun e => h (BitVec.eq_of_toNat_eq e.symm)
    simp [h, this]

@[simp] theorem State.pin_setPin_self (s : State) (p : Pin) (e : PinEntry) :
    (s.setPin p e).pin p = e := by simp [State.pin_setPin]
theorem State.pin_setPin_ne (s : State) {p q : Pin} (e : PinEntry) (h : q ≠ p) :
    (s.setPin p e).pin q = s.pin q := by simp [State.pin_setPin, h]

@[simp] theorem State.pin_setBus (s : State) (b : Nat) (r : BusRec) (q : Pin) :
    (s.setBus b r).pin q = s.pin q := rfl
@[simp] theorem State.pin_respond (s : State) (st : Status) (v : Word) (q : Pin) :
    (s.respond st v).pin q = s.pin q := rfl
@[simp] theorem State.pin_fail (s : State) (st : Status) (q : Pin) :
    (s.fail st).pin q = s.pin q := rfl
@[simp] theorem State.pin_waitFor (s : State) (x : Seq) (q : Pin) :
    (s.waitFor x).pin q = s.pin q := rfl
@[simp] theorem State.pin_beginTurn (s : State) (q : Pin) : s.beginTurn.pin q = s.pin q := rfl
@[simp] theorem State.pin_accept (s : State) (q : Pin) : s.accept.pin q = s.pin q := rfl
@[simp] theorem State.pin_claim (s : State) (b : Nat) (p : Pin) (h : Bool) (q : Pin) :
    (s.claim b p h).pin q = s.pin q := rfl
@[simp] theorem State.pin_release (s : State) (b : Nat) (q : Pin) :
    (s.release b).pin q = s.pin q := rfl
@[simp] theorem State.pin_assertReset (s : State) (q : Pin) :
    s.assertReset.pin q = PinEntry.reset := by simp [State.pin]
@[simp] theorem State.pin_resetOn (n : Nat) (P : Platform) (q : Pin) :
    (State.resetOn n P).pin q = PinEntry.reset := by simp [State.pin, State.resetOn]

/-- The attach step sets `attached`, clears `altmode` and leaves every other entry and the override
alone (R89). -/
theorem State.pin_attachPin (s : State) (p q : Pin) :
    (s.attachPin p).pin q =
      if q = p then { s.pin p with attached := true, altmode := false } else s.pin q := by
  simp [State.attachPin, State.pin_setPin]

/-- An override is stored in its own pin's entry alone (R75). -/
theorem State.pin_setOverride (s : State) (p : Pin) (l : Level) (q : Pin) :
    (s.setOverride p l).pin q =
      if q = p then { s.pin p with ovrValid := true, ovrLevel := l } else s.pin q := by
  simp [State.setOverride, State.pin_setPin]

@[simp] theorem State.pin_attachPin_self_attached (s : State) (p : Pin) :
    ((s.attachPin p).pin p).attached = true := by simp [State.pin_attachPin]
@[simp] theorem State.pin_attachPin_ovrValid (s : State) (p q : Pin) :
    ((s.attachPin p).pin q).ovrValid = (s.pin q).ovrValid := by
  rw [State.pin_attachPin]; split <;> simp_all
@[simp] theorem State.pin_attachPin_ovrLevel (s : State) (p q : Pin) :
    ((s.attachPin p).pin q).ovrLevel = (s.pin q).ovrLevel := by
  rw [State.pin_attachPin]; split <;> simp_all
/-- Attaching one pin never detaches another (R23). -/
theorem State.attached_attachPin {s : State} {q : Pin} (p : Pin) (h : (s.pin q).attached = true) :
    ((s.attachPin p).pin q).attached = true := by
  rw [State.pin_attachPin]; split <;> simp_all

/-! ### The bus records: a read after a write -/

/-- Reading a record after a write: the written record at its own index, the old one elsewhere; a write
to an index that does not exist stores nothing. -/
theorem State.bus_setBus (s : State) (b : Nat) (r : BusRec) (c : Nat) :
    (s.setBus b r).bus c = if c = b ∧ b < s.buses.length then r else s.bus c := by
  simp only [State.bus, State.setBus_buses, List.getD_eq_getElem?_getD, List.getElem?_set]
  by_cases h : b = c
  · subst h
    by_cases hl : b < s.buses.length <;> simp [hl]
  · have : ¬ c = b := fun e => h e.symm
    simp [h, this]

theorem State.bus_setBus_self {s : State} {b : Nat} (r : BusRec) (h : b < s.buses.length) :
    (s.setBus b r).bus b = r := by simp [State.bus_setBus, h]
theorem State.bus_setBus_ne (s : State) {b c : Nat} (r : BusRec) (h : c ≠ b) :
    (s.setBus b r).bus c = s.bus c := by simp [State.bus_setBus, h]

@[simp] theorem State.bus_setPin (s : State) (p : Pin) (e : PinEntry) (c : Nat) :
    (s.setPin p e).bus c = s.bus c := rfl
@[simp] theorem State.bus_respond (s : State) (st : Status) (v : Word) (c : Nat) :
    (s.respond st v).bus c = s.bus c := rfl
@[simp] theorem State.bus_fail (s : State) (st : Status) (c : Nat) :
    (s.fail st).bus c = s.bus c := rfl
@[simp] theorem State.bus_waitFor (s : State) (x : Seq) (c : Nat) :
    (s.waitFor x).bus c = s.bus c := rfl
@[simp] theorem State.bus_beginTurn (s : State) (c : Nat) : s.beginTurn.bus c = s.bus c := rfl
@[simp] theorem State.bus_accept (s : State) (c : Nat) : s.accept.bus c = s.bus c := rfl
@[simp] theorem State.bus_attachPin (s : State) (p : Pin) (c : Nat) :
    (s.attachPin p).bus c = s.bus c := rfl
@[simp] theorem State.bus_setOverride (s : State) (p : Pin) (l : Level) (c : Nat) :
    (s.setOverride p l).bus c = s.bus c := rfl
@[simp] theorem State.bus_resetOn (n : Nat) (P : Platform) (c : Nat) :
    (State.resetOn n P).bus c = BusRec.reset := by
  simp only [State.bus, State.resetOn, List.getD_eq_getElem?_getD, List.getElem?_replicate]
  split <;> rfl
@[simp] theorem State.bus_assertReset (s : State) (c : Nat) : s.assertReset.bus c = BusRec.reset :=
  State.bus_resetOn s.nbus s.platform c

/-- An index beyond the last record reads as a free bus: a busy bus exists. -/
theorem State.lt_of_busy {s : State} {b : Nat} (h : (s.bus b).busy = true) :
    b < s.buses.length := by
  by_contra hn
  simp [State.bus, List.getD_eq_getElem?_getD, List.getElem?_eq_none (Nat.le_of_not_lt hn),
    BusRec.reset] at h

/-- `Claim` (R92): the claimed bus is busy, owned, not done and has latched the configuration; its
`result` and every other record are as before. -/
theorem State.bus_claim (s : State) (b : Nat) (p : Pin) (h : Bool) (c : Nat) :
    (s.claim b p h).bus c =
      if c = b ∧ b < s.buses.length then
        { busy := true, owner := p, done := false, result := (s.bus b).result,
          snap := s.snapshot p h }
      else s.bus c := by
  simp [State.claim, State.bus_setBus]

/-- `Release` (R96): `busy` and `done` fall; the rest of the record, and every other record, is as
before. -/
theorem State.bus_release (s : State) (b c : Nat) :
    (s.release b).bus c =
      if c = b ∧ b < s.buses.length then { s.bus b with busy := false, done := false }
      else s.bus c := by
  simp [State.release, State.bus_setBus]

/-- After `Release(b)` the bus is free, whether or not its record exists. -/
theorem State.release_busy (s : State) (b : Nat) : ((s.release b).bus b).busy = false := by
  rw [State.bus_release]
  split
  · rfl
  · by_contra hb
    exact absurd (State.lt_of_busy (by simpa using hb)) (by simp_all)

@[simp] theorem State.snapshot_hall (s : State) (p : Pin) (h : Bool) : (s.snapshot p h).hall = h := rfl
@[simp] theorem State.length_claim (s : State) (b : Nat) (p : Pin) (h : Bool) :
    (s.claim b p h).buses.length = s.buses.length := State.nbus_claim s b p h
@[simp] theorem State.length_release (s : State) (b : Nat) :
    (s.release b).buses.length = s.buses.length := State.nbus_release s b

/-! ### `Lookup` (R73) -/

theorem State.lookup_of_override {s : State} {p : Pin} (h : (s.pin p).ovrValid = true) :
    s.lookup p = (s.pin p).ovrLevel := by simp [State.lookup, h]
theorem State.lookup_of_no_override {s : State} {p : Pin} (h : (s.pin p).ovrValid = false) :
    s.lookup p = s.cfg.gatten := by simp [State.lookup, h]
/-- `Lookup` does not see the attach step. -/
@[simp] theorem State.lookup_attachPin (s : State) (p q : Pin) :
    (s.attachPin p).lookup q = s.lookup q := by simp [State.lookup]
@[simp] theorem State.snapshot_attachPin (s : State) (p q : Pin) (h : Bool) :
    (s.attachPin p).snapshot q h = s.snapshot q h := by simp [State.snapshot]

/-! ### The arbiter's test (R90) and the pin state (R34) -/

theorem State.busFree_congr {s t : State} {b : Nat} (hb : t.bus b = s.bus b)
    (hp : t.platform = s.platform) (p : Pin) : t.busFree b p = s.busFree b p := by
  simp [State.busFree, hb, hp]

@[simp] theorem State.busFree_attachPin (s : State) (p : Pin) (b : Nat) (q : Pin) :
    (s.attachPin p).busFree b q = s.busFree b q := rfl

/-- When a bus is free for a pin (R90), as one disjunction. -/
theorem State.busFree_iff (s : State) (b : Nat) (p : Pin) :
    s.busFree b p = true ↔ (s.bus b).busy = false ∨
      (s.platform.unread = .evict ∧ (s.bus b).done = true ∧ (s.bus b).owner ≠ p) := by
  unfold State.busFree
  split
  · simp_all
  · split <;> simp_all

theorem State.pinState_congr {s t : State} {p : Pin} (hm : t.pinMap p = s.pinMap p)
    (ha : (t.pin p).attached = (s.pin p).attached)
    (hb : ∀ b, s.pinMap p = some b → t.bus b = s.bus b) : t.pinState p = s.pinState p := by
  unfold State.pinState
  rw [hm, ha]
  cases h : s.pinMap p with
  | none => rfl
  | some b => simp only [hb b h]

@[simp] theorem State.pinState_respond (s : State) (st : Status) (v : Word) (p : Pin) :
    (s.respond st v).pinState p = s.pinState p := rfl
@[simp] theorem State.pinState_fail (s : State) (st : Status) (p : Pin) :
    (s.fail st).pinState p = s.pinState p := rfl
@[simp] theorem State.pinState_waitFor (s : State) (q : Seq) (p : Pin) :
    (s.waitFor q).pinState p = s.pinState p := rfl
@[simp] theorem State.pinState_beginTurn (s : State) (p : Pin) :
    s.beginTurn.pinState p = s.pinState p := rfl
@[simp] theorem State.pinState_accept (s : State) (p : Pin) :
    s.accept.pinState p = s.pinState p := rfl

theorem State.pinState_eq_unattached {s : State} {p : Pin} {b : Nat} (hm : s.pinMap p = some b) :
    s.pinState p = some .unattached ↔ (s.pin p).attached = false := by
  unfold State.pinState; simp only [hm, Option.some.injEq]
  split
  · simp_all
  · split
    · split <;> simp_all
    · simp_all

theorem State.pinState_eq_running {s : State} {p : Pin} {b : Nat} (hm : s.pinMap p = some b) :
    s.pinState p = some .running ↔ (s.pin p).attached = true ∧ (s.bus b).busy = true ∧
      (s.bus b).owner = p ∧ (s.bus b).done = false := by
  unfold State.pinState; simp only [hm, Option.some.injEq]
  split
  · simp_all
  · split
    · split <;> simp_all
    · simp_all

theorem State.pinState_eq_done {s : State} {p : Pin} {b : Nat} (hm : s.pinMap p = some b) :
    s.pinState p = some .done ↔ (s.pin p).attached = true ∧ (s.bus b).busy = true ∧
      (s.bus b).owner = p ∧ (s.bus b).done = true := by
  unfold State.pinState; simp only [hm, Option.some.injEq]
  split
  · simp_all
  · split
    · split <;> simp_all
    · simp_all

theorem State.pinState_eq_idle {s : State} {p : Pin} {b : Nat} (hm : s.pinMap p = some b) :
    s.pinState p = some .idle ↔ (s.pin p).attached = true ∧
      ¬ ((s.bus b).busy = true ∧ (s.bus b).owner = p) := by
  unfold State.pinState; simp only [hm, Option.some.injEq]
  split
  · simp_all
  · split
    · split <;> simp_all
    · simp_all

/-- A pin that owns its bus (R34): valid, attached, and the owner of a busy bus. -/
theorem State.owns_iff {s : State} {p : Pin} {b : Nat} (hm : s.pinMap p = some b) :
    s.Owns p ↔ (s.pin p).attached = true ∧ (s.bus b).busy = true ∧ (s.bus b).owner = p := by
  unfold State.Owns
  rw [State.pinState_eq_running hm, State.pinState_eq_done hm]
  cases (s.bus b).done <;> simp

/-- A pin has a state exactly when it is valid (R34). -/
theorem State.validPin_of_pinState {s : State} {p : Pin} {x : PinState}
    (h : s.pinState p = some x) : ∃ b, s.pinMap p = some b := by
  unfold State.pinState at h
  cases hm : s.pinMap p with
  | none => simp [hm] at h
  | some b => exact ⟨b, rfl⟩

/-! ### The operand checks -/

theorem State.onPin_none {s : State} {p : Pin} (h : s.pinMap p = none) (k : Nat → State) :
    s.onPin p k = s.fail .invalidPin := by simp [State.onPin, h]
theorem State.onPin_some {s : State} {p : Pin} {b : Nat} (h : s.pinMap p = some b)
    (k : Nat → State) : s.onPin p k = k b := by simp [State.onPin, h]

/-- The pin check answers `InvalidPin`, or goes on with the pin's bus (R121). -/
theorem State.onPin_cases (s : State) (p : Pin) (k : Nat → State) :
    (s.pinMap p = none ∧ s.onPin p k = s.fail .invalidPin) ∨
    ∃ b, s.pinMap p = some b ∧ s.onPin p k = k b := by
  cases h : s.pinMap p with
  | none => exact .inl ⟨rfl, State.onPin_none h k⟩
  | some b => exact .inr ⟨b, rfl, State.onPin_some h k⟩

theorem State.setCfg_inRange (s : State) {lo hi : Nat} {v : Imm} (w : Nat → CfgFile)
    (h : lo ≤ v.toNat ∧ v.toNat ≤ hi) :
    s.setCfg lo hi v w = { s with cfg := w v.toNat }.respond .ok 0 := by simp [State.setCfg, h]

/-- What `SetCfg` can do (R80): it writes one value of the range and answers `OK`, or it leaves the
register alone and answers `InvalidConfig`. -/
theorem State.setCfg_cases (s : State) {lo hi : Nat} (hr : lo ≤ hi) (v : Imm)
    (w : Nat → CfgFile) :
    (∃ x, lo ≤ x ∧ x ≤ hi ∧ s.setCfg lo hi v w = { s with cfg := w x }.respond .ok 0) ∨
    (s.platform.range = .reject ∧ s.setCfg lo hi v w = s.fail .invalidConfig) := by
  unfold State.setCfg
  split
  · rename_i h
    exact .inl ⟨_, h.1, h.2, rfl⟩
  · rename_i h
    cases hp : s.platform.range with
    | reject => exact .inr ⟨rfl, rfl⟩
    | clamp =>
      refine .inl ⟨if v.toNat < lo then lo else hi, ?_, ?_, rfl⟩ <;> split <;> omega

end Sys2Proof.Machine
end

