-- ==== Sys2Proof/Laws/Engine.lean ====
section
/-! SUPPORT. What the conversion engine's step can do, and the small facts of its arithmetic. -/

namespace Sys2Proof.Machine

theorem rescale_same (v w : Nat) : rescale v w w = v := by simp [rescale]
theorem rescale_narrow (v : Nat) {w r : Nat} (h : r < w) : rescale v w r = v / 2 ^ (w - r) := by
  simp [rescale, h, Nat.ne_of_lt h, Nat.shiftRight_eq_div_pow]
theorem rescale_widen (v : Nat) {w r : Nat} (h : w < r) : rescale v w r = v * 2 ^ (r - w) := by
  simp [rescale, Nat.ne_of_gt h, Nat.not_lt.mpr (Nat.le_of_lt h), Nat.shiftLeft_eq]

theorem length_acquire (r : BusRec) (ds : List RawSample) (k : Nat) :
    (acquire r ds k).length = r.snap.samples.toNat := by simp [acquire]

/-- Every draw lies in the native range (R11, R104). -/
theorem acquire_lt {r : BusRec} {ds : List RawSample} {k x : Nat} (h : x ∈ acquire r ds k) :
    x < 2 ^ r.snap.width.toNat := by
  simp only [acquire, List.mem_map] at h
  obtain ⟨_, _, rfl⟩ := h
  exact Nat.mod_lt _ (Nat.two_pow_pos _)

/-- A list bounded by `m` sums to at most `m` per element. -/
theorem sum_le_length_mul {xs : List Nat} {m : Nat} (h : ∀ x ∈ xs, x ≤ m) :
    xs.sum ≤ xs.length * m := by
  induction xs with
  | nil => simp
  | cons a t ih =>
    have ha := h a (by simp)
    have ht := ih fun x hx => h x (by simp [hx])
    simp only [List.sum_cons, List.length_cons, Nat.add_mul, Nat.one_mul]
    omega

/-- The mean of values below `m` is below `m`. -/
theorem average_lt {xs : List Nat} {m : Nat} (hm : 0 < m) (h : ∀ x ∈ xs, x < m) :
    average xs < m := by
  unfold average
  rcases xs with _ | ⟨a, t⟩
  · simpa using hm
  · apply Nat.div_lt_of_lt_mul
    have hs := sum_le_length_mul (xs := a :: t) (m := m - 1) fun x hx => by
      have := h x hx; omega
    have : 0 < (a :: t).length := by simp
    calc (a :: t).sum ≤ (a :: t).length * (m - 1) := hs
      _ < (a :: t).length * m := Nat.mul_lt_mul_of_pos_left (by omega) this

/-- A value of native width `w` rescales to a value of `r` bits (R108). -/
theorem rescale_lt {v w r : Nat} (h : v < 2 ^ w) : rescale v w r < 2 ^ r := by
  rcases Nat.lt_trichotomy r w with hr | hr | hr
  · rw [rescale_narrow v hr]
    apply Nat.div_lt_of_lt_mul
    rwa [← Nat.pow_add, Nat.sub_add_cancel (Nat.le_of_lt hr)]
  · subst hr; rwa [rescale_same]
  · rw [rescale_widen v hr]
    calc v * 2 ^ (r - w) < 2 ^ w * 2 ^ (r - w) := Nat.mul_lt_mul_of_pos_right h (Nat.two_pow_pos _)
      _ = 2 ^ r := by rw [← Nat.pow_add, Nat.add_sub_cancel' (Nat.le_of_lt hr)]

/-- Above the native width a result is at most `2^r - 2^(r-w)` (R108): at resolution 16 that is R118's 65408
for width 9, and 65472, 65504 and 65520 for widths 10 to 12 (log entry 13). -/
theorem rescale_widen_le {v w r : Nat} (hv : v ≤ 2 ^ w - 1) (h : w < r) :
    rescale v w r ≤ 2 ^ r - 2 ^ (r - w) := by
  rw [rescale_widen v h]
  calc v * 2 ^ (r - w) ≤ (2 ^ w - 1) * 2 ^ (r - w) := Nat.mul_le_mul_right _ hv
    _ = 2 ^ r - 2 ^ (r - w) := by
      rw [Nat.sub_mul, Nat.one_mul, ← Nat.pow_add, Nat.add_sub_cancel' (Nat.le_of_lt h)]

/-! ### The free draws (R11, R104, R110) -/

/-- A Hall conversion's free draws do not depend on the latched attenuation (R104, R116). -/
theorem freeSample_of_hall {r : BusRec} (h : r.snap.hall = true) (l : Level) (k : Nat) :
    BusRec.freeSample { r with snap := { r.snap with atten := l } } k = r.freeSample k := by
  simp [BusRec.freeSample, Snapshot.path, h]

/-! ### The step `Complete(b)` -/

/-- What `Complete(b)` can do (R103, R107): nothing where it is not enabled; else it latches the result,
sets `done` and counts its draws. -/
theorem complete_cases (b : Nat) (ds : List RawSample) (s : State) :
    (s.converting b = false ∧ complete b ds s = s) ∨
    ((s.bus b).busy = true ∧ (s.bus b).done = false ∧
      complete b ds s =
        { s.setBus b { s.bus b with
            result := convert (s.bus b).snap (acquire (s.bus b) ds s.drawn), done := true } with
          drawn := s.drawn + (s.bus b).snap.samples.toNat }) := by
  unfold complete
  cases h : s.converting b with
  | false => exact .inl ⟨rfl, by simp⟩
  | true =>
    unfold State.converting at h
    simp only [Bool.and_eq_true, Bool.not_eq_true'] at h
    exact .inr ⟨h.1, h.2, by simp⟩

/-- The bus records after `Complete(b)`. -/
theorem bus_complete (b : Nat) (ds : List RawSample) (s : State) (c : Nat) :
    (complete b ds s).bus c =
      if c = b ∧ s.converting b = true then
        { s.bus b with
          result := convert (s.bus b).snap (acquire (s.bus b) ds s.drawn), done := true }
      else s.bus c := by
  rcases complete_cases b ds s with ⟨h, e⟩ | ⟨hb, hd, e⟩
  · simp [h, e]
  · have hc : s.converting b = true := by simp [State.converting, hb, hd]
    have : (complete b ds s).bus c = (s.setBus b { s.bus b with
            result := convert (s.bus b).snap (acquire (s.bus b) ds s.drawn), done := true }).bus c := by
      rw [e]; rfl
    rw [this, State.bus_setBus]
    simp [hc, State.lt_of_busy hb]

@[simp] theorem complete_cfg (b : Nat) (ds : List RawSample) (s : State) :
    (complete b ds s).cfg = s.cfg := by unfold complete; split <;> rfl
@[simp] theorem complete_pins (b : Nat) (ds : List RawSample) (s : State) :
    (complete b ds s).pins = s.pins := by unfold complete; split <;> rfl
@[simp] theorem complete_seq (b : Nat) (ds : List RawSample) (s : State) :
    (complete b ds s).seq = s.seq := by unfold complete; split <;> rfl
@[simp] theorem complete_rsp (b : Nat) (ds : List RawSample) (s : State) :
    (complete b ds s).rsp = s.rsp := by unfold complete; split <;> rfl
@[simp] theorem complete_platform (b : Nat) (ds : List RawSample) (s : State) :
    (complete b ds s).platform = s.platform := by unfold complete; split <;> rfl
@[simp] theorem complete_commands (b : Nat) (ds : List RawSample) (s : State) :
    (complete b ds s).commands = s.commands := by unfold complete; split <;> rfl
@[simp] theorem complete_turns (b : Nat) (ds : List RawSample) (s : State) :
    (complete b ds s).turns = s.turns := by unfold complete; split <;> rfl
@[simp] theorem complete_nbus (b : Nat) (ds : List RawSample) (s : State) :
    (complete b ds s).nbus = s.nbus := by
  unfold complete; split
  · exact State.nbus_setBus s b _
  · rfl
@[simp] theorem complete_pin (b : Nat) (ds : List RawSample) (s : State) (p : Pin) :
    (complete b ds s).pin p = s.pin p := by simp [State.pin]
@[simp] theorem complete_pinMap (b : Nat) (ds : List RawSample) (s : State) (p : Pin) :
    (complete b ds s).pinMap p = s.pinMap p := State.pinMap_congr (by simp) (by simp) p

end Sys2Proof.Machine
end

