-- ==== Sys2Proof/Laws/Port.lean ====
section
/-! SUPPORT. What one turn of each agent can do, said once: the meanings' equations, the resume steps and
the inversion of `step`. -/

namespace Sys2Proof.Machine

/-! ### The agenda -/

@[simp] theorem State.nextTurn_nil {s : State} (h : s.turns = []) : s.nextTurn = s.unlistedTurn := by
  simp [State.nextTurn, h]
@[simp] theorem State.nextTurn_cons {s : State} {t : Turn} {ts : List Turn} (h : s.turns = t :: ts) :
    s.nextTurn = t := by simp [State.nextTurn, h]

/-- Only a bus that exists can be converting. -/
theorem State.converting_lt {s : State} {b : Nat} (h : s.converting b = true) : b < s.nbus := by
  unfold State.nbus
  by_contra hb
  simp [State.converting, State.bus, List.getD_eq_getElem?_getD, Nat.not_lt.mp hb, BusRec.reset] at h

/-- The agent that moves where no turn is listed: that of the first converting bus, or the host port where
no bus is converting. -/
theorem State.unlistedTurn_cases (s : State) :
    (∃ b, s.unlistedTurn = .engine b [] ∧ s.converting b = true ∧
      ∀ c, c < b → s.converting c = false) ∨
    (s.unlistedTurn = .host ∧ ∀ b, s.converting b = false) := by
  unfold State.unlistedTurn
  cases h : (List.range s.nbus).find? s.converting with
  | some b =>
    rw [List.find?_range_eq_some] at h
    exact .inl ⟨b, rfl, h.1, fun c hc => by simpa using h.2.2 c hc⟩
  | none =>
    refine .inr ⟨rfl, fun b => ?_⟩
    cases hb : s.converting b with
    | false => rfl
    | true =>
      exact absurd hb (List.find?_eq_none.mp h b (List.mem_range.mpr (State.converting_lt hb)))

/-- Whose turn it is depends on the turns listed and on which buses are converting alone. -/
theorem State.nextTurn_congr {s t : State} (ht : t.turns = s.turns) (hn : t.nbus = s.nbus)
    (hc : ∀ b, t.converting b = s.converting b) : t.nextTurn = s.nextTurn := by
  have : t.converting = s.converting := funext hc
  simp only [State.nextTurn, State.unlistedTurn, ht, hn, this]

/-- A reset is never unlisted. -/
theorem State.nextTurn_ne_reset {s : State} (h : ∀ x ∈ s.turns, x ≠ .reset) : s.nextTurn ≠ .reset := by
  cases ht : s.turns with
  | nil =>
    rw [State.nextTurn_nil ht]
    rcases s.unlistedTurn_cases with ⟨b, e, _⟩ | ⟨e, _⟩ <;> rw [e] <;> simp
  | cons x xs => rw [State.nextTurn_cons ht]; exact h x (by simp [ht])

/-- A word presented at the port is what the port accepts next, and nothing else has changed. -/
theorem State.accept_present (s : State) (w : Word) :
    (s.present w).accept = { s with seq := .idle, rsp := none } := rfl
@[simp] theorem State.nextTurn_present (s : State) (w : Word) : (s.present w).nextTurn = .host := rfl

/-! ### The step of each agent -/

theorem step_host {s : State} (h : s.nextTurn = .host) : step s = hostTurn s.beginTurn := by
  simp [step, h, agentTurn]
theorem step_engine {s : State} {b : Nat} {ds : List RawSample} (h : s.nextTurn = .engine b ds) :
    step s = .next (complete b ds s.beginTurn) := by simp [step, h, agentTurn]
theorem step_altmode {s : State} {p : Pin} (h : s.nextTurn = .altmode p) :
    step s = .next (s.beginTurn.setAltmode p) := by simp [step, h, agentTurn]
theorem step_reset {s : State} (h : s.nextTurn = .reset) :
    step s = .next s.beginTurn.assertReset := by simp [step, h, agentTurn]

/-- The idle port with a word presented accepts it (R57). -/
theorem step_accept {s : State} {w : Word} {rest : List Word} (h : s.nextTurn = .host)
    (hi : s.seq = .idle) (hc : s.commands = w :: rest) : step s = issue w s.accept := by
  rw [step_host h]
  simp [hostTurn, hi, hc, State.accept, State.beginTurn]

theorem step_wait {s : State} {p : Pin} (h : s.nextTurn = .host) (hw : s.seq = .wait p) :
    step s = .next (resume p s.beginTurn) := by
  rw [step_host h]; simp [hostTurn, hw]
theorem step_hallWaitP {s : State} (h : s.nextTurn = .host) (hw : s.seq = .hallWaitP) :
    step s = .next (hallResumeP s.beginTurn) := by
  rw [step_host h]; simp [hostTurn, hw]
theorem step_hallWaitN {s : State} {v : Code} (h : s.nextTurn = .host) (hw : s.seq = .hallWaitN v) :
    step s = .next (hallResumeN v s.beginTurn) := by
  rw [step_host h]; simp [hostTurn, hw]

/-! ### The resume steps -/

/-- What `Resume` can do (R95): nothing where its guard is false, else deliver the result and free the
bus. -/
theorem resume_cases (p : Pin) (s : State) :
    (s.pinState p ≠ some .done ∧ resume p s = s) ∨
    ∃ b, s.pinMap p = some b ∧ s.pinState p = some .done ∧
      resume p s = (s.release b).respond .ok ((s.bus b).result.setWidth 32) := by
  unfold resume
  cases hm : s.pinMap p with
  | none => exact .inl ⟨by simp [State.pinState, hm], rfl⟩
  | some b =>
    by_cases hd : s.pinState p = some .done
    · exact .inr ⟨b, rfl, hd, by simp [hd]⟩
    · exact .inl ⟨hd, by simp [hd]⟩

/-- What `HallResumeP` can do (R114). -/
theorem hallResumeP_cases (s : State) :
    hallResumeP s = s ∨
    ∃ bP bN, s.pinMap s.platform.hallP = some bP ∧ s.pinMap s.platform.hallN = some bN ∧
      s.pinState s.platform.hallP = some .done ∧
      hallResumeP s =
        ((s.release bP).claim bN s.platform.hallN true).waitFor (.hallWaitN (s.bus bP).result) := by
  unfold hallResumeP
  cases hP : s.pinMap s.platform.hallP with
  | none => exact .inl rfl
  | some bP =>
    cases hN : s.pinMap s.platform.hallN with
    | none => exact .inl rfl
    | some bN =>
      by_cases hd : s.pinState s.platform.hallP = some .done
      · exact .inr ⟨bP, bN, rfl, rfl, hd, by simp [hd]⟩
      · exact .inl (by simp [hd])

/-- What `HallResumeN` can do (R115). -/
theorem hallResumeN_cases (vP : Code) (s : State) :
    hallResumeN vP s = s ∨
    ∃ bN, s.pinMap s.platform.hallN = some bN ∧ s.pinState s.platform.hallN = some .done ∧
      hallResumeN vP s =
        (s.release bN).respond .ok (hallCombine s.platform.hall vP (s.bus bN).result) := by
  unfold hallResumeN
  cases hN : s.pinMap s.platform.hallN with
  | none => exact .inl rfl
  | some bN =>
    by_cases hd : s.pinState s.platform.hallN = some .done
    · exact .inr ⟨bN, rfl, hd, by simp [hd]⟩
    · exact .inl (by simp [hd])

/-! ### The meanings -/

/-- What START can do (R91): three refusals in order, or the claim. -/
theorem execStart_cases (p : Pin) (s : State) :
    execStart p s = .next (s.fail .invalidPin) ∧ s.pinMap p = none ∨
    ∃ b, s.pinMap p = some b ∧
      ((s.busFree b p = false ∧ execStart p s = .next (s.fail .busBusy)) ∨
       (s.busFree b p = true ∧ (s.pin p).attached = false ∧
          execStart p s = .next (s.fail .notAttached)) ∨
       (s.busFree b p = true ∧ (s.pin p).attached = true ∧
          execStart p s = .next ((s.claim b p false).respond .ok 1))) := by
  unfold execStart
  rcases State.onPin_cases s p _ with ⟨h, e⟩ | ⟨b, h, e⟩
  · exact .inl ⟨by rw [e], h⟩
  · refine .inr ⟨b, h, ?_⟩
    rw [e]
    cases hf : s.busFree b p <;> cases ha : (s.pin p).attached <;> simp

/-- What END's issue step can do (R94). -/
theorem execEnd_cases (p : Pin) (s : State) :
    execEnd p s = .next (s.fail .invalidPin) ∧ s.pinMap p = none ∨
    ∃ b, s.pinMap p = some b ∧
      (((s.pin p).attached = false ∧ execEnd p s = .next (s.fail .notAttached)) ∨
       ((s.pin p).attached = true ∧ execEnd p s = .next (s.waitFor (.wait p)))) := by
  unfold execEnd
  rcases State.onPin_cases s p _ with ⟨h, e⟩ | ⟨b, h, e⟩
  · exact .inl ⟨by rw [e], h⟩
  · refine .inr ⟨b, h, ?_⟩
    rw [e]
    cases ha : (s.pin p).attached <;> simp

/-- What READ's issue step can do (R111, R112). -/
theorem execRead_cases (p : Pin) (s : State) :
    execRead p s = .next (s.fail .invalidPin) ∧ s.pinMap p = none ∨
    ∃ b, s.pinMap p = some b ∧
      ((s.busFree b p = false ∧ execRead p s = .next ((s.attachPin p).fail .busBusy)) ∨
       (s.busFree b p = true ∧
          execRead p s = .next (((s.attachPin p).claim b p false).waitFor (.wait p)))) := by
  unfold execRead
  rcases State.onPin_cases s p _ with ⟨h, e⟩ | ⟨b, h, e⟩
  · exact .inl ⟨by rw [e], h⟩
  · refine .inr ⟨b, h, ?_⟩
    rw [e]
    cases hf : s.busFree b p <;> simp [hf]

/-- What HALLREAD's issue step can do (R113). -/
theorem execHallRead_cases (s : State) :
    execHallRead s = .next (s.fail .invalidPin) ∨
    ∃ bP bN, s.pinMap s.platform.hallP = some bP ∧ s.pinMap s.platform.hallN = some bN ∧
      (((s.busFree bP s.platform.hallP = false ∨ s.busFree bN s.platform.hallN = false) ∧
          execHallRead s = .next (s.fail .busBusy)) ∨
       (s.busFree bP s.platform.hallP = true ∧ s.busFree bN s.platform.hallN = true ∧
          execHallRead s = .next ((((s.attachPin s.platform.hallP).attachPin
            s.platform.hallN).claim bP s.platform.hallP true).waitFor .hallWaitP))) := by
  unfold execHallRead
  rcases State.onPin_cases s s.platform.hallP _ with ⟨_, e⟩ | ⟨bP, hP, e⟩
  · exact .inl (by rw [e])
  · rw [e]
    rcases State.onPin_cases s s.platform.hallN _ with ⟨_, e⟩ | ⟨bN, hN, e⟩
    · exact .inl (by rw [e])
    · refine .inr ⟨bP, bN, hP, hN, ?_⟩
      rw [e]
      cases s.busFree bP s.platform.hallP <;> cases s.busFree bN s.platform.hallN <;> simp

/-- GETCFG answers a value and changes nothing, or is answered as an illegal word is (R86). -/
theorem execGetCfg_cases (idx : BitVec 3) (s : State) :
    (∃ v, s.readCfg idx = some v ∧ execGetCfg idx s = .next (s.respond .ok v)) ∨
    (s.readCfg idx = none ∧ execGetCfg idx s = .next (s.fail .illegalCmd)) := by
  unfold execGetCfg
  cases s.readCfg idx with
  | none => exact .inr ⟨rfl, rfl⟩
  | some v => exact .inl ⟨v, rfl, rfl⟩

/-- A word that spells no command is answered `IllegalCmd` with no change of state (R125). -/
theorem issue_illegal {w : Word} (h : ∀ i, decode w ≠ .ok i) (s : State) :
    issue w s = .next (s.fail .illegalCmd) := by
  unfold issue
  cases hd : decode w with
  | ok i => exact absurd hd (h i)
  | error e => rfl

/-- A word that spells a command runs its meaning. -/
theorem issue_decoded {w : Word} {i : Instr} (h : decode w = .ok i) (s : State) :
    issue w s = exec i s := by simp [issue, h]

/-- What one turn of the host port can do (R33, R50, R57). -/
theorem hostTurn_cases (s : State) :
    (s.seq = .idle ∧ s.commands = [] ∧ hostTurn s = .next s) ∨
    (∃ w rest, s.seq = .idle ∧ s.commands = w :: rest ∧
      hostTurn s = issue w { s with commands := rest }) ∨
    (∃ p, s.seq = .wait p ∧ hostTurn s = .next (resume p s)) ∨
    (s.seq = .hallWaitP ∧ hostTurn s = .next (hallResumeP s)) ∨
    (∃ v, s.seq = .hallWaitN v ∧ hostTurn s = .next (hallResumeN v s)) := by
  unfold hostTurn
  cases hs : s.seq with
  | idle =>
    cases hc : s.commands with
    | nil => exact .inl ⟨rfl, rfl, rfl⟩
    | cons w rest => exact .inr (.inl ⟨w, rest, rfl, rfl, rfl⟩)
  | wait p => exact .inr (.inr (.inl ⟨p, rfl, rfl⟩))
  | hallWaitP => exact .inr (.inr (.inr (.inl ⟨rfl, rfl⟩)))
  | hallWaitN v => exact .inr (.inr (.inr (.inr ⟨v, rfl, rfl⟩)))

/-- A mode change by the collaborator touches one bit of one valid pin's entry (R26). -/
theorem State.pin_setAltmode (s : State) (p q : Pin) :
    (s.setAltmode p).pin q =
      if q = p ∧ (s.pinMap p).isSome then { s.pin p with altmode := true } else s.pin q := by
  unfold State.setAltmode
  split
  · rename_i h; simp [State.pin_setPin, h]
  · rename_i h; simp [h]

end Sys2Proof.Machine
end

