-- ==== Sys2Proof/Laws/Inversion.lean ====
section
/-! SUPPORT. The inversion of a command's issue step and of `step`: every state they can answer, with
what the tests on the way say. Invariants are derived from these two, not from the meanings. -/

namespace Sys2Proof.Machine

/-- The states that the issue step of a command can answer from `s`. -/
inductive Issued (s : State) : State → Prop where
  /-- A response with no other change. -/
  | answered (st : Status) (v : Word) : Issued s (s.respond st v)
  /-- A configuration register written with a value of its range (R80, R74). -/
  | configured (c : CfgFile) (legal : s.cfg.Legal → c.Legal) :
      Issued s ({ s with cfg := c }.respond .ok 0)
  /-- The attach step of a valid pin, then a response (R89, R112). -/
  | attached (p : Pin) (b : Nat) (hp : s.pinMap p = some b) (st : Status) (v : Word) :
      Issued s ((s.attachPin p).respond st v)
  /-- The attach step and an override (R75). -/
  | overridden (p : Pin) (b : Nat) (hp : s.pinMap p = some b) (l : Level) :
      Issued s (((s.attachPin p).setOverride p l).respond .ok 0)
  /-- A claim by an attached pin of its free bus (R91). -/
  | started (p : Pin) (b : Nat) (hp : s.pinMap p = some b) (hf : s.busFree b p = true)
      (ha : (s.pin p).attached = true) : Issued s ((s.claim b p false).respond .ok 1)
  /-- An END of an attached pin waits (R94). -/
  | waiting (p : Pin) (b : Nat) (hp : s.pinMap p = some b) (ha : (s.pin p).attached = true) :
      Issued s (s.waitFor (.wait p))
  /-- A READ attaches, claims and waits (R111). -/
  | reading (p : Pin) (b : Nat) (hp : s.pinMap p = some b) (hf : s.busFree b p = true) :
      Issued s (((s.attachPin p).claim b p false).waitFor (.wait p))
  /-- A HALLREAD attaches both pins, claims the first and waits (R113). -/
  | hall (bP bN : Nat) (hP : s.pinMap s.platform.hallP = some bP)
      (hN : s.pinMap s.platform.hallN = some bN)
      (fP : s.busFree bP s.platform.hallP = true) (fN : s.busFree bN s.platform.hallN = true) :
      Issued s ((((s.attachPin s.platform.hallP).attachPin s.platform.hallN).claim bP
        s.platform.hallP true).waitFor .hallWaitP)

theorem issued_onPin {s : State} {p : Pin} {k : Nat → State}
    (hk : ∀ b, s.pinMap p = some b → Issued s (k b)) : Issued s (s.onPin p k) := by
  rcases State.onPin_cases s p k with ⟨_, e⟩ | ⟨b, hb, e⟩ <;> rw [e]
  · exact .answered _ _
  · exact hk b hb

theorem issued_setCfg {s : State} {lo hi : Nat} (hr : lo ≤ hi) (v : Imm) {w : Nat → CfgFile}
    (hw : ∀ x, lo ≤ x → x ≤ hi → s.cfg.Legal → (w x).Legal) :
    Issued s (s.setCfg lo hi v w) := by
  rcases State.setCfg_cases s hr v w with ⟨x, h1, h2, e⟩ | ⟨_, e⟩ <;> rw [e]
  · exact .configured _ (hw x h1 h2)
  · exact .answered _ _

/-- Every command's issue step answers one of these states. -/
theorem exec_issued (i : Instr) (s : State) : ∃ t, exec i s = .next t ∧ Issued s t := by
  cases i with
  | read p =>
    show ∃ t, execRead p s = .next t ∧ Issued s t
    rcases execRead_cases p s with ⟨e, _⟩ | ⟨b, hb, ⟨_, e⟩ | ⟨hf, e⟩⟩ <;> rw [e]
    · exact ⟨_, rfl, .answered _ _⟩
    · exact ⟨_, rfl, .attached p b hb _ _⟩
    · exact ⟨_, rfl, .reading p b hb hf⟩
  | setRes v =>
    refine ⟨_, rfl, issued_setCfg (by decide) v fun x h1 h2 h => ?_⟩
    have e : (BitVec.ofNat 5 x).toNat = x := by simp; omega
    exact { h with res := by simp only [e]; omega }
  | setWidth v =>
    refine ⟨_, rfl, issued_setCfg (by decide) v fun x h1 h2 h => ?_⟩
    have e : (BitVec.ofNat 4 x).toNat = x := by simp; omega
    exact { h with width := by simp only [e]; omega }
  | setCycles v =>
    refine ⟨_, rfl, issued_setCfg (by decide) v fun x h1 h2 h => ?_⟩
    have e : (BitVec.ofNat 8 x).toNat = x := by simp; omega
    exact { h with cycles := by simp only [e]; omega }
  | setSamples v =>
    refine ⟨_, rfl, issued_setCfg (by decide) v fun x h1 h2 h => ?_⟩
    have e : (BitVec.ofNat 8 x).toNat = x := by simp; omega
    exact { h with samples := by simp only [e]; omega }
  | setClkDiv v =>
    refine ⟨_, rfl, issued_setCfg (by decide) v fun x h1 h2 h => ?_⟩
    have e : (BitVec.ofNat 8 x).toNat = x := by simp; omega
    exact { h with clkdiv := by simp only [e]; omega }
  | setAtten l => exact ⟨_, rfl, .configured _ fun h => { h with }⟩
  | setPinAtten p l => exact ⟨_, rfl, issued_onPin fun b hb => .overridden p b hb l⟩
  | hallRead =>
    show ∃ t, execHallRead s = .next t ∧ Issued s t
    rcases execHallRead_cases s with e | ⟨bP, bN, hP, hN, ⟨_, e⟩ | ⟨fP, fN, e⟩⟩ <;> rw [e]
    · exact ⟨_, rfl, .answered _ _⟩
    · exact ⟨_, rfl, .answered _ _⟩
    · exact ⟨_, rfl, .hall bP bN hP hN fP fN⟩
  | attach p => exact ⟨_, rfl, issued_onPin fun b hb => .attached p b hb _ _⟩
  | start p =>
    show ∃ t, execStart p s = .next t ∧ Issued s t
    rcases execStart_cases p s with ⟨e, _⟩ | ⟨b, hb, ⟨_, e⟩ | ⟨_, _, e⟩ | ⟨hf, ha, e⟩⟩ <;> rw [e]
    · exact ⟨_, rfl, .answered _ _⟩
    · exact ⟨_, rfl, .answered _ _⟩
    · exact ⟨_, rfl, .answered _ _⟩
    · exact ⟨_, rfl, .started p b hb hf ha⟩
  | busy p => exact ⟨_, rfl, issued_onPin fun b _ => .answered _ _⟩
  | endConv p =>
    show ∃ t, execEnd p s = .next t ∧ Issued s t
    rcases execEnd_cases p s with ⟨e, _⟩ | ⟨b, hb, ⟨_, e⟩ | ⟨ha, e⟩⟩ <;> rw [e]
    · exact ⟨_, rfl, .answered _ _⟩
    · exact ⟨_, rfl, .answered _ _⟩
    · exact ⟨_, rfl, .waiting p b hb ha⟩
  | getCfg idx =>
    show ∃ t, execGetCfg idx s = .next t ∧ Issued s t
    rcases execGetCfg_cases idx s with ⟨v, _, e⟩ | ⟨_, e⟩ <;> rw [e] <;>
      exact ⟨_, rfl, .answered _ _⟩
  | getAtten p => exact ⟨_, rfl, issued_onPin fun b _ => .answered _ _⟩

/-- Every word accepted is answered or put to work. -/
theorem issue_issued (w : Word) (s : State) : ∃ t, issue w s = .next t ∧ Issued s t := by
  unfold issue
  split
  · exact exec_issued _ s
  · exact ⟨_, rfl, .answered _ _⟩

/-- The states that one step can answer from `s`, each with the turn and the guard that lead there. -/
inductive Stepped (s : State) : State → Prop where
  /-- The host's turn with no host step enabled. -/
  | quiet (hn : s.nextTurn = .host) : Stepped s s.beginTurn
  /-- The idle port accepts a word. -/
  | issued (hn : s.nextTurn = .host) (hs : s.seq = .idle) (t : State) (h : Issued s.accept t) :
      Stepped s t
  /-- `Resume` (R95). -/
  | resumed (hn : s.nextTurn = .host) (p : Pin) (hs : s.seq = .wait p) (b : Nat)
      (hp : s.pinMap p = some b) (hd : s.pinState p = some .done) :
      Stepped s ((s.beginTurn.release b).respond .ok ((s.bus b).result.setWidth 32))
  /-- `HallResumeP` (R114). -/
  | hallP (hn : s.nextTurn = .host) (hs : s.seq = .hallWaitP) (bP bN : Nat)
      (hP : s.pinMap s.platform.hallP = some bP) (hN : s.pinMap s.platform.hallN = some bN)
      (hd : s.pinState s.platform.hallP = some .done) :
      Stepped s (((s.beginTurn.release bP).claim bN s.platform.hallN true).waitFor
        (.hallWaitN (s.bus bP).result))
  /-- `HallResumeN` (R115). -/
  | hallN (hn : s.nextTurn = .host) (vP : Code) (hs : s.seq = .hallWaitN vP) (bN : Nat)
      (hN : s.pinMap s.platform.hallN = some bN)
      (hd : s.pinState s.platform.hallN = some .done) :
      Stepped s ((s.beginTurn.release bN).respond .ok
        (hallCombine s.platform.hall vP (s.bus bN).result))
  /-- The turn of a conversion agent (R103, R107). -/
  | engine (b : Nat) (ds : List RawSample) (hn : s.nextTurn = .engine b ds) :
      Stepped s (complete b ds s.beginTurn)
  /-- The collaborator's turn (R26). -/
  | altmode (p : Pin) (hn : s.nextTurn = .altmode p) : Stepped s (s.beginTurn.setAltmode p)
  /-- The reset input (R135). -/
  | reset (hn : s.nextTurn = .reset) : Stepped s s.beginTurn.assertReset

/-- Every step answers one of these states. -/
theorem step_stepped (s : State) : ∃ t, step s = .next t ∧ Stepped s t := by
  cases hn : s.nextTurn with
  | host =>
    rw [step_host hn]
    rcases hostTurn_cases s.beginTurn with
      ⟨_, _, e⟩ | ⟨w, rest, hs, hc, e⟩ | ⟨p, hs, e⟩ | ⟨hs, e⟩ | ⟨v, hs, e⟩ <;> rw [e]
    · exact ⟨_, rfl, .quiet hn⟩
    · have ha : ({ s.beginTurn with commands := rest } : State) = s.accept := by
        have : s.commands = w :: rest := hc
        simp [State.accept, this]
      rw [ha]
      obtain ⟨t, ht, hi⟩ := issue_issued w s.accept
      exact ⟨t, ht, .issued hn hs t hi⟩
    · rcases resume_cases p s.beginTurn with ⟨_, e⟩ | ⟨b, hp, hd, e⟩ <;> rw [e]
      · exact ⟨_, rfl, .quiet hn⟩
      · exact ⟨_, rfl, .resumed hn p hs b hp hd⟩
    · rcases hallResumeP_cases s.beginTurn with e | ⟨bP, bN, hP, hN, hd, e⟩ <;> rw [e]
      · exact ⟨_, rfl, .quiet hn⟩
      · exact ⟨_, rfl, .hallP hn hs bP bN hP hN hd⟩
    · rcases hallResumeN_cases v s.beginTurn with e | ⟨bN, hN, hd, e⟩ <;> rw [e]
      · exact ⟨_, rfl, .quiet hn⟩
      · exact ⟨_, rfl, .hallN hn v hs bN hN hd⟩
  | engine b ds => exact ⟨_, step_engine hn, .engine b ds hn⟩
  | altmode p => exact ⟨_, step_altmode hn, .altmode p hn⟩
  | reset => exact ⟨_, step_reset hn, .reset hn⟩

/-- What a step's answer can be. -/
theorem stepped_of_step {s t : State} (h : step s = .next t) : Stepped s t := by
  obtain ⟨u, hu, hs⟩ := step_stepped s
  rw [h] at hu
  injection hu with hu
  exact hu ▸ hs

/-- What a command's answer can be. -/
theorem issued_of_exec {i : Instr} {s t : State} (h : exec i s = .next t) : Issued s t := by
  obtain ⟨u, hu, hs⟩ := exec_issued i s
  rw [h] at hu
  injection hu with hu
  exact hu ▸ hs

end Sys2Proof.Machine
end

