-- ==== Sys2Proof/Laws/PerInstr.lean ====
section
/-! SUPPORT. The family `EncodedOpcode`: the word of every command carries the opcode of its row of R64,
and the row's mask and pattern agree on the opcode byte. -/

namespace Sys2Proof.Laws.EncodedOpcode

/-- The row of R64 whose opcode the encoded command carries exists, and the row's mask and pattern fit
the opcode byte of the word. -/
def Statement (i : Instr) : Prop :=
  ∃ r, rowOf (opField (encode i)) = some r ∧ opField (encode i &&& r.mask) = opField r.pattern

theorem fits {i : Instr} {r : OpRow} (h : rowOf i.opcode = some r)
    (hm : opField r.pattern &&& opField r.mask = opField r.pattern) : Statement i := by
  refine ⟨r, by rw [opField_encode]; exact h, ?_⟩
  rw [word_and_eq, opField_cmdWord, opField_encode, ← (rowOf_some h).2, hm]

theorem read (pin : Pin) : Statement (.read pin) := fits rfl (by decide)
theorem setRes (v : Imm) : Statement (.setRes v) := fits rfl (by decide)
theorem setWidth (v : Imm) : Statement (.setWidth v) := fits rfl (by decide)
theorem setCycles (v : Imm) : Statement (.setCycles v) := fits rfl (by decide)
theorem setSamples (v : Imm) : Statement (.setSamples v) := fits rfl (by decide)
theorem setClkDiv (v : Imm) : Statement (.setClkDiv v) := fits rfl (by decide)
theorem setAtten (l : Level) : Statement (.setAtten l) := fits rfl (by decide)
theorem setPinAtten (pin : Pin) (l : Level) : Statement (.setPinAtten pin l) :=
  fits rfl (by decide)
theorem hallRead : Statement .hallRead := fits rfl (by decide)
theorem attach (pin : Pin) : Statement (.attach pin) := fits rfl (by decide)
theorem start (pin : Pin) : Statement (.start pin) := fits rfl (by decide)
theorem busy (pin : Pin) : Statement (.busy pin) := fits rfl (by decide)
theorem endConv (pin : Pin) : Statement (.endConv pin) := fits rfl (by decide)
theorem getCfg (idx : BitVec 3) : Statement (.getCfg idx) := fits rfl (by decide)
theorem getAtten (pin : Pin) : Statement (.getAtten pin) := fits rfl (by decide)

end Sys2Proof.Laws.EncodedOpcode
end

