-- ==== Sys2Proof/Laws/Safety.lean ====
section
/-! SUPPORT. The small lemmas of the terms in Safety.lean: the awaited pin, the flags of a pin entry, runs
in a given order, and states that differ in `altmode` alone. -/

namespace Sys2Proof.Machine

theorem PinEntry.atReset_reset : PinEntry.reset.AtReset := ⟨rfl, rfl, rfl⟩

/-! ### The awaited pin -/

theorem State.awaited_idle {s : State} (h : s.seq = .idle) : s.awaited = none := by
  simp [State.awaited, h]
theorem State.awaited_wait {s : State} {p : Pin} (h : s.seq = .wait p) : s.awaited = some p := by
  simp [State.awaited, h]
theorem State.awaited_hallWaitP {s : State} (h : s.seq = .hallWaitP) :
    s.awaited = some s.platform.hallP := by simp [State.awaited, h]
theorem State.awaited_hallWaitN {s : State} {v : Code} (h : s.seq = .hallWaitN v) :
    s.awaited = some s.platform.hallN := by simp [State.awaited, h]

/-- A port that waits for a pin is held. -/
theorem State.portHeld_of_awaited {s : State} {p : Pin} (h : s.awaited = some p) : s.PortHeld := by
  intro hs
  rw [State.awaited_idle hs] at h
  cases h

/-! ### Runs in a given order -/

/-- A turn taken is one step of the machine with that turn alone listed. -/
theorem State.step_takes (s : State) (x : Turn) :
    step { s with turns := [x] } = .next (s.takes x) := by
  obtain ⟨t, h, _⟩ := step_stepped { s with turns := [x] }
  simp [State.takes, h]

@[simp] theorem State.along_zero (s : State) (σ : Nat → Turn) : s.along σ 0 = s := rfl
theorem State.along_succ (s : State) (σ : Nat → Turn) (n : Nat) :
    s.along σ (n + 1) = (s.along σ n).takes (σ n) := rfl

/-- The run from a later instant is the run in the rest of the order. -/
theorem State.along_add (s : State) (σ : Nat → Turn) (n m : Nat) :
    s.along σ (n + m) = (s.along σ n).along (fun k => σ (n + k)) m := by
  induction m with
  | zero => rfl
  | succ m ih => rw [← Nat.add_assoc, State.along_succ, ih, State.along_succ]

/-! ### States that differ in `altmode` alone -/

theorem State.SameButAltmode.refl (s : State) : s.SameButAltmode s :=
  ⟨rfl, fun _ => rfl, rfl, rfl, rfl, rfl, rfl, rfl, rfl⟩

/-- The collaborator's step leads to such a state (R26). -/
theorem State.sameButAltmode_setAltmode (s : State) (p : Pin) : s.SameButAltmode (s.setAltmode p) := by
  by_cases h : (s.pinMap p).isSome
  · have e : s.setAltmode p = s.setPin p { s.pin p with altmode := true } := by
      simp [State.setAltmode, h]
    rw [e]
    refine ⟨rfl, fun q => ?_, rfl, rfl, rfl, rfl, rfl, rfl, rfl⟩
    rw [State.pin_setPin]
    split
    · rename_i hq; rw [hq]
    · rfl
  · have e : s.setAltmode p = s := by simp [State.setAltmode, h]
    rw [e]
    exact .refl s

end Sys2Proof.Machine
end

