-- ==== Sys2Proof/Tests/Slice0.lean ====
section
/-! SUPPORT. Tests. Expected results are the spec's own: the encodings of 30_encoding.md and the vectors of
95_test_vectors.md. A witness shows a state and operands that meet the hypotheses of one obligation. -/

open Sys2Proof Sys2Proof.Machine

namespace Sys2Proof.Tests

/-! ### Ill-formed terms: the one check WellFormed makes -/

theorem test_wf_refuses_getcfg_6 : (Instr.getCfg 6).wf = false := by decide
theorem test_wf_refuses_getcfg_7 : (Instr.getCfg 7).wf = false := by decide
theorem test_wf_admits_getcfg_5 : (Instr.getCfg 5).wf = true := by decide

/-! ### Decoding: one word per row, written from the formats of R58 and the opcodes of R64 (95, 2.1) -/

/-- A word from its bits: opcode, pin and immediate, in binary (R55). -/
def bits (op pin imm : Nat) : Nat := op * 2 ^ 24 + pin * 2 ^ 16 + imm

theorem test_decode_read : decodeTableWord 32 (bits 0b00000001 0b00100010 0) = some (.read 34) := by decide
theorem test_decode_setRes : decodeTableWord 32 (bits 0b00000011 0 0b1010) = some (.setRes 10) := by decide
theorem test_decode_setWidth : decodeTableWord 32 (bits 0b00000100 0 0b1001) = some (.setWidth 9) := by decide
theorem test_decode_setCycles :
    decodeTableWord 32 (bits 0b00000101 0 0b100000000) = some (.setCycles 256) := by decide
theorem test_decode_setSamples :
    decodeTableWord 32 (bits 0b00000110 0 0b11111111) = some (.setSamples 255) := by decide
theorem test_decode_setClkDiv :
    decodeTableWord 32 (bits 0b00000111 0 0b1111111111111111) = some (.setClkDiv 65535) := by decide
theorem test_decode_setAtten : decodeTableWord 32 (bits 0b00001000 0 0b01) = some (.setAtten .db2p5) := by decide
theorem test_decode_setPinAtten :
    decodeTableWord 32 (bits 0b00001001 0b11111111 0b11) = some (.setPinAtten 255 .db11) := by decide
theorem test_decode_hallRead : decodeTableWord 32 (bits 0b00001010 0 0) = some .hallRead := by decide
theorem test_decode_attach : decodeTableWord 32 (bits 0b00001011 0b00011001 0) = some (.attach 25) := by decide
theorem test_decode_start : decodeTableWord 32 (bits 0b00001100 0b00100100 0) = some (.start 36) := by decide
theorem test_decode_busy : decodeTableWord 32 (bits 0b00001101 0b00100111 0) = some (.busy 39) := by decide
theorem test_decode_end : decodeTableWord 32 (bits 0b00001110 0b00011001 0) = some (.endConv 25) := by decide
theorem test_decode_getCfg : decodeTableWord 32 (bits 0b00001111 0 0b101) = some (.getCfg 5) := by decide
theorem test_decode_getAtten :
    decodeTableWord 32 (bits 0b00010000 0b00100010 0) = some (.getAtten 34) := by decide

/-- Words that spell no command (95, 2.2). -/
theorem test_decode_refuses :
    [0x00000000, 0xFFFFFFFF, 0x11000000, 0x02220001, 0x02000000, 0x0B220001, 0x0C228000, 0x01070001,
      0x0A010000, 0x0A000001, 0x03220008, 0x08000004, 0x08010003, 0x09220006, 0x0F000006, 0x0F000007,
      0x0F000008, 0x0F220000].all (fun w => (decodeTableWord 32 w).isNone) = true := by decide

/-! ### The fixtures REF-A and REF-B (00_scope.md, section 3) -/

/-- `PINMAP` of both fixtures, but for the bus of pin 35. -/
def table (bus35 : Nat) : Vector (Option Nat) 256 :=
  ((((((Vector.replicate 256 none).set 34 (some 0)).set 35 (some bus35)).set 36 (some 0)).set 39
    (some 0)).set 25 (some 1))

def platform (bus35 : Nat) (unread : UnreadPolicy) (range : RangePolicy) : Platform where
  pinTable := table bus35
  hallP := 36
  hallN := 39
  unread := unread
  range := range
  hall := .difference

/-- REF-A: pins 34 and 35 on two buses. -/
def refA : Platform := platform 1 .hold .reject
/-- REF-B: pins 34 and 35 on one bus. -/
def refB : Platform := platform 0 .hold .reject
/-- REF-B under EVICT. -/
def refBEvict : Platform := platform 0 .evict .reject
/-- REF-A under CLAMP. -/
def refAClamp : Platform := platform 1 .hold .clamp

abbrev resetA : State := State.resetOn 2 refA
abbrev resetB : State := State.resetOn 2 refB

/-- The reset state on `P` with pins `p` and `q` attached, and bus 0 holding a conversion of `p` at the
reset configuration: its result 77 latched if `d` is set. -/
def conv (P : Platform) (p q : Pin) (d : Bool) : State :=
  (((State.resetOn 2 P).setPin p ⟨true, false, .db0, false⟩).setPin q ⟨true, false, .db0, false⟩).setBus 0
    ⟨true, p, d, 77, ⟨12, 12, 8, 1, 1, .db11, false⟩⟩

/-- `conv` with the port in state `x` and the agenda `ts`. -/
def held (P : Platform) (p q : Pin) (d : Bool) (x : Seq) (ts : List Turn) : State :=
  { conv P p q d with seq := x, turns := ts }

/-- The status and value of the response of the next step, where it answers one. -/
def answer (o : Host.Outcome State Fault Refusal) : Option Response :=
  match o with
  | .next t => t.rsp
  | _ => none

/-- The step that accepts the word `w` at a free port. -/
def present (s : State) (w : Nat) : Host.Outcome State Fault Refusal := step (s.withFetchWord 32 w)

/-- A check of the state a step answers. -/
def after (o : Host.Outcome State Fault Refusal) (f : State → Bool) : Bool :=
  match o with
  | .next t => f t
  | _ => false

/-! ### The commands, at most two steps each (95, 2.3 to 2.10) -/

theorem test_read_claims_and_waits : after (present resetA 0x01220000) (fun t =>
    t.rsp = none ∧ t.seq = .wait 34 ∧ t.pinState 34 = some .running) = true := by decide
theorem test_read_busy_keeps_attach : after (present (conv refB 34 34 false) 0x01230000) (fun t =>
    t.rsp = some ⟨.busBusy, 0⟩ ∧ t.pinState 35 = some .idle ∧ (t.bus 0).owner = 34) = true := by decide
theorem test_setRes_10 : after (present resetA 0x0300000A) (fun t =>
    t.rsp = some ⟨.ok, 0⟩ ∧ t.cfg.res = 10 ∧ t.cfg.width = 12) = true := by decide
theorem test_setRes_17 : after (present resetA 0x03000011) (fun t =>
    t.rsp = some ⟨.invalidConfig, 0⟩ ∧ t.cfg = .reset) = true := by decide
theorem test_setWidth_8 : after (present resetA 0x04000008) (fun t =>
    t.rsp = some ⟨.invalidConfig, 0⟩ ∧ t.cfg.width = 12) = true := by decide
theorem test_setWidth_8_clamp : after (present (State.resetOn 2 refAClamp) 0x04000008) (fun t =>
    t.rsp = some ⟨.ok, 0⟩ ∧ t.cfg.width = 9 ∧ t.cfg.res = 12) = true := by decide
theorem test_setCycles_256 : answer (present resetA 0x05000100) = some ⟨.invalidConfig, 0⟩ := by decide
theorem test_setCycles_255 : after (present resetA 0x050000FF) (fun t => t.cfg.cycles = 255) = true := by
  decide
theorem test_setSamples_4 : after (present resetA 0x06000004) (fun t => t.cfg.samples = 4) = true := by
  decide
theorem test_setSamples_0_clamp : after (present (State.resetOn 2 refAClamp) 0x06000000) (fun t =>
    t.rsp = some ⟨.ok, 0⟩ ∧ t.cfg.samples = 1) = true := by decide
theorem test_setClkDiv_2 : after (present resetA 0x07000002) (fun t => t.cfg.clkdiv = 2) = true := by decide
theorem test_setClkDiv_65535_clamp : after (present (State.resetOn 2 refAClamp) 0x0700FFFF) (fun t =>
    t.cfg.clkdiv = 255) = true := by decide
theorem test_setAtten : after (present resetA 0x08000001) (fun t =>
    t.rsp = some ⟨.ok, 0⟩ ∧ t.cfg.gatten = .db2p5 ∧ t.lookup 35 = .db2p5) = true := by decide
theorem test_setPinAtten : after (present resetA 0x09220002) (fun t =>
    t.rsp = some ⟨.ok, 0⟩ ∧ t.pin 34 = ⟨true, true, .db6, false⟩ ∧ t.lookup 35 = .db11) = true := by decide
theorem test_setPinAtten_invalid : after (present resetA 0x09070002) (fun t =>
    t.rsp = some ⟨.invalidPin, 0⟩ ∧ t.pin 7 = .reset) = true := by decide
theorem test_hallRead_claims : after (present resetA 0x0A000000) (fun t =>
    t.rsp = none ∧ t.seq = .hallWaitP ∧ t.pinState 36 = some .running ∧ t.pinState 39 = some .idle ∧
    (t.bus 0).snap.hall = true) = true := by decide
theorem test_hallRead_busy : after (present (conv refA 34 34 false) 0x0A000000) (fun t =>
    t.rsp = some ⟨.busBusy, 0⟩ ∧ t.pinState 36 = some .unattached) = true := by decide
theorem test_attach : after (present resetA 0x0B220000) (fun t =>
    t.rsp = some ⟨.ok, 1⟩ ∧ t.pinState 34 = some .idle) = true := by decide
theorem test_attach_invalid : answer (present resetA 0x0B070000) = some ⟨.invalidPin, 0⟩ := by decide
theorem test_start_tests_the_bus_first :
    answer (present (conv refB 34 34 false) 0x0C230000) = some ⟨.busBusy, 0⟩ := by decide
theorem test_start_evicts : after (present (conv refBEvict 34 35 true) 0x0C230000) (fun t =>
    t.rsp = some ⟨.ok, 1⟩ ∧ t.pinState 34 = some .idle ∧ t.pinState 35 = some .running) = true := by decide
theorem test_busy_running : answer (present (conv refB 34 34 false) 0x0D220000) = some ⟨.ok, 1⟩ := by decide
theorem test_busy_done : answer (present (conv refB 34 34 true) 0x0D220000) = some ⟨.ok, 0⟩ := by decide
theorem test_end_unattached : answer (present resetA 0x0E220000) = some ⟨.notAttached, 0⟩ := by decide
theorem test_end_waits : after (present (conv refB 34 34 true) 0x0E220000) (fun t =>
    t.rsp = none ∧ t.seq = .wait 34) = true := by decide
theorem test_getCfg_cycles : answer (present resetA 0x0F000002) = some ⟨.ok, 8⟩ := by decide
theorem test_getCfg_gatten : answer (present resetA 0x0F000005) = some ⟨.ok, 3⟩ := by decide
theorem test_getAtten_default : answer (present resetA 0x10220000) = some ⟨.ok, 3⟩ := by decide
theorem test_getAtten_override :
    answer (present (resetA.setPin 34 ⟨true, true, .db6, false⟩) 0x10220000) = some ⟨.ok, 2⟩ := by decide
theorem test_illegal_word : after (present resetA 0x01070001) (fun t =>
    t.rsp = some ⟨.illegalCmd, 0⟩ ∧ t.seq = .idle) = true := by decide

/-! ### The steps that are no command -/

/-- END of a DONE pin responds with its result and frees the bus (95, 2.5, last row). -/
theorem test_resume : after (step (held refB 35 35 true (.wait 35) [])) (fun t =>
    t.rsp = some ⟨.ok, 77⟩ ∧ t.pinState 35 = some .idle ∧ t.doneOut 0 = false) = true := by decide
/-- END of an IDLE pin never responds (95, 2.5). -/
theorem test_resume_stuck : after (step (held refB 34 35 true (.wait 35) [])) (fun t =>
    t.rsp = none ∧ t.seq = .wait 35 ∧ t.pinState 34 = some .done) = true := by decide
/-- `HallResumeP` on one bus (95, S8). -/
theorem test_hallResumeP : after (step (held refA 36 39 true (.hallWaitP) [])) (fun t =>
    t.rsp = none ∧ t.seq = .hallWaitN 77 ∧ t.pinState 36 = some .idle ∧
    t.pinState 39 = some .running) = true := by decide
/-- `HallResumeN` (95, 2.9): 177 - 77 = 100, a negative difference as the word S8 gives, and the two
extreme readings at width 9 and resolution 16. -/
theorem test_hallResumeN :
    answer (step (held refA 39 36 true (.hallWaitN 177) [])) = some ⟨.ok, 100⟩ ∧
    hallCombine .difference 2000 2100 = 0xFFFFFF9C ∧
    let n : Snapshot := ⟨16, 9, 8, 1, 1, .db11, true⟩
    hallCombine .difference (convert n [511]) (convert n [0]) = 0x0000FF80 ∧
    hallCombine .difference (convert n [0]) (convert n [511]) = 0xFFFF0080 := by decide
/-- `Complete(0)` with four draws at width 10 and resolution 12 (95, P1, step 13). -/
theorem test_complete :
    convert ⟨12, 10, 8, 4, 1, .db2p5, false⟩
      (acquire ⟨true, 34, false, 0, ⟨12, 10, 8, 4, 1, .db2p5, false⟩⟩ [1000, 1001, 1003, 1003] 0) = 4004 := by
  decide
theorem test_complete_sets_done :
    after (step (held refA 34 34 false .idle [.engine 0 [3000]])) (fun t =>
      (t.bus 0).result = 3000 ∧ t.doneOut 0 = true ∧ t.pinState 34 = some .done) = true := by decide
/-- Averages of 95, 2.6. -/
theorem test_average :
    [[2748], [10, 11], [7, 8], [1, 2, 2], [0, 0, 1], [4095, 0], [100, 101, 102, 103],
      [2000, 2001, 2003, 2004], [1000, 1001, 1003, 1003]].map average =
    [2748, 10, 7, 1, 0, 2047, 101, 2002, 1001] := by decide
/-- Rescaled values of 95, 2.7. -/
theorem test_rescale :
    [(4095, 12, 12), (4095, 12, 10), (4095, 12, 1), (2047, 12, 1), (4095, 12, 16), (2748, 12, 8),
      (2748, 12, 14), (1, 12, 11), (511, 9, 16), (1023, 10, 9), (2047, 11, 16)].map
      (fun x => rescale x.1 x.2.1 x.2.2) =
    [4095, 1023, 1, 0, 65520, 171, 10992, 0, 65408, 511, 65504] := by decide
/-- A reset in mid-flight (95, 2.11). -/
theorem test_reset_input :
    after (step (held refA 34 34 true (.wait 34) [.reset])) (fun t =>
      t.rsp = none ∧ t.seq = .idle ∧ t.pinState 34 = some .unattached ∧ t.doneOut 0 = false) = true := by
  decide
/-- With no turn listed a running conversion completes, though the port waits (R12, R103). -/
theorem test_unlisted_complete :
    after (step (held refA 34 34 false (.wait 34) [])) (fun t =>
      t.pinState 34 = some .done ∧ t.seq = .wait 34) = true := by decide
theorem test_altmode_turn :
    after (step { resetA with turns := [.altmode 34] }) (fun t => (t.pin 34).altmode) = true := by decide

/-! ### Witnesses: a platform the spec admits, and states of the invariant -/

theorem platformOk_A : resetA.PlatformOk := by constructor <;> decide
theorem platformOk_B : resetB.PlatformOk := by constructor <;> decide
theorem platformOk_BEvict : (State.resetOn 2 refBEvict).PlatformOk := by constructor <;> decide

theorem cfgLegal_reset : CfgFile.reset.Legal := by constructor <;> decide

/-- The reset state of an admitted platform, with any agenda, meets the invariant. -/
theorem inv_resetOn {P : Platform} (h : (State.resetOn 2 P).PlatformOk) (ts : List Turn) :
    ({ State.resetOn 2 P with turns := ts } : State).Inv where
  platform := { h with }
  cfg := cfgLegal_reset
  buses b := by
    have e : ({ State.resetOn 2 P with turns := ts } : State).bus b = .reset := State.bus_resetOn 2 P b
    constructor <;> rw [e] <;> simp [BusRec.reset]
  attached_valid p h := by
    have e : ({ State.resetOn 2 P with turns := ts } : State).pin p = .reset := State.pin_resetOn 2 P p
    rw [e] at h; cases h
  invalid_reset p _ := by
    have e : ({ State.resetOn 2 P with turns := ts } : State).pin p = .reset := State.pin_resetOn 2 P p
    rw [e]; exact PinEntry.atReset_reset
  seq := trivial

/-- The state `conv` of an admitted platform meets the invariant, with any agenda and any state of the
port that R35 allows. -/
theorem inv_conv {P : Platform} {p q : Pin} {d : Bool} {x : Seq} {ts : List Turn}
    (h : (State.resetOn 2 P).PlatformOk) (hp : (State.resetOn 2 P).pinMap p = some 0)
    (hq : (State.resetOn 2 P).validPin q)
    (hx : (held P p q d x ts).SeqOk) :
    (held P p q d x ts).Inv := by
  have hm : ∀ r, (held P p q d x ts).pinMap r =
      (State.resetOn 2 P).pinMap r := fun r => State.pinMap_congr rfl rfl r
  have hpin : ∀ r, (held P p q d x ts).pin r =
      if r = q then ⟨true, false, .db0, false⟩
      else if r = p then ⟨true, false, .db0, false⟩ else .reset := fun r => by
    show (((State.resetOn 2 P).setPin p _).setPin q _).pin r = _
    rw [State.pin_setPin, State.pin_setPin, State.pin_resetOn]
  have hbus : ∀ b, (held P p q d x ts).bus b =
      if b = 0 then ⟨true, p, d, 77, ⟨12, 12, 8, 1, 1, .db11, false⟩⟩ else .reset := fun b => by
    show (conv P p q d).bus b = _
    unfold conv
    rw [State.bus_setBus]
    by_cases hb : b = 0
    · simp [hb, State.resetOn]
    · simp [hb]
  refine ⟨⟨h.nbus_pos, h.hallP_valid, h.hallN_valid, h.hall_ne⟩, cfgLegal_reset, ?_, ?_, ?_, hx⟩
  · intro b
    by_cases hb : b = 0
    · subst hb
      constructor <;> simp only [hbus, if_true]
      · simp
      · intro _; rw [hm]; exact hp
      · intro _; rw [hpin]; split <;> simp
      · intro _; constructor <;> decide
      · intro _; decide
    · constructor <;> simp only [hbus, if_neg hb] <;> simp [BusRec.reset]
  · intro r hr
    unfold State.validPin
    rw [hm]
    rw [hpin] at hr
    split at hr
    · rename_i e; rw [e]; exact hq
    · split at hr
      · rename_i e; rw [e, hp]; rfl
      · cases hr
  · intro r hr
    rw [hm] at hr
    rw [hpin]
    have h1 : r ≠ q := fun e => by rw [e] at hr; simp [State.validPin, hr] at hq
    have h2 : r ≠ p := fun e => by rw [e, hp] at hr; cases hr
    rw [if_neg h1, if_neg h2]
    exact PinEntry.atReset_reset

/-- What the host has still to present does not enter the invariant. -/
theorem inv_commands {s : State} (h : s.Inv) (ws : List Word) : ({ s with commands := ws } : State).Inv where
  platform := { h.platform with }
  cfg := h.cfg
  buses b := { h.buses b with }
  attached_valid := h.attached_valid
  invalid_reset := h.invalid_reset
  seq := h.seq

/-- Every state has a step. -/
theorem steps (s : State) : ∃ t, step s = .next t := by
  obtain ⟨t, h, _⟩ := step_stepped s
  exact ⟨t, h⟩

/-! ### Witnesses, one theorem per obligation that has hypotheses, with its clauses -/

/-- Pin 34 attached and idle on `P`, nothing in flight. -/
def idle34 (P : Platform) : State := (State.resetOn 2 P).setPin 34 ⟨true, true, .db6, false⟩

theorem witness_DecodeOfEncode : (Instr.getCfg 5).wf = true ∧ Instr.hallRead.wf = true := by decide
theorem witness_EncodeOfDecode :
    decode 0x0F000005 = .ok (.getCfg 5) ∧ decode 0x01FF0000 = .ok (.read 255) := by decide
/-- A word for each cause, at the boundaries of the opcode range. -/
theorem witness_IllegalWordIsAnswered_causes :
    opField 0 = 0x00 ∧ (opField 0x11000000).toNat = 0x11 ∧ opField 0x02220001 = 0x02 ∧
    (∃ r ∈ opTable, opField r.pattern = opField 0x0B220001 ∧ 0x0B220001 &&& r.mask ≠ r.pattern) ∧
    opField 0x0F000006 = 0x0F ∧ 5 < (idxField 0x0F000006).toNat := by decide
theorem witness_StepRunsTheDecodedCommand :
    resetA.nextTurn = .host ∧ ({ resetA with commands := [0x0B220000] } : State).nextTurn = .host ∧
    resetA.seq = .idle ∧ decode 0x0B220000 = .ok (.attach 34) ∧
    decodeTableWord 32 0x0A000000 = some .hallRead := by decide
theorem witness_IllegalWordIsAnswered :
    ({ resetA with commands := [0x02220005] } : State).nextTurn = .host ∧ resetA.seq = .idle ∧
    decode 0x02220005 = .error .reservedOpcode ∧ ∀ i, decode 0x02220005 ≠ .ok i :=
  ⟨by decide, by decide, by decide, fun i h => by
    rw [show decode 0x02220005 = .error .reservedOpcode by decide] at h; cases h⟩
theorem witness_StepKeepsTheParameters : ∃ t, step resetA = .next t := steps _
/-- Both a step that frees the port and one that does not. -/
theorem witness_HeldPortAcceptsNothing :
    (held refB 35 35 true (.wait 35) []).PortHeld ∧ (held refB 34 35 true (.wait 35) []).PortHeld ∧
    after (step (held refB 35 35 true (.wait 35) [])) (fun t => t.rsp ≠ none) = true ∧
    after (step (held refB 34 35 true (.wait 35) [])) (fun t => t.rsp = none) = true := by decide
theorem witness_ResetInputResets : (held refA 34 34 true (.wait 34) [.reset]).nextTurn = .reset := by decide
theorem witness_CollaboratorSetsAltmode :
    ({ resetA with turns := [.altmode 34] } : State).nextTurn = .altmode 34 ∧ resetA.validPin 34 := by decide
/-- REF-A with the second Hall pin on the other bus: the Hall pins are 36 on bus 0 and 25 on bus 1. -/
def refHall2 : Platform := { refA with hallN := 25 }
theorem platformOk_Hall2 : (State.resetOn 2 refHall2).PlatformOk := by constructor <;> decide
/-- A HALLREAD waits for its first conversion, which is done: on one bus (REF-A) and on two. -/
theorem inv_hallWaitP : (held refA 36 39 true .hallWaitP []).Inv := by
  refine inv_conv platformOk_A (by decide) (by decide) ⟨.inr (by decide), by decide, ?_⟩
  intro b h1 h2
  have : (held refA 36 39 true .hallWaitP []).pinMap 39 = (held refA 36 39 true .hallWaitP []).pinMap 36 := by
    decide
  exact absurd (this ▸ h1) h2
theorem inv_hallWaitP_two_buses : (held refHall2 36 25 true .hallWaitP []).Inv := by
  refine inv_conv platformOk_Hall2 (by decide) (by decide) ⟨.inr (by decide), by decide, ?_⟩
  intro b h1 _
  have e : (held refHall2 36 25 true .hallWaitP []).pinMap 25 = some 1 := by decide
  obtain rfl : 1 = b := Option.some.inj (e.symm.trans h1)
  decide
theorem inv_hallWaitN : (held refA 39 36 true (.hallWaitN 177) []).Inv :=
  inv_conv platformOk_A (by decide) (by decide) (show State.Owns _ _ from .inr (by decide))
/-- Under EVICT, pin 34 done and unread, and START of pin 35 presented. -/
def evicting : State := { held refBEvict 34 35 true .idle [] with commands := [0x0C230000] }

/-- Two states that differ in `altmode`: a command; and `Resume`, `HallResumeP`, `HallResumeN` and
`Complete`. -/
theorem witness_AltmodeIsNeverRead :
    (∀ s : State, s.SameButAltmode (s.setAltmode 34)) ∧
    ((idle34 refA).pin 34).altmode ≠ (((idle34 refA).setAltmode 34).pin 34).altmode ∧
    (∃ t, exec (.start 34) (idle34 refA) = .next t) ∧
    answer (step (held refA 34 34 true (.wait 34) [])) = some ⟨.ok, 77⟩ ∧
    after (step (held refA 36 39 true .hallWaitP [])) (fun t => t.seq = .hallWaitN 77) = true ∧
    answer (step (held refA 39 36 true (.hallWaitN 177) [])) = some ⟨.ok, 100⟩ ∧
    after (step (held refA 34 34 false .idle [.engine 0 [5]])) (fun t => t.doneOut 0) = true :=
  ⟨fun s => State.sameButAltmode_setAltmode s 34, by decide, ⟨_, rfl⟩, by decide, by decide, by decide,
    by decide⟩
theorem witness_StepKeepsTheInvariant :
    (held refA 36 39 true .hallWaitP []).Inv ∧ ∃ t, step (held refA 36 39 true .hallWaitP []) = .next t :=
  ⟨inv_hallWaitP, steps _⟩
theorem witness_AtMostOneOwnerPerBus :
    (conv refB 34 35 true).pinMap 34 = some 0 ∧ (conv refB 34 35 true).pinMap 35 = some 0 ∧
    (conv refB 34 35 true).Owns 34 := ⟨by decide, by decide, .inr (by decide)⟩
theorem inv_held_idle (P : Platform) (h : (State.resetOn 2 P).PlatformOk)
    (h4 : (State.resetOn 2 P).pinMap 34 = some 0) (h5 : (State.resetOn 2 P).validPin 35) (d : Bool)
    (ts : List Turn) : (held P 34 35 d .idle ts).Inv := inv_conv h h4 h5 trivial
theorem inv_evicting : evicting.Inv :=
  inv_commands (inv_held_idle _ platformOk_BEvict (by decide) (by decide) _ _) _
theorem inv_held_wait : (held refB 34 35 true (.wait 34) []).Inv :=
  inv_conv platformOk_B (by decide) (by decide)
    ⟨show (State.resetOn 2 refB).validPin 34 by decide, by decide⟩
/-- A state of the invariant with a pin in each of the four states; the running one and its engine's
turn; the done one at the retrieval, and where another pin's START evicts it. -/
theorem witness_PinStateMachine :
    (held refB 34 35 false .idle [.engine 0 []]).Inv ∧ (held refB 34 35 true (.wait 34) []).Inv ∧
    evicting.Inv ∧ (held refB 34 35 false .idle [.engine 0 []]).pinState 36 = some .unattached ∧
    (held refB 34 35 false .idle [.engine 0 []]).pinState 35 = some .idle ∧
    (held refB 34 35 false .idle [.engine 0 []]).pinState 34 = some .running ∧
    (held refB 34 35 true (.wait 34) []).pinState 34 = some .done ∧
    evicting.pinState 34 = some .done ∧
    after (step evicting) (fun t => t.pinState 34 = some .idle ∧ t.pinState 35 = some .running) = true :=
  ⟨inv_held_idle _ platformOk_B (by decide) (by decide) _ _, inv_held_wait, inv_evicting,
    by decide, by decide, by decide, by decide, by decide, by decide⟩
/-- An override that a SETPINATTEN of its pin overwrites, and a running conversion. -/
theorem witness_AttachmentOverrideAndConversionLast :
    (idle34 refA).nextTurn ≠ .reset ∧ (∃ t, step (idle34 refA) = .next t) ∧
    ((idle34 refA).pin 34).attached = true ∧ ((idle34 refA).pin 34).ovrValid = true ∧
    after (present (idle34 refA) 0x09220001) (fun t => (t.pin 34).ovrLevel = .db2p5) = true ∧
    (held refB 34 35 false .idle []).Inv ∧
    (held refB 34 35 false .idle []).pinState 34 = some .running :=
  ⟨by decide, steps _, by decide, by decide, by decide,
    inv_held_idle _ platformOk_B (by decide) (by decide) _ _, by decide⟩
/-- The release by `Resume`, and the busy bus that a HALLREAD's two resume steps release. -/
theorem witness_HoldReleasesOnlyByRetrieval :
    (held refB 34 35 true (.wait 34) []).Inv ∧ refB.unread = .hold ∧
    (held refB 34 35 true (.wait 34) []).nextTurn = .host ∧
    ((held refB 34 35 true (.wait 34) []).bus 0).busy = true ∧
    after (step (held refB 34 35 true (.wait 34) [])) (fun t => !(t.bus 0).busy) = true ∧
    (held refHall2 36 25 true .hallWaitP []).Inv ∧ refHall2.unread = .hold ∧
    after (step (held refHall2 36 25 true .hallWaitP [])) (fun t => !(t.bus 0).busy) = true ∧
    (held refA 39 36 true (.hallWaitN 177) []).Inv ∧
    after (step (held refA 39 36 true (.hallWaitN 177) [])) (fun t => !(t.bus 0).busy) = true :=
  ⟨inv_held_wait, by decide, by decide, by decide, by decide, inv_hallWaitP_two_buses, by decide, by decide,
    inv_hallWaitN, by decide⟩
/-- A step at which the output rises; and one of each kind at which it falls: `Resume`, `HallResumeP` on
one bus, and a START that evicts. -/
theorem witness_CompletionOutputRisesAndFalls :
    (held refB 34 35 false .idle [.engine 0 [9]]).Inv ∧
    after (step (held refB 34 35 false .idle [.engine 0 [9]])) (fun t => t.doneOut 0) = true ∧
    (held refB 34 35 true (.wait 34) []).Inv ∧
    after (step (held refB 34 35 true (.wait 34) [])) (fun t => !t.doneOut 0 ∧ !(t.bus 0).busy) = true ∧
    (held refA 36 39 true .hallWaitP []).Inv ∧
    after (step (held refA 36 39 true .hallWaitP [])) (fun t => !t.doneOut 0 ∧ (t.bus 0).owner = 39) = true ∧
    evicting.Inv ∧ evicting.platform.unread = .evict ∧ evicting.doneOut 0 = true ∧
    (evicting.bus 0).owner = 34 ∧
    after (step evicting) (fun t => !t.doneOut 0 ∧ (t.bus 0).busy ∧ (t.bus 0).owner = 35) = true :=
  ⟨inv_held_idle _ platformOk_B (by decide) (by decide) _ _, by decide, inv_held_wait, by decide,
    inv_hallWaitP, by decide, inv_evicting, by decide, by decide, by decide, by decide⟩
/-- An ordinary failure, and a READ answered `BusBusy`. -/
theorem witness_FailingCommandChangesNothing :
    answer (present (conv refB 34 34 false) 0x0C230000) = some ⟨.busBusy, 0⟩ ∧
    answer (present (conv refB 34 34 false) 0x01230000) = some ⟨.busBusy, 0⟩ := by decide
/-- Each status, with a command it is answered to. -/
theorem witness_StatusCauses :
    resetB.PlatformOk ∧ answer (exec (.busy 7) resetB) = some ⟨.invalidPin, 0⟩ ∧
    answer (exec (.endConv 34) resetB) = some ⟨.notAttached, 0⟩ ∧
    answer (exec (.start 34) resetB) = some ⟨.notAttached, 0⟩ ∧
    answer (exec (.start 34) (conv refB 34 35 false)) = some ⟨.busBusy, 0⟩ ∧
    answer (exec .hallRead (conv refB 34 35 false)) = some ⟨.busBusy, 0⟩ ∧
    answer (exec (.setRes 17) resetB) = some ⟨.invalidConfig, 0⟩ :=
  ⟨platformOk_B, by decide, by decide, by decide, by decide, by decide, by decide⟩
theorem witness_ResponseValues :
    resetA.rsp = none ∧ answer (exec (.attach 7) resetA) = some ⟨.invalidPin, 0⟩ ∧
    answer (exec (.setRes 10) resetA) = some ⟨.ok, 0⟩ ∧ answer (exec (.attach 34) resetA) = some ⟨.ok, 1⟩ ∧
    answer (exec (.start 34) (idle34 refA)) = some ⟨.ok, 1⟩ ∧
    answer (exec (.busy 34) resetA) = some ⟨.ok, 0⟩ := by decide
/-- Two states that differ in every unspecified field of pin 34 and bus 0. -/
theorem witness_UnspecifiedFieldsAreUnobservable :
    ((resetA.setPin 34 ⟨false, false, .db6, false⟩).setBus 0
      ⟨false, 35, false, 99, ⟨3, 9, 1, 2, 3, .db6, true⟩⟩).Same resetA ∧ ∃ t, step resetA = .next t := by
  refine ⟨⟨rfl, ?_, rfl, ?_, rfl, rfl, rfl, rfl, rfl, rfl⟩, steps _⟩
  · intro p
    rw [State.pin_setBus, State.pin_setPin, State.pin_resetOn]
    split <;> exact ⟨rfl, rfl, rfl, by simp [PinEntry.reset]⟩
  · intro b
    rw [State.bus_setBus, State.bus_setPin, State.bus_resetOn]
    split <;> exact ⟨rfl, rfl, by simp [BusRec.reset], by simp [BusRec.reset]⟩
/-- A running bus of a state of the invariant, and a free bus, each with the turn of its agent. -/
theorem witness_CompleteLatchesTheResult :
    (held refB 34 35 false .idle [.engine 0 [5]]).nextTurn = .engine 0 [5] ∧
    ((held refB 34 35 false .idle [.engine 0 [5]]).bus 0).busy = true ∧
    ((held refB 34 35 false .idle [.engine 0 [5]]).bus 0).done = false ∧
    (held refB 34 35 false .idle [.engine 0 [5]]).Inv ∧
    (held refB 34 35 false .idle [.engine 1 [5]]).nextTurn = .engine 1 [5] ∧
    ((held refB 34 35 false .idle [.engine 1 [5]]).bus 1).busy = false :=
  ⟨by decide, by decide, by decide, inv_held_idle _ platformOk_B (by decide) (by decide) _ _, by decide,
    by decide⟩
/-- A record with two samples of width 9, and draws at both ends of the range. -/
def rec9 : BusRec := ⟨true, 34, false, 0, ⟨16, 9, 1, 2, 1, .db0, false⟩⟩
theorem witness_DrawsAreInRange :
    ([511, 0] : List RawSample).length = rec9.snap.samples.toNat ∧
    (∀ x ∈ ([511, 0] : List RawSample), x.toNat < 2 ^ rec9.snap.width.toNat) ∧
    ({ rec9 with snap := { rec9.snap with hall := true } } : BusRec).snap.hall = true :=
  ⟨by decide, by simp [rec9], rfl⟩
theorem witness_AverageIsTheTruncatedMean :
    rec9.snap.Legal ∧ List.replicate 255 4095 ≠ [] ∧ (List.replicate 255 4095).length ≤ 255 ∧
    (∀ x ∈ List.replicate 255 4095, x ≤ 4095) ∧ (∀ x ∈ List.replicate 255 4095, x ≤ 2 ^ 12 - 1) := by
  refine ⟨by constructor <;> decide, List.cons_ne_nil _ _, Nat.le_of_eq List.length_replicate, ?_, ?_⟩ <;> intro x hx <;>
    rw [List.eq_of_mem_replicate hx]
  decide
/-- Values at the ends of the ranges of width and resolution. -/
theorem witness_RescaleLaws :
    (511 ≤ 2 ^ 9 - 1 ∧ 9 ≤ 9 ∧ 9 ≤ 12 ∧ 1 ≤ 16 ∧ 16 ≤ 16) ∧ (4095 ≤ 2 ^ 12 - 1 ∧ 9 ≤ 12 ∧ 1 ≤ 1) ∧
    0 ≤ 12 ∧ 12 ≤ 12 ∧ 687 ≤ 688 := by decide
theorem witness_ResultFitsTheResolution :
    rec9.snap.Legal ∧ rec9.snap.width.toNat < rec9.snap.res.toNat := by
  refine ⟨by constructor <;> decide, by decide⟩
theorem witness_ResultIgnoresTheOtherLatchedFields :
    let q : BusRec := ⟨true, 35, true, 9, ⟨16, 9, 255, 2, 255, .db11, true⟩⟩
    rec9.snap.samples = q.snap.samples ∧ rec9.snap.width = q.snap.width ∧ rec9.snap.res = q.snap.res ∧
    rec9.snap.samples.toNat ≤ ([511, 0] : List RawSample).length := by decide
theorem witness_LookupPrefersTheOverride :
    ((idle34 refA).pin 34).ovrValid = true ∧ ((idle34 refA).pin 35).ovrValid = false ∧
    (idle34 refA).pinMap 34 = some 0 ∧ (idle34 refA).validPin 35 := by decide
theorem witness_SetAttenWritesTheDefault :
    ((idle34 refA).pin 34).ovrValid = true ∧ ((idle34 refA).pin 35).ovrValid = false := by decide
theorem witness_SetPinAttenOverridesOnePin : resetA.validPin 34 := by decide
theorem witness_GetAttenReadsTheLevel : resetA.validPin 34 := by decide
theorem witness_SettersWriteLegalOperands :
    ((1 : Imm).toNat = 1 ∧ (16 : Imm).toNat = 16) ∧ ((9 : Imm).toNat = 9 ∧ (12 : Imm).toNat = 12) ∧
    (255 : Imm).toNat = 255 := by decide
theorem witness_RejectingSettersChangeNothing :
    resetA.platform.range = .reject ∧ ¬ (1 ≤ (0 : Imm).toNat) ∧ ¬ ((17 : Imm).toNat ≤ 16) ∧
    ¬ (9 ≤ (8 : Imm).toNat) ∧ ¬ ((13 : Imm).toNat ≤ 12) ∧ ¬ ((256 : Imm).toNat ≤ 255) := by decide
theorem witness_ClampingSettersWriteTheBound :
    (State.resetOn 2 refAClamp).platform.range = .clamp ∧ (0 : Imm).toNat < 1 ∧ 16 < (17 : Imm).toNat ∧
    (8 : Imm).toNat < 9 ∧ 12 < (13 : Imm).toNat ∧ 255 < (256 : Imm).toNat := by decide
theorem witness_GetCfgReadsTheRegister : (0 : BitVec 3).toNat ≤ 5 ∧ (5 : BitVec 3).toNat ≤ 5 := by decide
theorem witness_SettersLeaveConversionsAlone :
    Instr.setRes 8 ∈ [Instr.setRes 8, .setWidth 8, .setCycles 8, .setSamples 8, .setClkDiv 8, .setAtten .db0,
      .setPinAtten 34 .db0] ∧ ∃ t, exec (.setRes 8) (conv refA 34 34 false) = .next t := ⟨by decide, _, rfl⟩
theorem witness_InvalidPinIsRefused :
    resetA.pinMap 7 = none ∧ Instr.start 7 ∈ [Instr.read 7, .setPinAtten 7 .db0, .getAtten 7, .attach 7,
      .start 7, .busy 7, .endConv 7] := by decide
theorem witness_AttachMarksThePin :
    resetA.validPin 34 ∧ (conv refB 34 34 false).validPin 34 ∧
    (conv refB 34 34 false).pinState 34 ≠ some .unattached := by decide
theorem witness_BusFreeRule :
    (conv refB 34 34 false).platform.unread = .hold ∧ (conv refBEvict 34 35 true).platform.unread = .evict ∧
    ((conv refB 34 34 false).bus 0).busy = true ∧ ((conv refB 34 34 false).bus 0).done = false ∧
    ((conv refB 34 34 false).bus 0).owner = 34 := by decide
theorem witness_StartClaimsAFreeBus :
    (idle34 refA).pinMap 34 = some 0 ∧ (idle34 refA).busFree 0 34 = true ∧
    ((idle34 refA).pin 34).attached = true := by decide
/-- The bus taken, with the pin unattached; and the bus free, with the pin unattached. -/
theorem witness_StartIsRefused :
    (conv refB 34 34 false).pinMap 35 = some 0 ∧ (conv refB 34 34 false).busFree 0 35 = false ∧
    ((conv refB 34 34 false).pin 35).attached = false ∧ resetB.pinMap 35 = some 0 ∧
    resetB.busFree 0 35 = true ∧ (resetB.pin 35).attached = false := by decide
/-- A pin in each of the four states. -/
theorem witness_BusyReportsRunning :
    (conv refB 34 35 false).validPin 34 ∧ (conv refB 34 35 false).pinState 34 = some .running ∧
    (conv refB 34 35 true).pinState 34 = some .done ∧ (conv refB 34 35 true).pinState 35 = some .idle ∧
    (conv refB 34 35 true).pinState 36 = some .unattached := by decide
theorem witness_EndWaitsForThePin :
    (idle34 refA).validPin 34 ∧ ((idle34 refA).pin 34).attached = true ∧ (idle34 refA).validPin 35 ∧
    ((idle34 refA).pin 35).attached = false := by decide
theorem witness_EndDeliversTheResult :
    (conv refA 34 34 true).pinMap 34 = some 0 ∧ (conv refA 34 34 true).pinState 34 = some .done ∧
    (conv refA 34 34 true).nextTurn = .host := by decide
/-- An order in which every conversion agent and the host port move again and again. -/
def everyAgent (n : Nat) : Turn := if n % 2 = 0 then .host else .engine (n / 2).unpair.1 []
theorem weaklyFair_everyAgent (s : State) : s.WeaklyFair everyAgent where
  complete n b _ := by
    have := Nat.right_le_pair b n
    refine ⟨2 * Nat.pair b n + 1, by omega, .inr ⟨[], ?_⟩⟩
    have h1 : (2 * Nat.pair b n + 1) % 2 = 1 := by omega
    have h2 : (2 * Nat.pair b n + 1) / 2 = Nat.pair b n := by omega
    simp [everyAgent, h1, h2]
  resume n _ := ⟨2 * n, by omega, .inr (by simp [everyAgent])⟩
/-- The listed turns; a converting bus and an enabled resume step with none listed; and a command of each
of the three kinds that holds the port, with a fair order without a reset. -/
theorem witness_EnabledStepsFireAndBlockingCommandsRespond :
    ((held refA 34 34 false .idle [.engine 0 [5], .host]).pinMap 34 = some 0 ∧
      (held refA 34 34 false .idle [.engine 0 [5], .host]).pinState 34 = some .running ∧
      (held refA 34 34 false .idle [.engine 0 [5], .host]).turns = [.engine 0 [5], .host]) ∧
    (held refA 34 34 false (.wait 34) []).converting 0 = true ∧
    ((held refA 34 34 true (.wait 34) []).awaited = some 34 ∧
      (held refA 34 34 true (.wait 34) []).pinState 34 = some .done) ∧
    ((held refB 34 35 false .idle []).Inv ∧ (held refB 34 35 false .idle []).Owns 34 ∧
      exec (.endConv 34) (held refB 34 35 false .idle []) = .next (held refB 34 35 false (.wait 34) []) ∧
      (held refB 34 35 false (.wait 34) []).PortHeld) ∧
    (resetB.Inv ∧ after (exec (.read 34) resetB) (fun t => t.PortHeld) = true ∧
      after (exec .hallRead resetB) (fun t => t.PortHeld) = true) ∧
    (∀ s : State, s.WeaklyFair everyAgent) ∧ ∀ n, everyAgent n ≠ .reset := by
  refine ⟨by decide, by decide, by decide, ⟨inv_held_idle _ platformOk_B (by decide) (by decide) _ _,
    .inl (by decide), rfl, by decide⟩, ⟨inv_resetOn platformOk_B [], by decide, by decide⟩,
    weaklyFair_everyAgent, fun n => ?_⟩
  unfold everyAgent
  split <;> simp
/-- The pin done, the pin still running, and its agent's turn in a state of the invariant. -/
theorem witness_ResumeRespondsWhenDone :
    (held refB 34 35 true (.wait 34) []).nextTurn = .host ∧
    (held refB 34 35 true (.wait 34) []).seq = .wait 34 ∧
    (held refB 34 35 true (.wait 34) []).pinMap 34 = some 0 ∧
    (held refB 34 35 true (.wait 34) []).pinState 34 = some .done ∧
    (held refA 34 34 false (.wait 34) [.host]).nextTurn = .host ∧
    (held refA 34 34 false (.wait 34) [.host]).seq = .wait 34 ∧
    (held refA 34 34 false (.wait 34) [.host]).pinState 34 ≠ some .done ∧
    (held refB 34 35 false .idle [.engine 0 [9]]).Inv ∧
    (held refB 34 35 false .idle [.engine 0 [9]]).pinState 34 ≠ some .done ∧
    after (step (held refB 34 35 false .idle [.engine 0 [9]])) (fun t => t.pinState 34 = some .done) = true :=
  ⟨by decide, by decide, by decide, by decide, by decide, by decide, by decide,
    inv_held_idle _ platformOk_B (by decide) (by decide) _ _, by decide, by decide⟩
theorem witness_StuckPortStaysStuck :
    (held refB 34 35 false .idle [.engine 0 [1], .altmode 35]).pinState 35 = some .idle ∧
    ∀ x ∈ (held refB 34 35 false .idle [.engine 0 [1], .altmode 35]).turns, x ≠ .reset := by decide
theorem witness_EvictionLosesTheResult :
    (conv refBEvict 34 35 true).platform.unread = .evict ∧ (conv refBEvict 34 35 true).pinMap 34 = some 0 ∧
    (conv refBEvict 34 35 true).pinMap 35 = some 0 ∧ (34 : Pin) ≠ 35 ∧
    (conv refBEvict 34 35 true).pinState 34 = some .done ∧
    ((conv refBEvict 34 35 true).pin 35).attached = true := by decide
theorem witness_ReadAttachesAndClaims : resetA.pinMap 34 = some 0 ∧ resetA.busFree 0 34 = true := by decide
theorem witness_FailedReadKeepsTheAttach :
    (conv refB 34 34 false).pinMap 35 = some 0 ∧ (conv refB 34 34 false).busFree 0 35 = false ∧
    (conv refB 34 34 false).pinMap 7 = none := by decide
theorem witness_ReadDeliversTheConversion :
    let s : State := { resetA with turns := [.engine 0 [4095], .host] }
    s.pinMap 34 = some 0 ∧ s.busFree 0 34 = true ∧ s.cfg.Legal ∧
    ([4095] : List RawSample).length = s.cfg.samples.toNat ∧
    (∀ x ∈ ([4095] : List RawSample), x.toNat < 2 ^ s.cfg.width.toNat) ∧
    s.turns = [.engine 0 [4095], .host] :=
  ⟨by decide, by decide, cfgLegal_reset, by decide, List.forall_mem_singleton.mpr (by decide), rfl⟩
theorem witness_HallReadClaimsTheFirstPin :
    resetA.pinMap resetA.platform.hallP = some 0 ∧ resetA.pinMap resetA.platform.hallN = some 0 ∧
    resetA.busFree 0 resetA.platform.hallP = true ∧ resetA.busFree 0 resetA.platform.hallN = true ∧
    resetA.platform.hallP ≠ resetA.platform.hallN := by decide
theorem witness_HallReadIsRefused :
    (conv refA 34 34 false).pinMap (conv refA 34 34 false).platform.hallP = some 0 ∧
    (conv refA 34 34 false).pinMap (conv refA 34 34 false).platform.hallN = some 0 ∧
    (conv refA 34 34 false).busFree 0 (conv refA 34 34 false).platform.hallP = false := by decide
/-- The first conversion done, with the Hall pins on one bus and on two; and not done. -/
theorem witness_HallResumePClaimsTheSecondPin :
    (let s := held refA 36 39 true .hallWaitP []
     s.nextTurn = .host ∧ s.seq = .hallWaitP ∧ s.pinMap s.platform.hallP = some 0 ∧
     s.pinMap s.platform.hallN = some 0 ∧ s.pinState s.platform.hallP = some .done ∧ s.Inv) ∧
    (let s := held refHall2 36 25 true .hallWaitP []
     s.nextTurn = .host ∧ s.seq = .hallWaitP ∧ s.pinMap s.platform.hallP = some 0 ∧
     s.pinMap s.platform.hallN = some 1 ∧ s.pinState s.platform.hallP = some .done ∧ s.Inv) ∧
    (let s := held refA 36 39 false .hallWaitP [.host]
     s.nextTurn = .host ∧ s.seq = .hallWaitP ∧ s.pinState s.platform.hallP ≠ some .done) :=
  ⟨⟨by decide, by decide, by decide, by decide, by decide, inv_hallWaitP⟩,
    ⟨by decide, by decide, by decide, by decide, by decide, inv_hallWaitP_two_buses⟩, by decide⟩
/-- The second conversion done, and not done. -/
theorem witness_HallResumeNCombinesTheValues :
    (let s := held refA 39 36 true (.hallWaitN 177) []
     s.nextTurn = .host ∧ s.seq = .hallWaitN 177 ∧ s.pinMap s.platform.hallN = some 0 ∧
     s.pinState s.platform.hallN = some .done) ∧
    (let s := held refA 39 36 false (.hallWaitN 177) [.host]
     s.nextTurn = .host ∧ s.seq = .hallWaitN 177 ∧ s.pinState s.platform.hallN ≠ some .done) := by decide
/-- Values at both ends of the ranges of 1, 12 and 16 bits. -/
theorem witness_HallDifferenceIsExact :
    ((1 : Code).toNat ≤ 2 ^ 1 - 1 ∧ (0 : Code).toNat ≤ 2 ^ 1 - 1) ∧
    ((4095 : Code).toNat ≤ 2 ^ 12 - 1 ∧ (0 : Code).toNat ≤ 2 ^ 12 - 1) ∧
    ((0 : Code).toNat ≤ 2 ^ 16 - 1 ∧ (65535 : Code).toNat ≤ 2 ^ 16 - 1) := by decide
/-- The Hall pins on one bus, and on two. -/
theorem witness_HallReadDeliversTheDifference : ∀ x ∈ [(refA, 0), (refHall2, 1)],
    let s : State := { State.resetOn 2 x.1 with
      turns := [.engine 0 [0], .host, .engine x.2 [4095], .host] }
    s.pinMap s.platform.hallP = some 0 ∧ s.pinMap s.platform.hallN = some x.2 ∧
    s.busFree 0 s.platform.hallP = true ∧ s.busFree x.2 s.platform.hallN = true ∧
    s.platform.hallP ≠ s.platform.hallN ∧ s.platform.hall = .difference ∧ s.cfg.Legal ∧
    ([0] : List RawSample).length = s.cfg.samples.toNat ∧
    ([4095] : List RawSample).length = s.cfg.samples.toNat ∧
    (∀ x ∈ ([0] : List RawSample), x.toNat < 2 ^ s.cfg.width.toNat) ∧
    (∀ x ∈ ([4095] : List RawSample), x.toNat < 2 ^ s.cfg.width.toNat) ∧
    s.turns = [.engine 0 [0], .host, .engine x.2 [4095], .host] := by
  refine List.forall_mem_cons.mpr ⟨?_, List.forall_mem_singleton.mpr ?_⟩ <;>
  exact ⟨by decide, by decide, by decide, by decide, by decide, by decide, cfgLegal_reset,
    by decide, by decide, List.forall_mem_singleton.mpr (by decide), List.forall_mem_singleton.mpr (by decide),
    rfl⟩

end Sys2Proof.Tests
end

section
/-! SUPPORT. What every issue step and every step keep, derived from the inversions `Issued` and
`Stepped`: the parameters, the attached bit, the overrides and the buses whose conversion is running. -/

namespace Sys2Proof.Machine

/-! ### The collaborator's step changes `altmode` alone (R26) -/

@[simp] theorem State.platform_setAltmode (s : State) (p : Pin) :
    (s.setAltmode p).platform = s.platform := by unfold State.setAltmode; split <;> rfl
@[simp] theorem State.nbus_setAltmode (s : State) (p : Pin) : (s.setAltmode p).nbus = s.nbus := by
  unfold State.setAltmode; split <;> rfl
@[simp] theorem State.bus_setAltmode (s : State) (p : Pin) (c : Nat) :
    (s.setAltmode p).bus c = s.bus c := by unfold State.setAltmode; split <;> rfl

/-- A pin's entry after the collaborator's step differs in no bit but `altmode`. -/
theorem State.pin_setAltmode_eq (s : State) (p q : Pin) :
    (s.setAltmode p).pin q = { s.pin q with altmode := ((s.setAltmode p).pin q).altmode } := by
  rw [State.pin_setAltmode]
  split
  · next h => rw [h.1]
  · rfl

/-! ### The parameters and the number of buses -/

/-- A command's issue step keeps the parameters and the number of buses (R13). -/
theorem Issued.platform_nbus {s t : State} (h : Issued s t) :
    t.platform = s.platform ∧ t.nbus = s.nbus := by
  cases h <;> exact ⟨rfl, by simp [State.nbus]⟩

/-- Every step, the reset input among them, keeps the parameters and the number of buses (R13, R136). -/
theorem Stepped.platform_nbus {s t : State} (h : Stepped s t) :
    t.platform = s.platform ∧ t.nbus = s.nbus := by
  cases h with
  | issued _ _ _ hiss => exact hiss.platform_nbus
  | altmode p => exact ⟨State.platform_setAltmode _ p, State.nbus_setAltmode _ p⟩
  | engine b ds => exact ⟨by simp, by simp⟩
  | quiet | resumed | hallP | hallN | reset => exact ⟨rfl, by simp⟩

theorem Stepped.pinMap {s t : State} (h : Stepped s t) (p : Pin) : t.pinMap p = s.pinMap p :=
  State.pinMap_congr h.platform_nbus.1 h.platform_nbus.2 p

/-! ### The attached bit -/

/-- No command detaches a pin (R39). -/
theorem Issued.attached_of_attached {s t : State} (h : Issued s t) {p : Pin}
    (ha : (s.pin p).attached = true) : (t.pin p).attached = true := by
  cases h with
  | answered | configured | started | waiting => exact ha
  | attached q | reading q => exact State.attached_attachPin q ha
  | hall => exact State.attached_attachPin _ (State.attached_attachPin _ ha)
  | overridden q b hq l =>
    rw [State.pin_respond, State.pin_setOverride]
    split
    · exact State.pin_attachPin_self_attached s q
    · exact State.attached_attachPin q ha

/-- No step but the reset input detaches a pin (R39). -/
theorem Stepped.attached_of_attached {s t : State} (h : Stepped s t) (hr : s.nextTurn ≠ .reset)
    {p : Pin} (ha : (s.pin p).attached = true) : (t.pin p).attached = true := by
  cases h with
  | issued _ _ _ hiss => exact hiss.attached_of_attached ha
  | engine b ds => simpa using ha
  | altmode q => rw [State.pin_setAltmode_eq]; exact ha
  | reset hn => exact absurd hn hr
  | quiet | resumed | hallP | hallN => exact ha

/-! ### The overrides -/

/-- The two entries hold the same override. -/
structure PinEntry.SameOverride (e f : PinEntry) : Prop where
  ovrValid : f.ovrValid = e.ovrValid
  ovrLevel : f.ovrLevel = e.ovrLevel

theorem PinEntry.SameOverride.refl (e : PinEntry) : e.SameOverride e := ⟨rfl, rfl⟩

theorem State.sameOverride_attachPin (s : State) (p q : Pin) :
    (s.pin q).SameOverride ((s.attachPin p).pin q) := ⟨by simp, by simp⟩

/-- The pin check keeps an override that the command keeps past it. -/
theorem State.sameOverride_onPin {s : State} {p q : Pin} {k : Nat → State}
    (hk : ∀ b, (s.pin q).SameOverride ((k b).pin q)) :
    (s.pin q).SameOverride ((s.onPin p k).pin q) := by
  rcases State.onPin_cases s p k with ⟨_, e⟩ | ⟨b, _, e⟩ <;> rw [e]
  · exact .refl _
  · exact hk b

/-- `SetCfg` does not reach the pin table (R80). -/
@[simp] theorem State.pin_setCfg (s : State) (lo hi : Nat) (v : Imm) (w : Nat → CfgFile) (q : Pin) :
    (s.setCfg lo hi v w).pin q = s.pin q := by
  unfold State.setCfg
  split
  · rfl
  · split <;> rfl

/-- SETPINATTEN sets the override of its own pin, if it is valid, and keeps every other (R75). -/
theorem execSetPinAtten_sameOverride_or_set (p : Pin) (l : Level) (s : State) (q : Pin) :
    ∃ t, execSetPinAtten p l s = .next t ∧ ((s.pin q).SameOverride (t.pin q) ∨
      q = p ∧ (t.pin q).ovrValid = true ∧ (t.pin q).ovrLevel = l) := by
  refine ⟨_, rfl, ?_⟩
  rcases State.onPin_cases s p _ with ⟨_, e⟩ | ⟨b, _, e⟩ <;> rw [e]
  · exact .inl (.refl _)
  · rw [State.pin_respond, State.pin_setOverride]
    split
    · next hq => exact .inr ⟨hq, rfl, rfl⟩
    · exact .inl (s.sameOverride_attachPin p q)

/-- The issue step of a command keeps the override of a pin, or the command is a SETPINATTEN of that pin
and sets it (R39, R75). -/
theorem exec_sameOverride_or_setPinAtten (i : Instr) (s : State) (q : Pin) :
    ∃ t, exec i s = .next t ∧ ((s.pin q).SameOverride (t.pin q) ∨
      ∃ l, i = .setPinAtten q l ∧ (t.pin q).ovrValid = true ∧ (t.pin q).ovrLevel = l) := by
  have kept := PinEntry.SameOverride.refl (s.pin q)
  cases i with
  | setPinAtten p l =>
    obtain ⟨t, ht, hq⟩ := execSetPinAtten_sameOverride_or_set p l s q
    refine ⟨t, ht, hq.imp_right ?_⟩
    rintro ⟨rfl, hv, hl⟩
    exact ⟨l, rfl, hv, hl⟩
  | read p =>
    refine ⟨_, rfl, .inl (State.sameOverride_onPin fun b => ?_)⟩
    split <;> exact s.sameOverride_attachPin p q
  | hallRead =>
    refine ⟨_, rfl, .inl (State.sameOverride_onPin fun bP => State.sameOverride_onPin fun bN => ?_)⟩
    split
    · exact kept
    · exact ⟨by simp, by simp⟩
  | attach p =>
    exact ⟨_, rfl, .inl (State.sameOverride_onPin fun _ => s.sameOverride_attachPin p q)⟩
  | start p =>
    refine ⟨_, rfl, .inl (State.sameOverride_onPin fun b => ?_)⟩
    split
    · exact kept
    · split <;> exact kept
  | endConv p =>
    refine ⟨_, rfl, .inl (State.sameOverride_onPin fun b => ?_)⟩
    split <;> exact kept
  | getCfg idx =>
    refine ⟨_, rfl, .inl ?_⟩
    split <;> exact kept
  | busy p | getAtten p => exact ⟨_, rfl, .inl (State.sameOverride_onPin fun _ => kept)⟩
  | setRes v | setWidth v | setCycles v | setSamples v | setClkDiv v =>
    exact ⟨_, rfl, .inl (by rw [State.pin_setCfg]; exact kept)⟩
  | setAtten l => exact ⟨_, rfl, .inl kept⟩

/-- What the idle port does on the host's turn: nothing where no word is presented, else the issue step of
the first word (R57). -/
theorem issue_of_step_idle {s t : State} (hn : s.nextTurn = .host) (hs : s.seq = .idle)
    (h : step s = .next t) : t = s.beginTurn ∨
      ∃ w rest, s.commands = w :: rest ∧ issue w s.accept = .next t := by
  cases hc : s.commands with
  | nil =>
    rw [step_host hn] at h
    simp only [hostTurn, State.beginTurn_seq, hs, State.beginTurn_commands, hc] at h
    exact .inl (Host.Outcome.next.inj h).symm
  | cons w rest => exact .inr ⟨w, rest, rfl, by rw [← step_accept hn hs hc, h]⟩

/-- A step other than the reset input keeps the override of a pin, or it is the issue step of a
SETPINATTEN of that pin and sets it (R39). -/
theorem step_sameOverride_or_setPinAtten {s t : State} (h : step s = .next t)
    (hr : s.nextTurn ≠ .reset) (p : Pin) : (s.pin p).SameOverride (t.pin p) ∨
      ∃ w rest l, s.nextTurn = .host ∧ s.seq = .idle ∧ s.commands = w :: rest ∧
        decode w = .ok (.setPinAtten p l) ∧ (t.pin p).ovrValid = true ∧ (t.pin p).ovrLevel = l := by
  have kept := PinEntry.SameOverride.refl (s.pin p)
  cases stepped_of_step h with
  | issued hn hs =>
    obtain rfl | ⟨w, rest, hc, hw⟩ := issue_of_step_idle hn hs h
    · exact .inl kept
    · unfold issue at hw
      split at hw
      · next i hi =>
        obtain ⟨u, hu, hp⟩ := exec_sameOverride_or_setPinAtten i s.accept p
        obtain rfl := Host.Outcome.next.inj (hu.symm.trans hw)
        refine hp.imp_right ?_
        rintro ⟨l, rfl, hv, hl⟩
        exact ⟨w, rest, l, hn, hs, hc, hi, hv, hl⟩
      · obtain rfl := Host.Outcome.next.inj hw
        exact .inl kept
  | engine b ds => exact .inl (by rw [complete_pin]; exact kept)
  | altmode q => exact .inl (by rw [State.pin_setAltmode_eq]; exact ⟨rfl, rfl⟩)
  | reset hn => exact absurd hn hr
  | quiet | resumed | hallP | hallN => exact .inl kept

/-! ### The buses whose conversion is running -/

theorem State.converting_iff (s : State) (b : Nat) :
    s.converting b = true ↔ (s.bus b).busy = true ∧ (s.bus b).done = false := by
  simp [State.converting]

/-- A converting bus is none that is done. -/
theorem State.ne_of_converting_of_done {s : State} {b c : Nat} (hc : s.converting c = true)
    (hd : (s.bus b).done = true) : c ≠ b := by
  rintro rfl
  simp [State.converting_iff, hd] at hc

/-- A converting bus is free for no pin, under either policy (R90). -/
theorem State.ne_of_converting_of_busFree {s : State} {b c : Nat} {p : Pin}
    (hc : s.converting c = true) (hf : s.busFree b p = true) : c ≠ b := by
  rintro rfl
  obtain ⟨hbusy, hdone⟩ := (s.converting_iff c).mp hc
  simp [State.busFree_iff, hbusy, hdone] at hf

theorem State.bus_claim_ne (s : State) {b c : Nat} (p : Pin) (h : Bool) (hc : c ≠ b) :
    (s.claim b p h).bus c = s.bus c := by simp [State.bus_claim, hc]
theorem State.bus_release_ne (s : State) {b c : Nat} (hc : c ≠ b) :
    (s.release b).bus c = s.bus c := by simp [State.bus_release, hc]

/-- No command touches a bus whose conversion is running (R39): every claim is of a free bus. -/
theorem Issued.bus_of_converting {s t : State} (h : Issued s t) {c : Nat}
    (hc : s.converting c = true) : t.bus c = s.bus c := by
  cases h with
  | answered | configured | attached | overridden | waiting => rfl
  | started p b _ hf | reading p b _ hf | hall b _ _ _ hf =>
    exact State.bus_claim_ne _ _ _ (State.ne_of_converting_of_busFree hc hf)

/-- While a HALLREAD waits for its first conversion, the bus of its second pin is free for it or is the
bus of the first (R113, R114). -/
theorem State.Inv.hallN_bus {s : State} (hi : s.Inv) (hs : s.seq = .hallWaitP) {bN : Nat}
    (hN : s.pinMap s.platform.hallN = some bN) :
    s.pinMap s.platform.hallP = some bN ∨ s.busFree bN s.platform.hallN = true := by
  have hq := hi.seq
  simp only [State.SeqOk, hs] at hq
  obtain ⟨_, _, hfree⟩ := hq
  exact or_iff_not_imp_left.mpr (hfree bN hN)

/-- From a state of the invariant, a bus whose conversion is running stays claimed by its owner at every
step but the reset input (R39): `Complete` writes `result` and `done` alone, a resume step releases a bus
that is done, and `HallResumeP` claims that same bus or a free one. -/
theorem Stepped.owner_of_converting {s t : State} (h : Stepped s t) (hi : s.Inv)
    (hr : s.nextTurn ≠ .reset) {c : Nat} (hc : s.converting c = true) :
    (t.bus c).busy = true ∧ (t.bus c).owner = (s.bus c).owner := by
  have hbusy := ((s.converting_iff c).mp hc).1
  have kept : ∀ {r : BusRec}, r = s.bus c → r.busy = true ∧ r.owner = (s.bus c).owner := by
    rintro _ rfl
    exact ⟨hbusy, rfl⟩
  have ne_done : ∀ {p b}, s.pinMap p = some b → s.pinState p = some .done → c ≠ b := by
    intro p b hp hd
    obtain ⟨_, _, _, hdone⟩ := (State.pinState_eq_done hp).mp hd
    exact State.ne_of_converting_of_done hc hdone
  cases h with
  | quiet => exact kept rfl
  | issued _ _ _ hiss => exact kept (hiss.bus_of_converting (s := s.accept) hc)
  | resumed _ p _ b hp hd | hallN _ _ _ b hp hd => exact kept (State.bus_release_ne _ (ne_done hp hd))
  | hallP _ hs bP bN hP hN hd =>
    have hne := ne_done hP hd
    have hneN : c ≠ bN := by
      obtain hsame | hfree := hi.hallN_bus hs hN
      · rwa [Option.some.inj (hsame.symm.trans hP)]
      · exact State.ne_of_converting_of_busFree hc hfree
    exact kept ((State.bus_claim_ne _ _ _ hneN).trans (State.bus_release_ne _ hne))
  | engine b ds =>
    rw [bus_complete]
    split
    · next hcb =>
      obtain ⟨rfl, _⟩ := hcb
      exact ⟨hbusy, rfl⟩
    · exact kept rfl
  | altmode p => exact kept (State.bus_setAltmode _ p c)
  | reset hn => exact absurd hn hr

/-- A running conversion runs on or is done after every step but the reset input (R39). -/
theorem Stepped.owns_of_running {s t : State} (h : Stepped s t) (hi : s.Inv)
    (hr : s.nextTurn ≠ .reset) {p : Pin} (hp : s.pinState p = some .running) : t.Owns p := by
  obtain ⟨b, hb⟩ := State.validPin_of_pinState hp
  obtain ⟨hatt, hbusy, howner, hdone⟩ := (State.pinState_eq_running hb).mp hp
  obtain ⟨hbusy', howner'⟩ :=
    h.owner_of_converting hi hr ((s.converting_iff b).mpr ⟨hbusy, hdone⟩)
  exact (State.owns_iff ((h.pinMap p).trans hb)).mpr
    ⟨h.attached_of_attached hr hatt, hbusy', howner'.trans howner⟩

/-! ### The statement -/

/-- Settles O18, from the inversion of the step: what each kind of step but the reset input keeps of the
attached bit, of the override, and of a bus whose conversion is running. -/
theorem attachmentOverrideAndConversionLast : Obligations.AttachmentOverrideAndConversionLast := by
  unfold Obligations.AttachmentOverrideAndConversionLast
  intro s t p hr h
  have hst := stepped_of_step h
  refine ⟨hst.attached_of_attached hr, fun hv => ?_, fun hi => hst.owns_of_running hi hr,
    hst.platform_nbus.2⟩
  obtain hsame | ⟨w, rest, l, hn, hs, hc, hd, hv', hl⟩ :=
    step_sameOverride_or_setPinAtten h hr p
  · exact ⟨hsame.ovrValid.trans hv, .inl hsame.ovrLevel⟩
  · exact ⟨hv', .inr ⟨w, rest, l, hn, hs, hc, hd, hl⟩⟩

end Sys2Proof.Machine
end

section
/-! SUPPORT. The level in force (R73): where it is latched and where it is read. -/

namespace Sys2Proof.Machine

/-- A claim latches the claimed pin's level in force on the claimed bus, which a valid pin's bus can
store (R73, R92). -/
theorem State.snap_atten_claim {s : State} {b : Nat} {p : Pin} (hm : s.pinMap p = some b) (h : Bool) :
    ((s.claim b p h).bus b).snap.atten = s.lookup p := by
  have hclaimed : b = b ∧ b < s.buses.length := ⟨rfl, State.pinMap_lt hm⟩
  rw [State.bus_claim, if_pos hclaimed]
  rfl

/-- GETATTEN of a valid pin answers its level in force and writes nothing but the response (R76). -/
theorem exec_getAtten_of_validPin {s : State} {p : Pin} (hp : s.validPin p) :
    exec (.getAtten p) s = .next (s.respond .ok ((s.lookup p).code.setWidth 32)) := by
  obtain ⟨b, hm⟩ := Option.isSome_iff_exists.mp hp
  exact congrArg Host.Outcome.next (State.onPin_some hm _)

/-- Settles O31, from the two cases of `Lookup` and the two operations that use it. -/
theorem lookupPrefersTheOverride : Obligations.LookupPrefersTheOverride := by
  unfold Obligations.LookupPrefersTheOverride
  intro s p
  exact ⟨State.lookup_of_override, State.lookup_of_no_override,
    fun _ h hm => State.snap_atten_claim hm h, exec_getAtten_of_validPin⟩

end Sys2Proof.Machine
end

section
/-! SUPPORT. The bus arbiter (42_bus_arbiter.md): the one owner of a bus (R98), and the resume step of a
waiting port with what can enable it (R95). -/

namespace Sys2Proof.Machine

/-! ### One owner per bus -/

/-- Settles O16: both pins are the value of the one field `owner` of their bus. -/
theorem atMostOneOwnerPerBus : Obligations.AtMostOneOwnerPerBus := by
  unfold Obligations.AtMostOneOwnerPerBus
  intro s p q b hp hq hsp hsq
  obtain ⟨_, _, hop⟩ := (State.owns_iff hp).mp hsp
  obtain ⟨_, _, hoq⟩ := (State.owns_iff hq).mp hsq
  exact hop.symm.trans hoq

/-! ### `Release` of a valid pin's bus -/

theorem State.bus_release_self {s : State} {p : Pin} {b : Nat} (hm : s.pinMap p = some b) :
    (s.release b).bus b = { s.bus b with busy := false, done := false } := by
  rw [State.bus_release, if_pos ⟨rfl, State.pinMap_lt hm⟩]

/-- A released bus is free for every pin, under either policy (R90, R96). -/
theorem State.busFree_release (s : State) (b : Nat) (q : Pin) : (s.release b).busFree b q = true :=
  (State.busFree_iff _ _ _).mpr (.inl (s.release_busy b))

/-- An attached pin is IDLE once its bus is released (R34, R96). -/
theorem State.pinState_release_idle {s : State} {p : Pin} {b : Nat} (hm : s.pinMap p = some b)
    (ha : (s.pin p).attached = true) : (s.release b).pinState p = some .idle := by
  have hm' : (s.release b).pinMap p = some b := (s.pinMap_release b p).trans hm
  refine (State.pinState_eq_idle hm').mpr ⟨ha, fun ⟨hbusy, _⟩ => ?_⟩
  exact Bool.false_ne_true ((s.release_busy b).symm.trans hbusy)

/-! ### `Resume` with its guard true and false -/

theorem resume_of_done {s : State} {p : Pin} {b : Nat} (hm : s.pinMap p = some b)
    (hd : s.pinState p = some .done) :
    resume p s = (s.release b).respond .ok ((s.bus b).result.setWidth 32) := by
  obtain ⟨hnd, _⟩ | ⟨c, hc, _, e⟩ := resume_cases p s
  · exact absurd hd hnd
  · obtain rfl := Option.some.inj (hm.symm.trans hc)
    exact e

/-- Where its guard is false the step is not enabled: in the model a turn with no effect (log entry 4). -/
theorem resume_of_not_done {s : State} {p : Pin} (hnd : s.pinState p ≠ some .done) :
    resume p s = s := by
  obtain ⟨_, e⟩ | ⟨_, _, hd, _⟩ := resume_cases p s
  · exact e
  · exact absurd hd hnd

/-! ### The completion flag rises by `Complete` alone -/

/-- A claim leaves no bus done but those it does not write (R92). -/
theorem State.bus_claim_of_done {s : State} {b c : Nat} {p : Pin} {h : Bool}
    (hd : ((s.claim b p h).bus c).done = true) : (s.claim b p h).bus c = s.bus c := by
  rw [State.bus_claim] at hd ⊢
  split at hd
  · exact absurd hd Bool.false_ne_true
  · next hne => exact if_neg hne

/-- A release leaves no bus done but those it does not write (R96). -/
theorem State.bus_release_of_done {s : State} {b c : Nat}
    (hd : ((s.release b).bus c).done = true) : (s.release b).bus c = s.bus c := by
  rw [State.bus_release] at hd ⊢
  split at hd
  · exact absurd hd Bool.false_ne_true
  · next hne => exact if_neg hne

/-- A bus that is done after a command's issue step is as it was before. -/
theorem Issued.bus_of_done {s t : State} (h : Issued s t) {c : Nat} (hd : (t.bus c).done = true) :
    t.bus c = s.bus c := by
  cases h with
  | answered | configured | attached | overridden | waiting => rfl
  | started | reading | hall => exact State.bus_claim_of_done hd

/-- A bus that is done after a step is as it was before, or it was converting and its own agent has taken
the turn, which keeps the owner (R107, R129). -/
theorem Stepped.bus_of_done {s t : State} (h : Stepped s t) {c : Nat} (hd : (t.bus c).done = true) :
    t.bus c = s.bus c ∨ (s.converting c = true ∧ (t.bus c).owner = (s.bus c).owner ∧
      ∃ ds, s.nextTurn = .engine c ds) := by
  cases h with
  | quiet => exact .inl rfl
  | issued _ _ _ hiss => exact .inl (hiss.bus_of_done hd)
  | resumed | hallN => exact .inl (State.bus_release_of_done hd)
  | hallP _ _ bP =>
    have hclaim := State.bus_claim_of_done hd
    have hrel : ((s.beginTurn.release bP).bus c).done = true := hclaim ▸ hd
    exact .inl (hclaim.trans (State.bus_release_of_done hrel))
  | engine b ds hn =>
    rw [bus_complete]
    split
    · next hcb =>
      obtain ⟨rfl, hconv⟩ := hcb
      exact .inr ⟨hconv, rfl, ds, hn⟩
    · exact .inl rfl
  | altmode p => exact .inl (State.bus_setAltmode _ p c)
  | reset => simp [BusRec.reset] at hd

/-- From a state of the invariant a pin becomes DONE only from RUNNING, by the turn of its bus's agent
(R95): an owner is attached already, so no attach step can make it DONE. -/
theorem Stepped.running_of_becomes_done {s t : State} (h : Stepped s t) (hi : s.Inv) {p : Pin}
    (hs : s.pinState p ≠ some .done) (ht : t.pinState p = some .done) :
    s.pinState p = some .running ∧ ∃ b ds, s.pinMap p = some b ∧ s.nextTurn = .engine b ds := by
  obtain ⟨b, hm'⟩ := State.validPin_of_pinState ht
  obtain ⟨_, hbusy, howner, hdone⟩ := (State.pinState_eq_done hm').mp ht
  have hm : s.pinMap p = some b := (h.pinMap p).symm.trans hm'
  have attached (hb : (s.bus b).busy = true) (ho : (s.bus b).owner = p) :
      (s.pin p).attached = true := ho ▸ (hi.buses b).owner_attached hb
  obtain hkept | ⟨hconv, hown, ds, hn⟩ := h.bus_of_done hdone
  · rw [hkept] at hbusy howner hdone
    exact absurd ((State.pinState_eq_done hm).mpr ⟨attached hbusy howner, hbusy, howner, hdone⟩) hs
  · obtain ⟨hb, hnd⟩ := (s.converting_iff b).mp hconv
    have ho := hown.symm.trans howner
    exact ⟨(State.pinState_eq_running hm).mpr ⟨attached hb ho, hb, ho, hnd⟩, b, ds, hm, hn⟩

/-! ### The statement -/

/-- Settles O49, from `Resume` with its guard true and false, and from what can raise `done`. -/
theorem resumeRespondsWhenDone : Obligations.ResumeRespondsWhenDone := by
  unfold Obligations.ResumeRespondsWhenDone
  refine ⟨fun s p b hn hs hm hd => ?_, fun s p hn hs hnd => ?_,
    fun s t p hi hnd h ht => (stepped_of_step h).running_of_becomes_done hi hnd ht⟩
  · obtain ⟨ha, _⟩ := (State.pinState_eq_done hm).mp hd
    have hm₀ : s.beginTurn.pinMap p = some b := hm
    refine ⟨_, (step_wait hn hs).trans (congrArg _ (resume_of_done hm₀ hd)), rfl, rfl, ?_⟩
    refine ⟨State.bus_release_self hm₀, fun c hc => State.bus_release_ne _ hc,
      State.pinState_release_idle hm₀ ha, fun q => State.busFree_release _ b q, ?_⟩
    exact ⟨rfl, rfl, rfl, by simp, rfl, rfl, rfl⟩
  · have hnd₀ : s.beginTurn.pinState p ≠ some .done := hnd
    exact (step_wait hn hs).trans (congrArg _ (resume_of_not_done hnd₀))

end Sys2Proof.Machine
end

section
/-! SUPPORT. The encoding (30_encoding.md): the rows of the opcode map, what it says of a word's fields that
it matches a row, and the two directions of the round trip. -/

namespace Sys2Proof

/-! ### The rows of the opcode map (R64) -/

/-- The opcode search of R65 finds every row by the opcode of its pattern. -/
theorem rowOf_pattern : ∀ r ∈ opTable, rowOf (opField r.pattern) = some r := by
  simp only [opTable, List.forall_mem_cons]
  exact ⟨rfl, rfl, rfl, rfl, rfl, rfl, rfl, rfl, rfl, rfl, rfl, rfl, rfl, rfl, rfl, nofun⟩

/-- Every row tests the whole opcode byte. -/
theorem opField_mask : ∀ r ∈ opTable, opField r.mask = BitVec.allOnes 8 := by decide

/-- The pattern of every row is its opcode alone. -/
theorem operands_pattern : ∀ r ∈ opTable, pinField r.pattern = 0 ∧ immField r.pattern = 0 := by decide

/-- No row has an opcode of R67 or R68, and every other opcode has one. -/
theorem rowOf_eq_none_iff (op : BitVec 8) :
    rowOf op = none ↔ op = 0x00 ∨ 0x11 ≤ op.toNat ∨ op = 0x02 := by
  have byOpcode : ∀ op : BitVec 8,
      (rowOf op).isNone = true ↔ op = 0x00 ∨ 0x11 ≤ op.toNat ∨ op = 0x02 := by decide
  rw [← Option.isNone_iff_eq_none, byOpcode]

/-- The mnemonic GETCFG is that of opcode 0x0F. -/
theorem mnemonic_getCfg_iff : ∀ r ∈ opTable, r.mnemonic = "GETCFG" ↔ opField r.pattern = 0x0F := by
  simp only [opTable, List.forall_mem_cons]
  decide

/-- The command of a row is well formed but for a GETCFG of register 6 or 7 (R61, R66). -/
theorem wf_build_iff (w : Word) : ∀ r ∈ opTable,
    (r.build w).wf = true ↔ (opField r.pattern = 0x0F → (idxField w).toNat ≤ 5) := by
  have other {op : BitVec 8} {P : Prop} (h : op ≠ 0x0F) : true = true ↔ (op = 0x0F → P) :=
    ⟨fun _ e => absurd e h, fun _ => rfl⟩
  simp only [opTable, List.forall_mem_cons]
  have getCfg : decide (cfgIndexLegal (idxField w)) = true ↔
      (opField (0x0F000000 : Word) = 0x0F → (idxField w).toNat ≤ 5) :=
    decide_eq_true_iff.trans ⟨fun h _ => h, fun h => h (by decide)⟩
  exact ⟨other (by decide), other (by decide), other (by decide), other (by decide),
    other (by decide), other (by decide), other (by decide), other (by decide), other (by decide),
    other (by decide), other (by decide), other (by decide), other (by decide), getCfg,
    other (by decide), nofun⟩

/-! ### A word that matches a row -/

/-- A word is masked field by field (R55). -/
theorem word_and_eq_iff (w m p : Word) : w &&& m = p ↔
    opField w &&& opField m = opField p ∧ pinField w &&& pinField m = pinField p ∧
      immField w &&& immField m = immField p := by
  rw [word_and_eq, ← cmdWord_inj, cmdWord_fields]

/-- A word that matches a row is found by its own opcode (R65). -/
theorem rowOf_of_matches {w : Word} {r : OpRow} (hr : r ∈ opTable) (h : w &&& r.mask = r.pattern) :
    rowOf (opField w) = some r := by
  obtain ⟨hop, _⟩ := (word_and_eq_iff w r.mask r.pattern).mp h
  rw [opField_mask r hr, BitVec.and_allOnes] at hop
  rw [hop, rowOf_pattern r hr]

/-- A word decodes to a command exactly when it matches a row whose command with the word's operands is
well formed (R65). -/
theorem decode_ok_iff (w : Word) (i : Instr) : decode w = .ok i ↔
    ∃ r ∈ opTable, w &&& r.mask = r.pattern ∧ i = r.build w ∧ i.wf = true := by
  constructor
  · intro h
    obtain ⟨r, hrow, hmatch, hbuild, hwf⟩ := decode_ok h
    exact ⟨r, (rowOf_some hrow).1, hmatch, hbuild, hwf⟩
  · rintro ⟨r, hr, hmatch, rfl, hwf⟩
    rw [decode_of_row (rowOf_of_matches hr hmatch), if_neg (not_not.mpr hmatch), if_pos hwf]

/-! ### Operands in the low bits of the immediate (R60, R61) -/

/-- An immediate with no bit set from bit `k` on is its low `k` bits, zero-extended. -/
theorem setWidth_extractLsb'_of_high_zero {k : Nat} {x : Imm}
    (h : x &&& (BitVec.allOnes 16 <<< k) = 0) : (x.extractLsb' 0 k).setWidth 16 = x := by
  apply BitVec.eq_of_getLsbD_eq
  intro j hj
  have hbit : (x &&& (BitVec.allOnes 16 <<< k)).getLsbD j = false := by rw [h]; simp
  simp only [BitVec.getLsbD_and, BitVec.getLsbD_shiftLeft, BitVec.getLsbD_allOnes] at hbit
  simp only [BitVec.getLsbD_setWidth, BitVec.getLsbD_extractLsb', Nat.zero_add]
  by_cases hk : j < k
  · simp [hj, hk]
  · have hjk : j - k < 16 := by omega
    simpa [hj, hk, hjk] using hbit.symm

/-- The code of a level fits the two bits of formats L and PL. -/
theorem level_immOperand (l : Level) : l.code.setWidth 16 &&& 0xFFFC = 0 ∧
    Level.ofCode ((l.code.setWidth 16).extractLsb' 0 2) = l := by
  cases l <;> decide

/-- A register number fits the three bits of GETCFG's format. -/
theorem idx_immOperand (idx : BitVec 3) : idx.setWidth 16 &&& 0xFFF8 = (0 : Imm) ∧
    ((idx.setWidth 16 : Imm).extractLsb' 0 3) = idx := by
  revert idx; decide

/-! ### The round trip -/

/-- The word that spells a command matches the row of its opcode, which reads the command's operands
back (R64). -/
theorem encode_matches (i : Instr) : ∃ r ∈ opTable, encode i &&& r.mask = r.pattern ∧
    r.build (encode i) = i := by
  have found {r : OpRow} (hrow : rowOf i.opcode = some r)
      (hpin : i.pinOperand &&& pinField r.mask = 0) (himm : i.immOperand &&& immField r.mask = 0)
      (hb : r.build (encode i) = i) :
      ∃ r ∈ opTable, encode i &&& r.mask = r.pattern ∧ r.build (encode i) = i := by
    obtain ⟨hr, hop⟩ := rowOf_some hrow
    obtain ⟨hpin0, himm0⟩ := operands_pattern r hr
    refine ⟨r, hr, ?_, hb⟩
    rw [word_and_eq_iff, opField_encode, pinField_encode, immField_encode, opField_mask r hr,
      BitVec.and_allOnes, hpin0, himm0]
    exact ⟨hop.symm, hpin, himm⟩
  have pinOnly {p : Pin} (hp : i.pinOperand = p) : pinField (encode i) = p := (pinField_encode i).trans hp
  have immOnly {v : Imm} (hv : i.immOperand = v) : immField (encode i) = v := (immField_encode i).trans hv
  have free {n : Nat} {x : BitVec n} : x &&& 0 = 0 := BitVec.and_zero
  have zero {n : Nat} {m : BitVec n} : 0 &&& m = 0 := BitVec.zero_and
  cases i with
  | setAtten l =>
    obtain ⟨hhigh, hlow⟩ := level_immOperand l
    refine found rfl zero hhigh (congrArg Instr.setAtten ?_)
    rw [levelField_eq, immField_encode]; exact hlow
  | setPinAtten p l =>
    obtain ⟨hhigh, hlow⟩ := level_immOperand l
    refine found rfl free hhigh (congrArg₂ Instr.setPinAtten (pinOnly rfl) ?_)
    rw [levelField_eq, immField_encode]; exact hlow
  | getCfg idx =>
    obtain ⟨hhigh, hlow⟩ := idx_immOperand idx
    refine found rfl zero hhigh (congrArg Instr.getCfg ?_)
    rw [idxField_eq, immField_encode]; exact hlow
  | hallRead => exact found rfl zero zero rfl
  | setRes v => exact found rfl zero free (congrArg Instr.setRes (immOnly rfl))
  | setWidth v => exact found rfl zero free (congrArg Instr.setWidth (immOnly rfl))
  | setCycles v => exact found rfl zero free (congrArg Instr.setCycles (immOnly rfl))
  | setSamples v => exact found rfl zero free (congrArg Instr.setSamples (immOnly rfl))
  | setClkDiv v => exact found rfl zero free (congrArg Instr.setClkDiv (immOnly rfl))
  | read p => exact found rfl free zero (congrArg Instr.read (pinOnly rfl))
  | attach p => exact found rfl free zero (congrArg Instr.attach (pinOnly rfl))
  | start p => exact found rfl free zero (congrArg Instr.start (pinOnly rfl))
  | busy p => exact found rfl free zero (congrArg Instr.busy (pinOnly rfl))
  | endConv p => exact found rfl free zero (congrArg Instr.endConv (pinOnly rfl))
  | getAtten p => exact found rfl free zero (congrArg Instr.getAtten (pinOnly rfl))

/-- Settles O1: the word matches the row of the command's opcode, and a well-formed command passes the
last check of R65. -/
theorem decodeOfEncode : Obligations.DecodeOfEncode := by
  unfold Obligations.DecodeOfEncode
  intro i hwf
  obtain ⟨r, hr, hmatch, hbuild⟩ := encode_matches i
  exact (decode_ok_iff (encode i) i).mpr ⟨r, hr, hmatch, hbuild.symm, hwf⟩

/-- A word that matches a row is spelled by the row's command with the word's operands: what the mask
tests is the pattern, and what it leaves out is an operand (R58, R66). -/
theorem encode_build (w : Word) : ∀ r ∈ opTable, w &&& r.mask = r.pattern → encode (r.build w) = w := by
  have row {i : Instr} {m p : Word} (hop : i.opcode = opField p)
      (hm : opField m = BitVec.allOnes 8)
      (hpin : pinField w &&& pinField m = pinField p → i.pinOperand = pinField w)
      (himm : immField w &&& immField m = immField p → i.immOperand = immField w)
      (h : w &&& m = p) : encode i = w := by
    obtain ⟨hwop, hwpin, hwimm⟩ := (word_and_eq_iff w m p).mp h
    rw [hm, BitVec.and_allOnes] at hwop
    rw [← cmdWord_fields w, hwop, ← hop, ← hpin hwpin, ← himm hwimm]
    rfl
  have noPin (h : pinField w &&& 0xFF = 0) : 0 = pinField w := h.symm.trans BitVec.and_allOnes
  have noImm (h : immField w &&& 0xFFFF = 0) : 0 = immField w := h.symm.trans BitVec.and_allOnes
  have lowTwo (h : immField w &&& 0xFFFC = 0) : (levelField w).code.setWidth 16 = immField w := by
    rw [levelField_eq, Level.code_ofCode]
    exact setWidth_extractLsb'_of_high_zero (k := 2) h
  have lowThree (h : immField w &&& 0xFFF8 = 0) : (idxField w).setWidth 16 = immField w := by
    rw [idxField_eq]
    exact setWidth_extractLsb'_of_high_zero (k := 3) h
  have operand {n : Nat} {x : BitVec n} {P : Prop} (_ : P) : x = x := rfl
  simp only [opTable, List.forall_mem_cons]
  exact ⟨row rfl rfl operand noImm, row rfl rfl noPin operand, row rfl rfl noPin operand,
    row rfl rfl noPin operand, row rfl rfl noPin operand, row rfl rfl noPin operand,
    row rfl rfl noPin lowTwo, row rfl rfl operand lowTwo, row rfl rfl noPin noImm,
    row rfl rfl operand noImm, row rfl rfl operand noImm, row rfl rfl operand noImm,
    row rfl rfl operand noImm, row rfl rfl noPin lowThree, row rfl rfl operand noImm, nofun⟩

/-- Settles O2: the row the word matches has it as the one spelling of its command. -/
theorem encodeOfDecode : Obligations.EncodeOfDecode := by
  unfold Obligations.EncodeOfDecode
  intro w i h
  obtain ⟨r, hr, hmatch, rfl, hwf⟩ := (decode_ok_iff w i).mp h
  exact ⟨hwf, encode_build w r hr hmatch⟩

/-- Settles O3: the last check of R65 is the one on GETCFG's register number. -/
theorem decodeIffRowMatches : Obligations.DecodeIffRowMatches := by
  unfold Obligations.DecodeIffRowMatches
  intro w i
  rw [decode_ok_iff]
  refine exists_congr fun r => and_congr_right fun hr => and_congr_right fun _ => ?_
  rw [mnemonic_getCfg_iff r hr, ← wf_build_iff w r hr]
  constructor
  · rintro ⟨rfl, hwf⟩; exact ⟨hwf, rfl⟩
  · rintro ⟨hwf, rfl⟩; exact ⟨rfl, hwf⟩

/-! ### Words that spell no command -/

/-- A word of an assigned opcode spells no command exactly when a reserved field is not zero or GETCFG
names register 6 or 7 (R66). -/
theorem not_decodes_iff_of_row {w : Word} {r : OpRow} (h : rowOf (opField w) = some r) :
    (∀ i, decode w ≠ .ok i) ↔
      w &&& r.mask ≠ r.pattern ∨ (opField w = 0x0F ∧ 5 < (idxField w).toNat) := by
  obtain ⟨hr, hop⟩ := rowOf_some h
  have hwf := wf_build_iff w r hr
  rw [hop] at hwf
  rw [decode_of_row h]
  by_cases hmatch : w &&& r.mask = r.pattern
  · by_cases hw : (r.build w).wf = true
    · simpa [hmatch, hw] using hwf.mp hw
    · have hbad : ¬ (opField w = 0x0F → (idxField w).toNat ≤ 5) := fun hc => hw (hwf.mpr hc)
      simpa [hmatch, hw] using hbad
  · simp [hmatch]

/-- Which words spell no command (R65 to R68). -/
theorem not_decodes_iff (w : Word) : (∀ i, decode w ≠ .ok i) ↔
    (opField w = 0x00 ∨ 0x11 ≤ (opField w).toNat ∨ opField w = 0x02 ∨
      (∃ r ∈ opTable, opField r.pattern = opField w ∧ w &&& r.mask ≠ r.pattern) ∨
      (opField w = 0x0F ∧ 5 < (idxField w).toNat)) := by
  have hnone := rowOf_eq_none_iff (opField w)
  cases h : rowOf (opField w) with
  | none =>
    have hrefused : ∀ i, decode w ≠ .ok i := fun i hi => by
      obtain ⟨r, hr, _⟩ := decode_ok hi
      exact Option.some_ne_none r (hr.symm.trans h)
    have hop := hnone.mp h
    exact iff_of_true hrefused (by tauto)
  | some r =>
    obtain ⟨hr, hop⟩ := rowOf_some h
    have hassigned : ¬ (opField w = 0x00 ∨ 0x11 ≤ (opField w).toNat ∨ opField w = 0x02) := fun hc =>
      Option.some_ne_none r (h.symm.trans (hnone.mpr hc))
    have hrow : (∃ q ∈ opTable, opField q.pattern = opField w ∧ w &&& q.mask ≠ q.pattern) ↔
        w &&& r.mask ≠ r.pattern := by
      refine ⟨fun ⟨q, hq, hqop, hne⟩ => ?_, fun hne => ⟨r, hr, hop, hne⟩⟩
      have hqr : rowOf (opField w) = some q := hqop ▸ rowOf_pattern q hq
      obtain rfl := Option.some.inj (hqr.symm.trans h)
      exact hne
    rw [not_decodes_iff_of_row h, hrow]
    tauto

/-- Settles O4, each word by evaluation of the decoder. -/
theorem specWordsDecode : Obligations.SpecWordsDecode := by
  unfold Obligations.SpecWordsDecode
  decide

end Sys2Proof

namespace Sys2Proof.Machine

/-- Settles O5: the idle port accepts the first word presented, and a word placed by `withFetchWord` is
the first. -/
theorem stepRunsTheDecodedCommand : Obligations.StepRunsTheDecodedCommand := by
  unfold Obligations.StepRunsTheDecodedCommand
  refine ⟨fun s w rest i hn hs hc hd => ?_, fun s nbits w i hd => ?_⟩
  · rw [step_accept hn hs hc, issue_decoded hd]
    have hrest : s.commands.tail = rest := by rw [hc]; rfl
    rw [← hrest]
    rfl
  · have hword : decode (BitVec.ofNat 32 (w % 2 ^ nbits)) = .ok i := by
      unfold decodeTableWord at hd
      split at hd
      · next hok => rw [hok, Option.some.inj hd]
      · cases hd
    have hacc := step_accept (State.nextTurn_present s (BitVec.ofNat 32 (w % 2 ^ nbits))) rfl rfl
    rw [issue_decoded hword, State.accept_present] at hacc
    exact hacc

/-- An error of a word or command accepted at the idle port, as an update of the state before the step. -/
theorem State.fail_accept {s : State} {w : Word} {rest : List Word} (hs : s.seq = .idle)
    (hc : s.commands = w :: rest) (st : Status) : s.accept.fail st =
      { s with rsp := some ⟨st, 0⟩, turns := s.turns.tail, commands := rest } := by
  cases s
  obtain rfl : _ = Seq.idle := hs
  obtain rfl : _ = w :: rest := hc
  rfl

/-- Settles O6: the causes are those of R65 to R68, and the port answers a word of any of them alike. -/
theorem illegalWordIsAnswered : Obligations.IllegalWordIsAnswered := by
  unfold Obligations.IllegalWordIsAnswered
  refine ⟨not_decodes_iff, (not_decodes_iff 0).mpr (.inl (by decide)), fun s w rest hn hs hc hw => ?_⟩
  rw [step_accept hn hs hc, issue_illegal hw, State.fail_accept hs hc]

end Sys2Proof.Machine
end

section
/-! SUPPORT. The invariants of R35: each operation keeps them, so every issue step and every step does. -/

namespace Sys2Proof.Machine

/-! ### The part of the invariant that does not speak of the sequencer -/

/-- The invariants of R35 but for I-g, which speaks of the port. -/
structure State.CoreInv (s : State) : Prop where
  platform : s.PlatformOk
  cfg : s.cfg.Legal
  buses : ∀ b, s.BusOk b
  attached_valid : ∀ p, (s.pin p).attached = true → s.validPin p
  invalid_reset : ∀ p, s.pinMap p = none → (s.pin p).AtReset

theorem State.inv_iff (s : State) : s.Inv ↔ s.CoreInv ∧ s.SeqOk :=
  ⟨fun h => ⟨{ h with }, h.seq⟩, fun ⟨h, hs⟩ => { h with seq := hs }⟩

theorem State.Inv.core {s : State} (h : s.Inv) : s.CoreInv := ((State.inv_iff s).mp h).1
theorem State.CoreInv.inv {s : State} (h : s.CoreInv) (hs : s.SeqOk) : s.Inv :=
  (State.inv_iff s).mpr ⟨h, hs⟩

/-- The port, the agenda and the count of draws do not enter it. -/
theorem State.CoreInv.of_eq {s t : State} (h : s.CoreInv) (hcfg : t.cfg = s.cfg)
    (hpins : t.pins = s.pins) (hbuses : t.buses = s.buses) (hplatform : t.platform = s.platform) :
    t.CoreInv := by
  cases s; cases t
  obtain rfl : _ = _ := hcfg
  obtain rfl : _ = _ := hpins
  obtain rfl : _ = _ := hbuses
  obtain rfl : _ = _ := hplatform
  exact { platform := { h.platform with }, cfg := h.cfg, buses := fun b => { h.buses b with },
          attached_valid := h.attached_valid, invalid_reset := h.invalid_reset }

theorem State.PlatformOk.congr {s t : State} (h : s.PlatformOk) (hp : t.platform = s.platform)
    (hn : t.nbus = s.nbus) : t.PlatformOk where
  nbus_pos := hn ▸ h.nbus_pos
  hallP_valid := by rw [State.validPin, State.pinMap_congr hp hn, hp]; exact h.hallP_valid
  hallN_valid := by rw [State.validPin, State.pinMap_congr hp hn, hp]; exact h.hallN_valid
  hall_ne := by rw [hp]; exact h.hall_ne

/-- A bus record stays as R35 asks while it is not written and no pin is detached. -/
theorem State.BusOk.of_bus_eq {s t : State} {b : Nat} (h : s.BusOk b) (hb : t.bus b = s.bus b)
    (hm : ∀ p, t.pinMap p = s.pinMap p)
    (ha : ∀ p, (s.pin p).attached = true → (t.pin p).attached = true) : t.BusOk b where
  done_busy := by rw [hb]; exact h.done_busy
  owner_maps := by rw [hb, hm]; exact h.owner_maps
  owner_attached := by rw [hb]; exact fun hbusy => ha _ (h.owner_attached hbusy)
  snap_legal := by rw [hb]; exact h.snap_legal
  result_range := by rw [hb]; exact h.result_range

/-! ### The operations keep it -/

/-- A valid pin's entry may be written so long as the pin is not detached (R22). -/
theorem State.CoreInv.setPin {s : State} (h : s.CoreInv) {p : Pin} {e : PinEntry} (hp : s.validPin p)
    (ha : (s.pin p).attached = true → e.attached = true) : (s.setPin p e).CoreInv where
  platform := h.platform.congr rfl rfl
  cfg := h.cfg
  buses b := (h.buses b).of_bus_eq rfl (fun _ => rfl) fun q hq => by
    rw [State.pin_setPin]
    split
    · next hqp => exact ha (hqp ▸ hq)
    · exact hq
  attached_valid q hq := by
    rw [State.pin_setPin] at hq
    split at hq
    · next hqp => exact hqp ▸ hp
    · exact h.attached_valid q hq
  invalid_reset q hq := by
    have hne : q ≠ p := by
      rintro rfl
      exact Option.isSome_iff_ne_none.mp hp hq
    rw [State.pin_setPin_ne _ _ hne]
    exact h.invalid_reset q hq

theorem State.CoreInv.attachPin {s : State} (h : s.CoreInv) {p : Pin} (hp : s.validPin p) :
    (s.attachPin p).CoreInv := h.setPin hp fun _ => rfl

theorem State.CoreInv.setOverride {s : State} (h : s.CoreInv) {p : Pin} (hp : s.validPin p) (l : Level) :
    (s.setOverride p l).CoreInv := h.setPin hp id

theorem State.CoreInv.setAltmode {s : State} (h : s.CoreInv) (p : Pin) : (s.setAltmode p).CoreInv := by
  unfold State.setAltmode
  split
  · next hp => exact h.setPin hp id
  · exact h

/-- A bus record may be written so long as the new record is as R35 asks. -/
theorem State.CoreInv.setBus {s : State} (h : s.CoreInv) {b : Nat} {r : BusRec}
    (hr : (s.setBus b r).bus b = r → (s.setBus b r).BusOk b) : (s.setBus b r).CoreInv where
  platform := h.platform.congr rfl (State.nbus_setBus s b r)
  cfg := h.cfg
  buses c := by
    by_cases hc : c = b ∧ b < s.buses.length
    · obtain ⟨rfl, hlt⟩ := hc
      exact hr (State.bus_setBus_self r hlt)
    · have hkept : (s.setBus b r).bus c = s.bus c := by rw [State.bus_setBus, if_neg hc]
      exact (h.buses c).of_bus_eq hkept (State.pinMap_setBus s b r) fun _ => id
  attached_valid p hp := by
    rw [State.validPin, State.pinMap_setBus]
    exact h.attached_valid p hp
  invalid_reset p hp := h.invalid_reset p ((State.pinMap_setBus s b r p).symm.trans hp)

/-- A snapshot latches legal values of a legal configuration (R32, R92). -/
theorem State.snapshot_legal {s : State} (h : s.cfg.Legal) (p : Pin) (hall : Bool) :
    (s.snapshot p hall).Legal := { h with }

theorem State.CoreInv.claim {s : State} (h : s.CoreInv) {b : Nat} {p : Pin} (hm : s.pinMap p = some b)
    (ha : (s.pin p).attached = true) (hall : Bool) : (s.claim b p hall).CoreInv := by
  refine h.setBus fun e => ?_
  constructor <;> rw [e]
  · exact nofun
  · exact fun _ => (State.pinMap_setBus s b _ p).trans hm
  · exact fun _ => ha
  · exact fun _ => State.snapshot_legal h.cfg p hall
  · exact nofun

theorem State.CoreInv.release {s : State} (h : s.CoreInv) (b : Nat) : (s.release b).CoreInv := by
  refine h.setBus fun e => ?_
  constructor <;> rw [e] <;> exact nofun

/-- A conversion's rescaled mean is a value of its latched resolution, whatever is drawn (R108). -/
theorem rescale_average_acquire_lt (r : BusRec) (ds : List RawSample) (k : Nat) :
    rescale (average (acquire r ds k)) r.snap.width.toNat r.snap.res.toNat < 2 ^ r.snap.res.toNat :=
  rescale_lt (average_lt (Nat.two_pow_pos _) fun _ hx => acquire_lt hx)

theorem State.CoreInv.complete {s : State} (h : s.CoreInv) (b : Nat) (ds : List RawSample) :
    (complete b ds s).CoreInv := by
  rcases complete_cases b ds s with ⟨_, e⟩ | ⟨hb, _, e⟩ <;> rw [e]
  · exact h
  · have hok := h.buses b
    refine State.CoreInv.of_eq (h.setBus fun e => ?_) rfl rfl rfl rfl
    constructor <;> rw [e]
    · exact fun _ => hb
    · exact fun _ => (State.pinMap_setBus s b _ _).trans (hok.owner_maps hb)
    · exact fun _ => hok.owner_attached hb
    · exact fun _ => hok.snap_legal hb
    · exact fun _ => Nat.lt_of_le_of_lt (Nat.mod_le _ _) (rescale_average_acquire_lt (s.bus b) ds s.drawn)

/-- A block at the reset values on an admitted platform (R40). -/
theorem State.coreInv_of_reset {s : State} (hP : s.PlatformOk) (hcfg : s.cfg = .reset)
    (hpin : ∀ p, s.pin p = .reset) (hbus : ∀ b, s.bus b = .reset) : s.CoreInv where
  platform := hP
  cfg := by rw [hcfg]; constructor <;> decide
  buses b := by constructor <;> rw [hbus b] <;> exact nofun
  attached_valid p hp := by rw [hpin p] at hp; cases hp
  invalid_reset p _ := by rw [hpin p]; exact PinEntry.atReset_reset

theorem State.CoreInv.assertReset {s : State} (h : s.CoreInv) : s.assertReset.CoreInv :=
  State.coreInv_of_reset (h.platform.congr rfl (State.nbus_assertReset s)) rfl (State.pin_assertReset s)
    (State.bus_assertReset s)

/-! ### The sequencer (R35 I-g) -/

/-- An attached pin whose bus has just been claimed for it owns that bus. -/
theorem State.owns_claim {s : State} {b : Nat} {p : Pin} (hm : s.pinMap p = some b)
    (ha : (s.pin p).attached = true) (hall : Bool) : (s.claim b p hall).Owns p := by
  refine (State.owns_iff ((State.pinMap_claim s b p hall p).trans hm)).mpr ⟨ha, ?_⟩
  rw [State.bus_claim, if_pos ⟨rfl, State.pinMap_lt hm⟩]
  exact ⟨rfl, rfl⟩

/-- What `Complete(b)` keeps of a record: `busy`, `owner` and the snapshot (R107). -/
theorem bus_complete_claim (b : Nat) (ds : List RawSample) (s : State) (c : Nat) :
    ((complete b ds s).bus c).busy = (s.bus c).busy ∧
    ((complete b ds s).bus c).owner = (s.bus c).owner ∧
    ((complete b ds s).bus c).snap = (s.bus c).snap := by
  rw [bus_complete]
  split
  · next hc => rw [hc.1]; exact ⟨rfl, rfl, rfl⟩
  · exact ⟨rfl, rfl, rfl⟩

theorem State.owns_complete {s : State} {p : Pin} (h : s.Owns p) (b : Nat) (ds : List RawSample) :
    (complete b ds s).Owns p := by
  obtain ⟨c, hm⟩ := h.elim State.validPin_of_pinState State.validPin_of_pinState
  obtain ⟨ha, hbusy, howner⟩ := (State.owns_iff hm).mp h
  obtain ⟨ebusy, eowner, _⟩ := bus_complete_claim b ds s c
  exact (State.owns_iff ((complete_pinMap b ds s p).trans hm)).mpr
    ⟨by rw [complete_pin]; exact ha, ebusy.trans hbusy, eowner.trans howner⟩

/-- A bus that is free for a pin is not converting, so no agent's step touches it. -/
theorem State.busFree_complete {s : State} {c : Nat} {p : Pin} (h : s.busFree c p = true) (b : Nat)
    (ds : List RawSample) : (complete b ds s).busFree c p = true := by
  rw [State.busFree_congr _ (complete_platform b ds s) p, h]
  rw [bus_complete, if_neg]
  rintro ⟨rfl, hconv⟩
  exact State.ne_of_converting_of_busFree hconv h rfl

/-- The port keeps what I-g says of it while it is not written, no pin is detached, no owner loses its bus
and no free bus is claimed. -/
theorem State.SeqOk.mono {s t : State} (h : s.SeqOk) (hseq : t.seq = s.seq)
    (hP : t.platform = s.platform) (hm : ∀ p, t.pinMap p = s.pinMap p)
    (ha : ∀ p, (s.pin p).attached = true → (t.pin p).attached = true)
    (ho : ∀ p, s.Owns p → t.Owns p) (hf : ∀ b p, s.busFree b p = true → t.busFree b p = true) :
    t.SeqOk := by
  unfold State.SeqOk at h ⊢
  rw [hseq]
  cases hs : s.seq with
  | idle => trivial
  | wait p =>
    obtain ⟨hv, hatt⟩ := by simpa only [hs] using h
    exact ⟨by rw [State.validPin, hm]; exact hv, ha p hatt⟩
  | hallWaitP =>
    obtain ⟨hown, hatt, hfree⟩ := by simpa only [hs] using h
    simp only [hP, hm]
    exact ⟨ho _ hown, ha _ hatt, fun b hN hne => hf _ _ (hfree b hN hne)⟩
  | hallWaitN v =>
    have hown : s.Owns s.platform.hallN := by simpa only [hs] using h
    exact hP.symm ▸ ho _ hown

/-! ### The issue step and the step -/

/-- Every command's issue step leads to a state of the invariant: it writes the sequencer, so nothing need be
known of the port before. -/
theorem Issued.inv {s t : State} (hi : Issued s t) (h : s.CoreInv) : t.Inv := by
  have valid {p : Pin} {b : Nat} (hp : s.pinMap p = some b) : s.validPin p :=
    Option.isSome_iff_exists.mpr ⟨b, hp⟩
  cases hi with
  | answered => exact State.CoreInv.inv (h.of_eq rfl rfl rfl rfl) trivial
  | configured c legal =>
    have hc : ({ s with cfg := c } : State).CoreInv :=
      { platform := { h.platform with }, cfg := legal h.cfg, buses := fun b => { h.buses b with },
        attached_valid := h.attached_valid, invalid_reset := h.invalid_reset }
    exact State.CoreInv.inv (hc.of_eq rfl rfl rfl rfl) trivial
  | attached p b hp =>
    exact State.CoreInv.inv ((h.attachPin (valid hp)).of_eq rfl rfl rfl rfl) trivial
  | overridden p b hp l =>
    exact State.CoreInv.inv
      (((h.attachPin (valid hp)).setOverride (p := p) (valid hp) l).of_eq rfl rfl rfl rfl) trivial
  | started p b hp hf ha =>
    exact State.CoreInv.inv ((h.claim hp ha false).of_eq rfl rfl rfl rfl) trivial
  | waiting p b hp ha => exact State.CoreInv.inv (h.of_eq rfl rfl rfl rfl) ⟨valid hp, ha⟩
  | reading p b hp hf =>
    have ha := State.pin_attachPin_self_attached s p
    have hc := (h.attachPin (valid hp)).claim (p := p) hp ha false
    exact State.CoreInv.inv (hc.of_eq rfl rfl rfl rfl)
      ⟨hc.attached_valid p ha, ha⟩
  | hall bP bN hP hN fP fN =>
    have hatt := ((h.attachPin (valid hP)).attachPin (p := s.platform.hallN) (valid hN))
    have haP : (((s.attachPin s.platform.hallP).attachPin s.platform.hallN).pin
        s.platform.hallP).attached = true :=
      State.attached_attachPin _ (State.pin_attachPin_self_attached s _)
    have hc := hatt.claim (p := s.platform.hallP) hP haP true
    refine State.CoreInv.inv (hc.of_eq rfl rfl rfl rfl) ⟨?_,
      State.pin_attachPin_self_attached _ _, fun b hb hne => ?_⟩
    · exact State.owns_claim (s := (s.attachPin _).attachPin _) hP haP true
    · simp only [State.pinMap_waitFor, State.pinMap_claim, State.pinMap_attachPin,
        State.waitFor_platform, State.claim_platform, State.attachPin_platform] at hb hne
      obtain rfl := Option.some.inj (hN.symm.trans hb)
      have hbne : bN ≠ bP := fun e => hne (e ▸ hP)
      exact (State.busFree_congr (State.bus_claim_ne _ _ _ hbne) rfl _).trans fN

/-- Every step of every agent keeps the invariant. -/
theorem Stepped.inv {s t : State} (hst : Stepped s t) (h : s.Inv) : t.Inv := by
  have hbegin : s.beginTurn.CoreInv := h.core.of_eq rfl rfl rfl rfl
  cases hst with
  | quiet => exact hbegin.inv h.seq
  | issued _ _ _ hiss => exact hiss.inv (h.core.of_eq rfl rfl rfl rfl)
  | resumed _ p _ b | hallN _ v _ b =>
    exact State.CoreInv.inv ((hbegin.release b).of_eq rfl rfl rfl rfl) trivial
  | hallP _ hs bP bN hP hN =>
    have hseq := h.seq
    simp only [State.SeqOk, hs] at hseq
    obtain ⟨_, ha, _⟩ := hseq
    have hN' : (s.beginTurn.release bP).pinMap s.platform.hallN = some bN :=
      (State.pinMap_release _ _ _).trans hN
    exact State.CoreInv.inv (((hbegin.release bP).claim hN' ha true).of_eq rfl rfl rfl rfl)
      (State.owns_claim hN' ha true)
  | engine b ds =>
    exact (hbegin.complete b ds).inv (State.SeqOk.mono (s := s.beginTurn) h.seq (complete_seq b ds _)
      (complete_platform b ds _) (complete_pinMap b ds _)
      (fun p hp => by rw [complete_pin]; exact hp) (fun p hp => State.owns_complete hp b ds)
      fun c p hf => State.busFree_complete hf b ds)
  | altmode p =>
    have hm (q : Pin) : (s.beginTurn.setAltmode p).pinMap q = s.beginTurn.pinMap q :=
      State.pinMap_congr (State.platform_setAltmode _ p) (State.nbus_setAltmode _ p) q
    have ha (q : Pin) : ((s.beginTurn.setAltmode p).pin q).attached = (s.beginTurn.pin q).attached := by
      rw [State.pin_setAltmode_eq]
    have hstate (q : Pin) : (s.beginTurn.setAltmode p).pinState q = s.beginTurn.pinState q :=
      State.pinState_congr (hm q) (ha q) fun b _ => State.bus_setAltmode _ p b
    refine (hbegin.setAltmode p).inv (State.SeqOk.mono (s := s.beginTurn) h.seq ?_
      (State.platform_setAltmode _ p) hm (fun q hq => (ha q).trans hq) (fun q hq => ?_) fun b q hf => ?_)
    · unfold State.setAltmode; split <;> rfl
    · unfold State.Owns; rw [hstate]; exact hq
    · rw [State.busFree_congr (State.bus_setAltmode _ p b) (State.platform_setAltmode _ p)]; exact hf
  | reset => exact State.CoreInv.inv hbegin.assertReset trivial

/-- Settles O15, by the inversion of the step: each operation a step is made of keeps the invariant. -/
theorem stepKeepsTheInvariant : Obligations.StepKeepsTheInvariant := by
  unfold Obligations.StepKeepsTheInvariant
  exact fun s t hi h => (stepped_of_step h).inv hi

/-! ### The reset state of the open platform (R4 to R6) -/

/-- `PINMAP` of the machine after reset is the map `Config` leaves open: it names existing buses alone. -/
theorem State.pinMap_reset (p : Pin) : State.reset.pinMap p = Config.pinMap p := by
  have hentry : State.reset.platform.pinTable[p.toNat]'p.isLt = Config.pinMap p := by
    simp [State.reset, State.resetOn, Config.platform]
  have hn : State.reset.nbus = Config.nbus := by simp [State.reset, State.resetOn, State.nbus]
  rw [State.pinMap, hentry, hn]
  cases hb : Config.pinMap p with
  | none => rfl
  | some b =>
    refine Option.filter_some_pos (decide_eq_true ?_)
    unfold Config.pinMap at hb
    split at hb
    · obtain rfl := Option.some.inj hb; exact Config.hallBusP.isLt
    · split at hb
      · obtain rfl := Option.some.inj hb; exact Config.hallBusN.isLt
      · obtain ⟨c, _, rfl⟩ := Option.map_eq_some_iff.mp hb; exact c.isLt

/-- The two Hall pins of the open platform differ: their distance is 1 to 255 (R6). -/
theorem hallP_ne_hallN_of_config : Config.hallP ≠ Config.hallN := by
  have hgap := Config.hallGap.isLt
  unfold Config.hallN
  bv_omega

theorem State.platformOk_reset : State.reset.PlatformOk where
  nbus_pos := by simp [State.reset, State.resetOn, State.nbus]
  hallP_valid := by
    rw [State.validPin, State.pinMap_reset]
    simp [State.reset, State.resetOn, Config.platform, Config.pinMap]
  hallN_valid := by
    rw [State.validPin, State.pinMap_reset]
    simp [State.reset, State.resetOn, Config.platform, Config.pinMap, hallP_ne_hallN_of_config.symm]
  hall_ne := hallP_ne_hallN_of_config

/-- Settles O11. -/
theorem resetMeetsTheInvariant : Obligations.ResetMeetsTheInvariant := by
  unfold Obligations.ResetMeetsTheInvariant
  exact (State.coreInv_of_reset State.platformOk_reset rfl (State.pin_resetOn _ _)
    (State.bus_resetOn _ _)).inv trivial

end Sys2Proof.Machine
end

section
/-! SUPPORT. What one step can do to one bus record, said once; and what follows from it for the pin state
machine (R88), for claims under HOLD (R99) and for the completion output (R129). -/

namespace Sys2Proof.Machine

/-! ### One step, one bus -/

/-- What a step that claims bus `c` for pin `q` has found: the idle port and a free bus (R90), or a HALLREAD
whose first conversion is done and whose second pin is `q` (R114). -/
def State.ClaimGuard (s : State) (c : Nat) (q : Pin) : Prop :=
  (s.seq = .idle ∧ s.busFree c q = true) ∨
  (s.seq = .hallWaitP ∧ q = s.platform.hallN ∧ s.pinState s.platform.hallP = some .done)

/-- The record that `Claim(c, q, hall)` leaves: the old result is kept (R92). -/
def State.claimedBus (s : State) (c : Nat) (q : Pin) (hall : Bool) : BusRec :=
  { s.bus c with busy := true, owner := q, done := false, snap := s.snapshot q hall }

/-- The record that `Complete(c)` leaves, with the draws listed in `ds` (R107). -/
def State.completedBus (s : State) (c : Nat) (ds : List RawSample) : BusRec :=
  { s.bus c with result := convert (s.bus c).snap (acquire (s.bus c) ds s.drawn), done := true }

/-- What a step from `s` to `t` other than the reset input can do to the record of bus `c`. -/
inductive State.BusStep (s t : State) (c : Nat) : Prop where
  | kept (h : t.bus c = s.bus c)
  /-- `Release` by the resume step of the command that waits for the owner (R95, R96). -/
  | released (hn : s.nextTurn = .host) (p : Pin) (hp : s.pinMap p = some c)
      (hd : s.pinState p = some .done) (ha : s.awaited = some p)
      (h : t.bus c = { s.bus c with busy := false, done := false })
  /-- `Claim` at a host step (R92). -/
  | claimed (hn : s.nextTurn = .host) (q : Pin) (hall : Bool) (hq : s.pinMap q = some c)
      (hg : s.ClaimGuard c q)
      (h : t.bus c = s.claimedBus c q hall)
  /-- `Complete` by the bus's own agent (R107). -/
  | completed (ds : List RawSample) (hn : s.nextTurn = .engine c ds) (hc : s.converting c = true)
      (h : t.bus c = s.completedBus c ds)

/-- A command's issue step leaves a bus alone or claims it for a pin for which it is free. -/
theorem Issued.bus_cases {s t : State} (hi : Issued s t) (c : Nat) : t.bus c = s.bus c ∨
    ∃ q hall, s.pinMap q = some c ∧ s.busFree c q = true ∧
      t.bus c = s.claimedBus c q hall := by
  have claims (u : State) {b : Nat} {q : Pin} {hall : Bool} (hbus : ∀ d, u.bus d = s.bus d)
      (hsnap : u.snapshot q hall = s.snapshot q hall) (hq : s.pinMap q = some b)
      (hf : s.busFree b q = true) (ht : t.bus c = (u.claim b q hall).bus c) : t.bus c = s.bus c ∨
      ∃ q hall, s.pinMap q = some c ∧ s.busFree c q = true ∧ t.bus c = s.claimedBus c q hall := by
    rw [State.bus_claim, hbus, hsnap] at ht
    split at ht
    · next hc =>
      obtain ⟨rfl, _⟩ := hc
      exact .inr ⟨q, hall, hq, hf, ht⟩
    · exact .inl (ht.trans (hbus c))
  cases hi with
  | answered | configured | attached | overridden | waiting => exact .inl rfl
  | started p b hp hf ha => exact claims s (fun _ => rfl) rfl hp hf rfl
  | reading p b hp hf =>
    exact claims (s.attachPin p) (fun _ => rfl) (State.snapshot_attachPin s p p false) hp hf rfl
  | hall bP bN hP hN fP fN =>
    exact claims ((s.attachPin s.platform.hallP).attachPin s.platform.hallN) (fun _ => rfl) (by simp)
      hP fP rfl

/-- `Release` does not write a result (R96). -/
theorem State.result_release (s : State) (b c : Nat) :
    ((s.release b).bus c).result = (s.bus c).result := by
  rw [State.bus_release]
  split
  · next hc => rw [hc.1]
  · rfl

theorem Stepped.busStep {s t : State} (hst : Stepped s t) (hr : s.nextTurn ≠ .reset) (c : Nat) :
    s.BusStep t c := by
  have releases {p : Pin} {b : Nat} (hn : s.nextTurn = .host) (hp : s.pinMap p = some b)
      (hd : s.pinState p = some .done) (ha : s.awaited = some p)
      (ht : t.bus c = (s.beginTurn.release b).bus c) : s.BusStep t c := by
    rw [State.bus_release] at ht
    split at ht
    · next hc =>
      obtain ⟨rfl, _⟩ := hc
      exact .released hn p hp hd ha ht
    · exact .kept ht
  cases hst with
  | quiet => exact .kept rfl
  | issued hn hs _ hiss =>
    obtain hkept | ⟨q, hall, hq, hf, h⟩ := hiss.bus_cases c
    · exact .kept hkept
    · exact .claimed hn q hall hq (.inl ⟨hs, hf⟩) h
  | resumed hn p hs b hp hd => exact releases hn hp hd (State.awaited_wait hs) rfl
  | hallN hn v hs b hN hd => exact releases hn hN hd (State.awaited_hallWaitN hs) rfl
  | hallP hn hs bP bN hP hN hd =>
    have hlt : bN < (s.beginTurn.release bP).buses.length := by
      rw [State.length_release]; exact State.pinMap_lt hN
    have hclaim := State.bus_claim (s.beginTurn.release bP) bN s.platform.hallN true c
    by_cases hc : c = bN
    · subst hc
      rw [if_pos ⟨rfl, hlt⟩] at hclaim
      rw [State.result_release] at hclaim
      exact .claimed hn _ true hN (.inr ⟨hs, rfl, hd⟩) hclaim
    · rw [if_neg (fun h => hc h.1)] at hclaim
      exact releases hn hP hd (State.awaited_hallWaitP hs) hclaim
  | engine b ds hn =>
    have hbus := bus_complete b ds s.beginTurn c
    split at hbus
    · next hc =>
      obtain ⟨rfl, hconv⟩ := hc
      exact .completed ds hn hconv hbus
    · exact .kept hbus
  | altmode p => exact .kept (State.bus_setAltmode _ p c)
  | reset hn => exact absurd hn hr

/-! ### What the guards say in a state of the invariant -/

/-- A bus that is done is busy with a pin that is DONE (R35 I-a). -/
theorem State.Inv.busy_of_done {s : State} (hi : s.Inv) {c : Nat} (hd : (s.bus c).done = true) :
    (s.bus c).busy = true := (hi.buses c).done_busy hd

/-- The owner of a busy bus that is not done is RUNNING. -/
theorem State.Inv.owner_running {s : State} (hi : s.Inv) {c : Nat} (hb : (s.bus c).busy = true)
    (hd : (s.bus c).done = false) : s.pinState (s.bus c).owner = some .running :=
  (State.pinState_eq_running ((hi.buses c).owner_maps hb)).mpr
    ⟨(hi.buses c).owner_attached hb, hb, rfl, hd⟩

theorem State.owner_of_pinState_done {s : State} {p : Pin} {c : Nat} (hp : s.pinMap p = some c)
    (hd : s.pinState p = some .done) : (s.bus c).owner = p ∧ (s.bus c).done = true := by
  obtain ⟨_, _, howner, hdone⟩ := (State.pinState_eq_done hp).mp hd
  exact ⟨howner, hdone⟩

/-- A step claims a busy bus in two cases alone (R90, R114): under EVICT it takes another pin's finished
result, or a HALLREAD on one bus has just retrieved the first one. -/
theorem State.Inv.claimGuard_of_busy {s : State} (hi : s.Inv) {c : Nat} {q : Pin}
    (hq : s.pinMap q = some c) (hg : s.ClaimGuard c q) (hb : (s.bus c).busy = true) :
    (s.bus c).done = true ∧
    ((s.platform.unread = .evict ∧ (s.seq = .idle ∨ s.seq = .hallWaitP) ∧ (s.bus c).owner ≠ q) ∨
     (s.seq = .hallWaitP ∧ q = s.platform.hallN ∧ (s.bus c).owner = s.platform.hallP)) := by
  have evicts (hf : s.busFree c q = true) :
      s.platform.unread = .evict ∧ (s.bus c).done = true ∧ (s.bus c).owner ≠ q :=
    ((State.busFree_iff s c q).mp hf).resolve_left (by rw [hb]; exact nofun)
  obtain ⟨hs, hf⟩ | ⟨hs, rfl, hd⟩ := hg
  · obtain ⟨hev, hdone, hne⟩ := evicts hf
    exact ⟨hdone, .inl ⟨hev, .inl hs, hne⟩⟩
  · obtain hP | hf := hi.hallN_bus hs hq
    · obtain ⟨howner, hdone⟩ := State.owner_of_pinState_done hP hd
      exact ⟨hdone, .inr ⟨hs, rfl, howner⟩⟩
    · obtain ⟨hev, hdone, hne⟩ := evicts hf
      exact ⟨hdone, .inl ⟨hev, .inr hs, hne⟩⟩

/-! ### The pin state machine (R88) -/

theorem State.pinState_cases {s : State} {p : Pin} {b : Nat} (hm : s.pinMap p = some b) :
    s.pinState p = some .unattached ∨ s.pinState p = some .idle ∨ s.pinState p = some .running ∨
      s.pinState p = some .done := by
  unfold State.pinState
  simp only [hm]
  split
  · exact .inl rfl
  · split
    · split
      · exact .inr (.inr (.inl rfl))
      · exact .inr (.inr (.inr rfl))
    · exact .inr (.inl rfl)

/-- A pin is attached in each of its other three states. -/
theorem State.attached_of_ne_unattached {s : State} {p : Pin} {b : Nat} (hm : s.pinMap p = some b)
    (h : s.pinState p ≠ some .unattached) : (s.pin p).attached = true :=
  Bool.eq_true_of_not_eq_false fun ha => h ((State.pinState_eq_unattached hm).mpr ha)

/-- Nothing but the reset input leads back to UNATTACHED. -/
theorem Stepped.ne_unattached {s t : State} (hst : Stepped s t) (hr : s.nextTurn ≠ .reset) {p : Pin}
    {b : Nat} (hm : s.pinMap p = some b) (h : s.pinState p ≠ some .unattached) :
    t.pinState p ≠ some .unattached := fun ht => by
  have ha := hst.attached_of_attached hr (State.attached_of_ne_unattached hm h)
  rw [(State.pinState_eq_unattached ((hst.pinMap p).trans hm)).mp ht] at ha
  exact Bool.false_ne_true ha

/-- A pin is attached only at the issue of a command. -/
theorem Stepped.issued_of_attaches {s t : State} (hst : Stepped s t) {p : Pin}
    (hs : (s.pin p).attached = false) (ht : (t.pin p).attached = true) :
    s.nextTurn = .host ∧ s.seq = .idle := by
  have changed {e : PinEntry} (he : e.attached = (s.pin p).attached) (h : e.attached = true) : False :=
    Bool.false_ne_true (hs.symm.trans (he.symm.trans h))
  cases hst with
  | issued hn hseq => exact ⟨hn, hseq⟩
  | quiet | resumed | hallP | hallN => exact (changed rfl ht).elim
  | engine b ds => exact (changed (by rw [complete_pin]; rfl) ht).elim
  | altmode q => exact (changed (by rw [State.pin_setAltmode_eq]; rfl) ht).elim
  | reset => rw [State.pin_assertReset] at ht; cases ht

/-- An IDLE pin becomes RUNNING at a host step alone: the claim of its bus. -/
theorem Stepped.host_of_becomes_running {s t : State} (hst : Stepped s t) (hr : s.nextTurn ≠ .reset)
    {p : Pin} (hs : s.pinState p = some .idle) (ht : t.pinState p = some .running) :
    s.nextTurn = .host := by
  obtain ⟨b, hm⟩ := State.validPin_of_pinState hs
  obtain ⟨_, hfree⟩ := (State.pinState_eq_idle hm).mp hs
  obtain ⟨_, hbusy, howner, hdone⟩ := (State.pinState_eq_running ((hst.pinMap p).trans hm)).mp ht
  cases hst.busStep hr b with
  | kept h => rw [h] at hbusy howner; exact absurd ⟨hbusy, howner⟩ hfree
  | released hn => exact hn
  | claimed hn => exact hn
  | completed _ _ _ h => rw [h] at hdone; cases hdone

/-- What becomes of a DONE pin (R88, R101): it stays DONE, or it is IDLE because its result was retrieved
or, under EVICT, because its bus was claimed for another pin, which is RUNNING. -/
theorem Stepped.of_done {s t : State} (hst : Stepped s t) (hi : s.Inv) (hr : s.nextTurn ≠ .reset)
    {p : Pin} (hp : s.pinState p = some .done) : t.pinState p = some .done ∨
      (t.pinState p = some .idle ∧ s.nextTurn = .host ∧
        (s.awaited = some p ∨ (s.platform.unread = .evict ∧
          ∃ q, q ≠ p ∧ s.pinMap q = s.pinMap p ∧ t.pinState q = some .running))) := by
  obtain ⟨b, hm⟩ := State.validPin_of_pinState hp
  obtain ⟨ha, hbusy, rfl, hdone⟩ := (State.pinState_eq_done hm).mp hp
  have ha' := hst.attached_of_attached hr ha
  have hm' := (hst.pinMap (s.bus b).owner).trans hm
  have idle (h : ¬ ((t.bus b).busy = true ∧ (t.bus b).owner = (s.bus b).owner)) :
      t.pinState (s.bus b).owner = some .idle := (State.pinState_eq_idle hm').mpr ⟨ha', h⟩
  cases hst.busStep hr b with
  | kept h => exact .inl ((State.pinState_eq_done hm').mpr ⟨ha', by rw [h]; exact ⟨hbusy, rfl, hdone⟩⟩)
  | released hn q hq hd hawait h =>
    obtain ⟨rfl, _⟩ := State.owner_of_pinState_done hq hd
    exact .inr ⟨idle (by rw [h]; exact nofun), hn, .inl hawait⟩
  | claimed hn q hall hq hg h =>
    have hrun : t.pinState q = some .running := by
      have := (hst.inv hi).owner_running (c := b) (by rw [h]; rfl) (by rw [h]; rfl)
      rwa [h] at this
    obtain ⟨_, ⟨hev, _, hne⟩ | ⟨hs, rfl, howner⟩⟩ := hi.claimGuard_of_busy hq hg hbusy
    · exact .inr ⟨idle (by rw [h]; exact fun hc => hne hc.2.symm), hn,
        .inr ⟨hev, q, hne.symm, hq.trans hm.symm, hrun⟩⟩
    · refine .inr ⟨idle (by rw [h, howner]; exact fun hc => hi.platform.hall_ne hc.2.symm), hn, .inl ?_⟩
      rw [howner]
      exact State.awaited_hallWaitP hs
  | completed _ _ hc => exact absurd hdone (by rw [((s.converting_iff b).mp hc).2]; exact nofun)

/-- Settles O17, one edge of the state machine at a time. -/
theorem pinStateMachine : Obligations.PinStateMachine := by
  unfold Obligations.PinStateMachine
  intro s t p hi hr hv h
  have hst := stepped_of_step h
  obtain ⟨b, hm⟩ := Option.isSome_iff_exists.mp hv
  have hstates := State.pinState_cases ((hst.pinMap p).trans hm)
  have not_done (hs : s.pinState p ≠ some .done) (hs' : s.pinState p ≠ some .running) :
      t.pinState p ≠ some .done := fun ht => hs' (hst.running_of_becomes_done hi hs ht).1
  refine ⟨fun hs => ?_, fun hs => ?_, fun hs => ?_, fun hs => hst.of_done hi hr hs⟩
  · have hd := not_done (by rw [hs]; exact nofun) (by rw [hs]; exact nofun)
    refine or_iff_not_imp_left.mpr fun hu => ?_
    have hatt := State.attached_of_ne_unattached ((hst.pinMap p).trans hm) hu
    have hissue := hst.issued_of_attaches ((State.pinState_eq_unattached hm).mp hs) hatt
    exact ⟨by tauto, hissue⟩
  · have hd := not_done (by rw [hs]; exact nofun) (by rw [hs]; exact nofun)
    have hu := hst.ne_unattached hr hm (by rw [hs]; exact nofun)
    obtain hidle | hrun : t.pinState p = some .idle ∨ t.pinState p = some .running := by tauto
    · exact .inl hidle
    · exact .inr ⟨hrun, hst.host_of_becomes_running hr hs hrun⟩
  · refine (hst.owns_of_running hi hr hs).imp_right fun hd => ?_
    obtain ⟨_, c, ds, hc, hn⟩ := hst.running_of_becomes_done hi (by rw [hs]; exact nofun) hd
    exact ⟨hd, c, ds, hn, hc⟩

/-! ### Claims under HOLD (R28, R99) -/

/-- Settles O19: of what a step can do to a bus, HOLD leaves a retrieval alone to take a claim away. -/
theorem holdReleasesOnlyByRetrieval : Obligations.HoldReleasesOnlyByRetrieval := by
  unfold Obligations.HoldReleasesOnlyByRetrieval
  intro s t b hi hhold hr hb h
  cases (stepped_of_step h).busStep hr b with
  | kept h => rw [h]; exact .inl ⟨hb, rfl, rfl⟩
  | released hn p hp hd hawait _ =>
    obtain ⟨rfl, hdone⟩ := State.owner_of_pinState_done hp hd
    exact .inr ⟨hdone, hn, hawait⟩
  | claimed hn q hall hq hg _ =>
    obtain ⟨hdone, ⟨hev, _⟩ | ⟨hs, _, howner⟩⟩ := hi.claimGuard_of_busy hq hg hb
    · rw [hhold] at hev; cases hev
    · exact .inr ⟨hdone, hn, howner ▸ State.awaited_hallWaitP hs⟩
  | completed _ _ _ h => rw [h]; exact .inl ⟨hb, rfl, rfl⟩

/-! ### The completion output (R129) -/

/-- Settles O20: of what a step can do to a bus, `Complete` alone sets `done`, and a retrieval or a claim
of a bus that is done alone clears it. -/
theorem completionOutputRisesAndFalls : Obligations.CompletionOutputRisesAndFalls := by
  unfold Obligations.CompletionOutputRisesAndFalls
  intro s t b hi hr h
  have hst := stepped_of_step h
  simp only [State.doneOut]
  refine ⟨fun hs ht => ?_, fun hs ht => ?_⟩
  · obtain hkept | ⟨hconv, _, hn⟩ := hst.bus_of_done ht
    · rw [hkept, hs] at ht; cases ht
    · exact ⟨hconv, hn⟩
  · cases hst.busStep hr b with
    | kept h => rw [h, hs] at ht; cases ht
    | released hn p hp hd hawait h =>
      obtain ⟨rfl, _⟩ := State.owner_of_pinState_done hp hd
      exact ⟨hn, .inl ⟨hawait, .inl (by rw [h])⟩⟩
    | claimed hn q hall hq hg h =>
      have hbusy : (t.bus b).busy = true := by rw [h]; rfl
      have howner : (t.bus b).owner = q := by rw [h]; rfl
      have hrun := (hst.inv hi).owner_running hbusy ht
      rw [howner] at hrun ⊢
      obtain ⟨_, ⟨hev, hs, hne⟩ | ⟨hs, rfl, hP⟩⟩ := hi.claimGuard_of_busy hq hg (hi.busy_of_done hs)
      · exact ⟨hn, .inr ⟨hev, hs, hbusy, ht, hne.symm, hq, hrun⟩⟩
      · exact ⟨hn, .inl ⟨hP ▸ State.awaited_hallWaitP hs, .inr ⟨hs, hrun, rfl⟩⟩⟩
    | completed _ _ hc => rw [((s.converting_iff b).mp hc).2] at hs; cases hs

end Sys2Proof.Machine
end

section
/-! SUPPORT. The resume steps of HALLREAD with their guards true and false (R114, R115), and simulations:
relations of states that no command and no step of any agent can break, of which the spec claims two
(R26, R40). -/

namespace Sys2Proof.Machine

/-! ### `HallResumeP` and `HallResumeN` -/

theorem hallResumeP_of_done {s : State} {bP bN : Nat} (hP : s.pinMap s.platform.hallP = some bP)
    (hN : s.pinMap s.platform.hallN = some bN) (hd : s.pinState s.platform.hallP = some .done) :
    hallResumeP s =
      ((s.release bP).claim bN s.platform.hallN true).waitFor (.hallWaitN (s.bus bP).result) := by
  simp [hallResumeP, hP, hN, hd]

theorem hallResumeP_of_not_done {s : State} (hd : s.pinState s.platform.hallP ≠ some .done) :
    hallResumeP s = s := by
  obtain e | ⟨_, _, _, _, hd', _⟩ := hallResumeP_cases s
  · exact e
  · exact absurd hd' hd

theorem hallResumeP_of_invalid {s : State} (hN : s.pinMap s.platform.hallN = none) :
    hallResumeP s = s := by
  obtain e | ⟨_, _, _, hN', _⟩ := hallResumeP_cases s
  · exact e
  · rw [hN] at hN'; cases hN'

theorem hallResumeN_of_done {s : State} {bN : Nat} (vP : Code)
    (hN : s.pinMap s.platform.hallN = some bN) (hd : s.pinState s.platform.hallN = some .done) :
    hallResumeN vP s =
      (s.release bN).respond .ok (hallCombine s.platform.hall vP (s.bus bN).result) := by
  simp [hallResumeN, hN, hd]

theorem hallResumeN_of_not_done {s : State} (vP : Code)
    (hd : s.pinState s.platform.hallN ≠ some .done) : hallResumeN vP s = s := by
  obtain e | ⟨_, _, hd', _⟩ := hallResumeN_cases vP s
  · exact e
  · exact absurd hd' hd

/-! ### What the tests and the answers read -/

/-- The two states agree in everything that a test reads or an answer shows. -/
structure State.SameView (s s' : State) : Prop where
  cfg : s'.cfg = s.cfg
  platform : s'.platform = s.platform
  nbus : s'.nbus = s.nbus
  seq : s'.seq = s.seq
  commands : s'.commands = s.commands
  turns : s'.turns = s.turns
  attached : ∀ p, (s'.pin p).attached = (s.pin p).attached
  lookup : ∀ p, s'.lookup p = s.lookup p
  buses : ∀ b, (s.bus b).Same (s'.bus b)

section
variable {s s' : State}

theorem State.SameView.pinMap (h : s.SameView s') (p : Pin) : s'.pinMap p = s.pinMap p :=
  State.pinMap_congr h.platform h.nbus p

theorem State.SameView.busFree (h : s.SameView s') (b : Nat) (p : Pin) :
    s'.busFree b p = s.busFree b p := by
  obtain ⟨hbusy, hdone, howner, _⟩ := h.buses b
  unfold State.busFree
  rw [h.platform, ← hbusy, ← hdone]
  cases hb : (s.bus b).busy with
  | false => rfl
  | true => rw [(howner hb).1]

theorem State.SameView.converting (h : s.SameView s') (b : Nat) :
    s'.converting b = s.converting b := by
  obtain ⟨hbusy, hdone, _⟩ := h.buses b
  unfold State.converting
  rw [hbusy, hdone]

theorem State.SameView.pinState (h : s.SameView s') (p : Pin) : s'.pinState p = s.pinState p := by
  unfold State.pinState
  rw [h.pinMap, h.attached]
  cases s.pinMap p with
  | none => rfl
  | some b =>
    obtain ⟨hbusy, hdone, howner, _⟩ := h.buses b
    simp only [← hbusy, ← hdone]
    cases hb : (s.bus b).busy with
    | false => simp
    | true => rw [(howner hb).1]

theorem State.SameView.nextTurn (h : s.SameView s') : s'.nextTurn = s.nextTurn :=
  State.nextTurn_congr h.turns h.nbus h.converting

/-- A result that is done reads the same. -/
theorem State.SameView.result (h : s.SameView s') {p : Pin} {b : Nat} (hm : s.pinMap p = some b)
    (hd : s.pinState p = some .done) : (s'.bus b).result = (s.bus b).result := by
  obtain ⟨_, hbusy, _, hdone⟩ := (State.pinState_eq_done hm).mp hd
  obtain ⟨_, _, _, hresult⟩ := h.buses b
  exact (hresult hbusy hdone).symm

theorem State.SameView.readCfg (h : s.SameView s') (idx : BitVec 3) :
    s'.readCfg idx = s.readCfg idx := by
  unfold State.readCfg
  rw [h.cfg]

end

/-! ### Simulations -/

/-- A relation that no test can see and every operation keeps, with the same operands on both sides. -/
structure State.Simulation (R : State → State → Prop) : Prop where
  view : ∀ {s s'}, R s s' → s.SameView s'
  respond : ∀ {s s'} (st : Status) (v : Word), R s s' → R (s.respond st v) (s'.respond st v)
  waitFor : ∀ {s s'} (q : Seq), R s s' → R (s.waitFor q) (s'.waitFor q)
  writeCfg : ∀ {s s'} (c : CfgFile), R s s' → R { s with cfg := c } { s' with cfg := c }
  attachPin : ∀ {s s'} (p : Pin), R s s' → R (s.attachPin p) (s'.attachPin p)
  setOverride : ∀ {s s'} (p : Pin) (l : Level), R s s' → R (s.setOverride p l) (s'.setOverride p l)
  claim : ∀ {s s'} (b : Nat) (p : Pin) (hall : Bool), R s s' → R (s.claim b p hall) (s'.claim b p hall)
  release : ∀ {s s'} (b : Nat), R s s' → R (s.release b) (s'.release b)
  complete : ∀ {s s'} (b : Nat) (ds : List RawSample), R s s' → R (complete b ds s) (complete b ds s')
  setAltmode : ∀ {s s'} (p : Pin), R s s' → R (s.setAltmode p) (s'.setAltmode p)
  assertReset : ∀ {s s'}, R s s' → R s.assertReset s'.assertReset
  beginTurn : ∀ {s s'}, R s s' → R s.beginTurn s'.beginTurn
  present : ∀ {s s'} (ws : List Word), R s s' → R { s with commands := ws } { s' with commands := ws }

/-- The two outcomes are next states that are related. -/
def State.RelatedNext (R : State → State → Prop) (o o' : Host.Outcome State Fault Refusal) : Prop :=
  ∃ t t', o = .next t ∧ o' = .next t' ∧ R t t'

theorem State.RelatedNext.of_next {R : State → State → Prop} {s s' : State} (h : R s s') :
    State.RelatedNext R (.next s) (.next s') := ⟨s, s', rfl, rfl, h⟩

theorem State.RelatedNext.of_left {R : State → State → Prop} {o o' : Host.Outcome State Fault Refusal}
    (h : State.RelatedNext R o o') {t : State} (ht : o = .next t) : ∃ t', o' = .next t' ∧ R t t' := by
  obtain ⟨u, u', hu, hu', hR⟩ := h
  obtain rfl := Host.Outcome.next.inj (ht.symm.trans hu)
  exact ⟨u', hu', hR⟩

section
variable {R : State → State → Prop} {s s' : State}

/-- Both sides of a test that reads the same on them take the same branch. -/
theorem State.related_ite {c c' : Prop} [Decidable c] [Decidable c'] {a b a' b' : State}
    (hc : c' ↔ c) (ha : R a a') (hb : R b b') :
    R (if c then a else b) (if c' then a' else b') := by
  by_cases h : c
  · rwa [if_pos h, if_pos (hc.mpr h)]
  · rwa [if_neg h, if_neg (mt hc.mp h)]

theorem State.Simulation.onPin (hS : State.Simulation R) (hR : R s s') (p : Pin) {k k' : Nat → State}
    (hk : ∀ b, R (k b) (k' b)) : R (s.onPin p k) (s'.onPin p k') := by
  unfold State.onPin
  rw [(hS.view hR).pinMap]
  cases s.pinMap p with
  | none => exact hS.respond _ _ hR
  | some b => exact hk b

theorem State.Simulation.setCfg (hS : State.Simulation R) (hR : R s s') (lo hi : Nat) (v : Imm)
    {w w' : Nat → CfgFile} (hw : w' = w) : R (s.setCfg lo hi v w) (s'.setCfg lo hi v w') := by
  have hrange : s'.platform.range = s.platform.range := by rw [(hS.view hR).platform]
  unfold State.setCfg
  rw [hw, hrange]
  refine State.related_ite Iff.rfl (hS.respond _ _ (hS.writeCfg _ hR)) ?_
  cases s.platform.range with
  | reject => exact hS.respond _ _ hR
  | clamp => exact hS.respond _ _ (hS.writeCfg _ hR)

/-- No command breaks a simulation. -/
theorem State.Simulation.exec (hS : State.Simulation R) (hR : R s s') (i : Instr) :
    State.RelatedNext R (exec i s) (exec i s') := by
  have hv := hS.view hR
  have written (f : CfgFile → Nat → CfgFile) : f s'.cfg = f s.cfg := by rw [hv.cfg]
  cases i with
  | setRes v =>
    exact .of_next (hS.setCfg hR 1 16 v (written fun c x => { c with res := BitVec.ofNat 5 x }))
  | setWidth v =>
    exact .of_next (hS.setCfg hR 9 12 v (written fun c x => { c with width := BitVec.ofNat 4 x }))
  | setCycles v =>
    exact .of_next (hS.setCfg hR 1 255 v (written fun c x => { c with cycles := BitVec.ofNat 8 x }))
  | setSamples v =>
    exact .of_next (hS.setCfg hR 1 255 v (written fun c x => { c with samples := BitVec.ofNat 8 x }))
  | setClkDiv v =>
    exact .of_next (hS.setCfg hR 1 255 v (written fun c x => { c with clkdiv := BitVec.ofNat 8 x }))
  | setAtten l =>
    have hc := hS.respond .ok 0 (hS.writeCfg { s.cfg with gatten := l } hR)
    exact .of_next (by rw [hv.cfg]; exact hc)
  | setPinAtten p l =>
    exact .of_next (hS.onPin hR p fun _ => hS.respond _ _ (hS.setOverride p l (hS.attachPin p hR)))
  | attach p => exact .of_next (hS.onPin hR p fun _ => hS.respond _ _ (hS.attachPin p hR))
  | getAtten p => exact .of_next (hS.onPin hR p fun _ => by rw [hv.lookup]; exact hS.respond _ _ hR)
  | busy p => exact .of_next (hS.onPin hR p fun _ => by rw [hv.pinState]; exact hS.respond _ _ hR)
  | getCfg idx =>
    refine .of_next ?_
    rw [hv.readCfg]
    cases s.readCfg idx <;> exact hS.respond _ _ hR
  | start p =>
    refine .of_next (hS.onPin hR p fun b => ?_)
    rw [hv.busFree, hv.attached]
    exact State.related_ite Iff.rfl (hS.respond _ _ hR)
      (State.related_ite Iff.rfl (hS.respond _ _ hR) (hS.respond _ _ (hS.claim b p false hR)))
  | endConv p =>
    refine .of_next (hS.onPin hR p fun b => ?_)
    rw [hv.attached]
    exact State.related_ite Iff.rfl (hS.respond _ _ hR) (hS.waitFor _ hR)
  | read p =>
    have hA := hS.attachPin p hR
    refine .of_next (hS.onPin hR p fun b => ?_)
    rw [(hS.view hA).busFree]
    exact State.related_ite Iff.rfl (hS.respond _ _ hA) (hS.waitFor _ (hS.claim b p false hA))
  | hallRead =>
    have hA := hS.attachPin s.platform.hallN (hS.attachPin s.platform.hallP hR)
    refine .of_next ?_
    rw [hv.platform]
    refine hS.onPin hR _ fun bP => hS.onPin hR _ fun bN => ?_
    rw [hv.busFree, hv.busFree]
    exact State.related_ite Iff.rfl (hS.respond _ _ hR) (hS.waitFor _ (hS.claim bP _ true hA))

theorem State.Simulation.issue (hS : State.Simulation R) (hR : R s s') (w : Word) :
    State.RelatedNext R (issue w s) (issue w s') := by
  unfold Sys2Proof.Machine.issue
  cases decode w with
  | ok i => exact hS.exec hR i
  | error e => exact .of_next (hS.respond _ _ hR)

theorem State.Simulation.resume (hS : State.Simulation R) (hR : R s s') (p : Pin) :
    R (resume p s) (resume p s') := by
  have hv := hS.view hR
  by_cases hd : s.pinState p = some .done
  · obtain ⟨b, hm⟩ := State.validPin_of_pinState hd
    rw [resume_of_done hm hd, resume_of_done ((hv.pinMap p).trans hm) ((hv.pinState p).trans hd),
      hv.result hm hd]
    exact hS.respond _ _ (hS.release b hR)
  · rw [resume_of_not_done hd, resume_of_not_done (by rwa [hv.pinState])]
    exact hR

theorem State.Simulation.hallResumeP (hS : State.Simulation R) (hR : R s s') :
    R (hallResumeP s) (hallResumeP s') := by
  have hv := hS.view hR
  have hm (p : Pin) : s'.pinMap p = s.pinMap p := hv.pinMap p
  by_cases hd : s.pinState s.platform.hallP = some .done
  · obtain ⟨bP, hP⟩ := State.validPin_of_pinState hd
    cases hN : s.pinMap s.platform.hallN with
    | none =>
      rw [hallResumeP_of_invalid hN, hallResumeP_of_invalid (by rwa [hv.platform, hm])]
      exact hR
    | some bN =>
      rw [hallResumeP_of_done hP hN hd,
        hallResumeP_of_done (bP := bP) (bN := bN) (by rwa [hv.platform, hm]) (by rwa [hv.platform, hm])
          (by rwa [hv.platform, hv.pinState]), hv.result hP hd, hv.platform]
      exact hS.waitFor _ (hS.claim bN _ true (hS.release bP hR))
  · rw [hallResumeP_of_not_done hd, hallResumeP_of_not_done (by rwa [hv.platform, hv.pinState])]
    exact hR

theorem State.Simulation.hallResumeN (hS : State.Simulation R) (hR : R s s') (vP : Code) :
    R (hallResumeN vP s) (hallResumeN vP s') := by
  have hv := hS.view hR
  by_cases hd : s.pinState s.platform.hallN = some .done
  · obtain ⟨bN, hN⟩ := State.validPin_of_pinState hd
    rw [hallResumeN_of_done vP hN hd,
      hallResumeN_of_done (bN := bN) vP (by rwa [hv.platform, hv.pinMap])
        (by rwa [hv.platform, hv.pinState]), hv.result hN hd, hv.platform]
    exact hS.respond _ _ (hS.release bN hR)
  · rw [hallResumeN_of_not_done vP hd, hallResumeN_of_not_done vP (by rwa [hv.platform, hv.pinState])]
    exact hR

theorem State.Simulation.hostTurn (hS : State.Simulation R) (hR : R s s') :
    State.RelatedNext R (hostTurn s) (hostTurn s') := by
  have hv := hS.view hR
  unfold Sys2Proof.Machine.hostTurn
  rw [hv.seq, hv.commands]
  cases s.seq with
  | idle =>
    cases s.commands with
    | nil => exact .of_next hR
    | cons w rest => exact hS.issue (hS.present rest hR) w
  | wait p => exact .of_next (hS.resume hR p)
  | hallWaitP => exact .of_next (hS.hallResumeP hR)
  | hallWaitN vP => exact .of_next (hS.hallResumeN hR vP)

/-- No step of any agent breaks a simulation. -/
theorem State.Simulation.step (hS : State.Simulation R) (hR : R s s') :
    State.RelatedNext R (step s) (step s') := by
  have hB := hS.beginTurn hR
  unfold Sys2Proof.Machine.step
  rw [(hS.view hR).nextTurn]
  cases s.nextTurn with
  | host => exact hS.hostTurn hB
  | engine b ds => exact .of_next (hS.complete b ds hB)
  | altmode p => exact .of_next (hS.setAltmode p hB)
  | reset => exact .of_next (hS.assertReset hB)

end

/-- The reset input sees the parameters, the agenda and the count of draws alone. -/
theorem State.assertReset_congr {s s' : State} (hn : s'.nbus = s.nbus) (hp : s'.platform = s.platform)
    (hc : s'.commands = s.commands) (ht : s'.turns = s.turns) (hd : s'.drawn = s.drawn) :
    s'.assertReset = s.assertReset := by
  unfold State.assertReset
  rw [hn, hp, hc, ht, hd]

/-! ### Fields that R40 leaves unspecified -/

theorem PinEntry.Same.refl (e : PinEntry) : e.Same e := ⟨rfl, rfl, rfl, fun _ => rfl⟩
theorem BusRec.Same.refl (r : BusRec) : r.Same r := ⟨rfl, rfl, fun _ => ⟨rfl, rfl⟩, fun _ _ => rfl⟩
theorem State.Same.refl (s : State) : s.Same s :=
  ⟨rfl, fun _ => .refl _, rfl, fun _ => .refl _, rfl, rfl, rfl, rfl, rfl, rfl⟩

theorem State.Same.lookup {s s' : State} (h : s.Same s') (p : Pin) : s'.lookup p = s.lookup p := by
  obtain ⟨_, hvalid, _, hlevel⟩ := h.pins p
  unfold State.lookup
  rw [← hvalid, ← h.cfg]
  split
  · next hv => exact (hlevel hv).symm
  · rfl

theorem State.Same.view {s s' : State} (h : s.Same s') : s.SameView s' where
  cfg := h.cfg.symm
  platform := h.platform.symm
  nbus := h.nbus.symm
  seq := h.seq.symm
  commands := h.commands.symm
  turns := h.turns.symm
  attached p := (h.pins p).1.symm
  lookup := h.lookup
  buses := h.buses

theorem State.Same.snapshot {s s' : State} (h : s.Same s') (p : Pin) (hall : Bool) :
    s'.snapshot p hall = s.snapshot p hall := by
  unfold State.snapshot
  rw [h.lookup, ← h.cfg]

/-- Two entries that are the same but for unspecified fields may be written to one pin. -/
theorem State.Same.setPin {s s' : State} (h : s.Same s') (p : Pin) {e e' : PinEntry} (he : e.Same e') :
    (s.setPin p e).Same (s'.setPin p e') :=
  { h with
    pins := fun q => by
      rw [State.pin_setPin, State.pin_setPin]
      split
      · exact he
      · exact h.pins q }

/-- Two records that are the same but for unspecified fields may be written to one bus. -/
theorem State.Same.setBus {s s' : State} (h : s.Same s') (b : Nat) {r r' : BusRec} (hr : r.Same r') :
    (s.setBus b r).Same (s'.setBus b r') :=
  { h with
    nbus := by rw [State.nbus_setBus, State.nbus_setBus]; exact h.nbus
    buses := fun c => by
      have hlen : s.buses.length = s'.buses.length := h.nbus
      rw [State.bus_setBus, State.bus_setBus, hlen]
      split
      · exact hr
      · exact h.buses c }

/-- A running conversion reports the same code: its owner, snapshot and draws are the same. -/
theorem State.Same.complete {s s' : State} (h : s.Same s') (b : Nat) (ds : List RawSample) :
    (complete b ds s).Same (complete b ds s') := by
  obtain ⟨hbusy, hdone, hclaim, _⟩ := h.buses b
  unfold Sys2Proof.Machine.complete
  rw [h.view.converting]
  split
  · next hconv =>
    obtain ⟨hb, _⟩ := (s.converting_iff b).mp hconv
    obtain ⟨howner, hsnap⟩ := hclaim hb
    have hdraws : acquire (s'.bus b) ds s'.drawn = acquire (s.bus b) ds s.drawn := by
      simp only [acquire, BusRec.freeSample, ← howner, ← hsnap, ← h.drawn]
    have hr := h.setBus b (r := s.completedBus b ds) (r' := s'.completedBus b ds)
      ⟨hbusy, rfl, fun _ => ⟨howner, hsnap⟩, fun _ _ => by
        simp only [State.completedBus, hdraws, ← hsnap]⟩
    exact { hr with
      pins := hr.pins, nbus := hr.nbus, buses := hr.buses
      drawn := by simp only [hsnap, h.drawn] }
  · exact h

theorem State.Same.simulation : State.Simulation State.Same where
  view h := h.view
  respond st v h := { h with pins := h.pins, nbus := h.nbus, buses := h.buses, seq := rfl, rsp := rfl }
  waitFor q h := { h with pins := h.pins, nbus := h.nbus, buses := h.buses, seq := rfl, rsp := rfl }
  writeCfg c h := { h with pins := h.pins, nbus := h.nbus, buses := h.buses, cfg := rfl }
  attachPin p h := by
    obtain ⟨_, hvalid, _, hlevel⟩ := h.pins p
    exact h.setPin p ⟨rfl, hvalid, rfl, hlevel⟩
  setOverride p l h := by
    obtain ⟨hatt, _, halt, _⟩ := h.pins p
    exact h.setPin p ⟨hatt, rfl, halt, fun _ => rfl⟩
  claim b p hall h := h.setBus b ⟨rfl, rfl, fun _ => ⟨rfl, (h.snapshot p hall).symm⟩, nofun⟩
  release b h := h.setBus b ⟨rfl, rfl, nofun, nofun⟩
  complete b ds h := h.complete b ds
  setAltmode p h := by
    unfold State.setAltmode
    rw [h.view.pinMap]
    obtain ⟨hatt, hvalid, _, hlevel⟩ := h.pins p
    exact State.related_ite Iff.rfl (h.setPin p ⟨hatt, hvalid, rfl, hlevel⟩) h
  assertReset h := by
    rw [State.assertReset_congr h.nbus.symm h.platform.symm h.commands.symm h.turns.symm h.drawn.symm]
    exact .refl _
  beginTurn h := { h with
    pins := h.pins, nbus := h.nbus, buses := h.buses, rsp := rfl, turns := congrArg List.tail h.turns }
  present ws h := { h with pins := h.pins, nbus := h.nbus, buses := h.buses, commands := rfl }

/-- Settles O24: to differ in unspecified fields alone is a simulation. -/
theorem unspecifiedFieldsAreUnobservable : Obligations.UnspecifiedFieldsAreUnobservable := by
  unfold Obligations.UnspecifiedFieldsAreUnobservable
  exact fun s s' t h ht => (State.Same.simulation.step h).of_left ht

/-! ### `altmode` -/

/-- The two states differ in `altmode` alone, and not in that of a pin of `K`. -/
structure State.SameButAltmodeOff (K : Pin → Prop) (s s' : State) : Prop where
  same : s.SameButAltmode s'
  kept : ∀ q, K q → (s.pin q).altmode = (s'.pin q).altmode

section
variable {K : Pin → Prop} {s s' : State}

theorem State.SameButAltmode.bus (h : s.SameButAltmode s') (b : Nat) : s'.bus b = s.bus b := by
  unfold State.bus
  rw [h.buses]

theorem State.SameButAltmode.nbus (h : s.SameButAltmode s') : s'.nbus = s.nbus :=
  congrArg List.length h.buses.symm

theorem State.SameButAltmode.lookup (h : s.SameButAltmode s') (p : Pin) : s'.lookup p = s.lookup p := by
  unfold State.lookup
  rw [← h.pins p, h.cfg]

theorem State.SameButAltmode.view (h : s.SameButAltmode s') : s.SameView s' where
  cfg := h.cfg.symm
  platform := h.platform.symm
  nbus := h.nbus
  seq := h.seq.symm
  commands := h.commands.symm
  turns := h.turns.symm
  attached p := by rw [← h.pins p]
  lookup := h.lookup
  buses b := by rw [h.bus b]; exact .refl _

theorem State.SameButAltmode.snapshot (h : s.SameButAltmode s') (p : Pin) (hall : Bool) :
    s'.snapshot p hall = s.snapshot p hall := by
  unfold State.snapshot
  rw [h.lookup, h.cfg]

/-- Two entries that differ in `altmode` alone may be written to one pin. -/
theorem State.SameButAltmodeOff.setPin (h : s.SameButAltmodeOff K s') (p : Pin) {e e' : PinEntry}
    (he : { e with altmode := e'.altmode } = e') (hK : K p → e.altmode = e'.altmode) :
    (s.setPin p e).SameButAltmodeOff K (s'.setPin p e') where
  same := { h.same with
    pins := fun q => by
      rw [State.pin_setPin, State.pin_setPin]
      split
      · exact he
      · exact h.same.pins q }
  kept q hq := by
    rw [State.pin_setPin, State.pin_setPin]
    split
    · next hqp => exact hK (hqp ▸ hq)
    · exact h.kept q hq

theorem State.SameButAltmodeOff.setBus (h : s.SameButAltmodeOff K s') (b : Nat) {r r' : BusRec}
    (hr : r' = r) : (s.setBus b r).SameButAltmodeOff K (s'.setBus b r') where
  same := { h.same with
    pins := h.same.pins
    buses := by rw [State.setBus_buses, State.setBus_buses, h.same.buses, hr] }
  kept := h.kept

theorem State.SameButAltmodeOff.complete (h : s.SameButAltmodeOff K s') (b : Nat)
    (ds : List RawSample) : (complete b ds s).SameButAltmodeOff K (complete b ds s') := by
  unfold Sys2Proof.Machine.complete
  rw [h.same.view.converting]
  split
  · have hr := h.setBus b (r := s.completedBus b ds) (r' := s'.completedBus b ds)
      (by simp only [State.completedBus, h.same.bus, h.same.drawn])
    exact ⟨{ hr.same with
      pins := hr.same.pins
      drawn := by simp only [h.same.bus, h.same.drawn] }, hr.kept⟩
  · exact h

end

theorem State.SameButAltmodeOff.simulation (K : Pin → Prop) :
    State.Simulation (State.SameButAltmodeOff K) where
  view h := h.same.view
  respond st v h := ⟨{ h.same with pins := h.same.pins, seq := rfl, rsp := rfl }, h.kept⟩
  waitFor q h := ⟨{ h.same with pins := h.same.pins, seq := rfl, rsp := rfl }, h.kept⟩
  writeCfg c h := ⟨{ h.same with pins := h.same.pins, cfg := rfl }, h.kept⟩
  attachPin p h := h.setPin p (by rw [← h.same.pins p]) fun _ => rfl
  setOverride p l h := h.setPin p (by rw [← h.same.pins p]) (h.kept p)
  claim b p hall h := h.setBus b (by rw [h.same.bus, h.same.snapshot])
  release b h := h.setBus b (by rw [h.same.bus])
  complete b ds h := h.complete b ds
  setAltmode p h := by
    unfold State.setAltmode
    rw [h.same.view.pinMap]
    exact State.related_ite Iff.rfl (h.setPin p (by rw [← h.same.pins p]) fun _ => rfl) h
  assertReset h := by
    have hv := h.same.view
    rw [State.assertReset_congr hv.nbus hv.platform hv.commands hv.turns h.same.drawn.symm]
    exact ⟨.refl _, fun _ _ => rfl⟩
  beginTurn h :=
    ⟨{ h.same with pins := h.same.pins, rsp := rfl, turns := congrArg List.tail h.same.turns }, h.kept⟩
  present ws h := ⟨{ h.same with pins := h.same.pins, commands := rfl }, h.kept⟩

/-- Settles O14: to differ in `altmode` alone, and at most for the pins where it differed before, is a
simulation. -/
theorem altmodeIsNeverRead : Obligations.AltmodeIsNeverRead := by
  unfold Obligations.AltmodeIsNeverRead
  refine ⟨fun i s s' t h ht => ?_, fun s s' t h ht => ?_⟩
  all_goals
    have hS := State.SameButAltmodeOff.simulation fun q => (s.pin q).altmode = (s'.pin q).altmode
    have hR : s.SameButAltmodeOff (fun q => (s.pin q).altmode = (s'.pin q).altmode) s' :=
      ⟨h, fun _ => id⟩
  · obtain ⟨t', ht', hT⟩ := (hS.exec hR i).of_left ht
    exact ⟨t', ht', hT.same, hT.kept⟩
  · obtain ⟨t', ht', hT⟩ := (hS.step hR).of_left ht
    exact ⟨t', ht', hT.same, hT.kept⟩

end Sys2Proof.Machine
end

section
/-! SUPPORT. The arithmetic of the conversion engine (43_conversion_engine.md section 2) and of HALLREAD's
difference: the draws, their mean, the rescaled code and its range. -/

namespace Sys2Proof.Machine

/-! ### The draws (R104) -/

/-- Where the environment lists enough samples, the draws are the first of them, each cut to the native
width. -/
theorem acquire_eq_take {r : BusRec} {ds : List RawSample} (h : r.snap.samples.toNat ≤ ds.length)
    (k : Nat) : acquire r ds k =
      (ds.take r.snap.samples.toNat).map fun x => x.toNat % 2 ^ r.snap.width.toNat := by
  refine List.ext_getElem (by simp [acquire, h]) fun j hj _ => ?_
  have hlt : j < ds.length := by rw [length_acquire] at hj; omega
  simp [acquire, List.getD_eq_getElem?_getD, hlt]

/-- A list of as many samples as needed, each of the native range, is the draws themselves. -/
theorem acquire_of_listed {r : BusRec} {ds : List RawSample} (hlen : ds.length = r.snap.samples.toNat)
    (hr : ∀ x ∈ ds, x.toNat < 2 ^ r.snap.width.toNat) (k : Nat) :
    acquire r ds k = ds.map BitVec.toNat := by
  rw [acquire_eq_take (Nat.le_of_eq hlen.symm), ← hlen, List.take_length]
  exact List.map_congr_left fun x hx => Nat.mod_eq_of_lt (hr x hx)

/-- Settles O26. -/
theorem drawsAreInRange : Obligations.DrawsAreInRange := by
  unfold Obligations.DrawsAreInRange
  refine fun r ds k => ⟨length_acquire r ds k, fun x hx => Nat.le_sub_one_of_lt (acquire_lt hx),
    fun hlen hr => acquire_of_listed hlen hr k, fun hhall l => ?_⟩
  simp only [acquire, freeSample_of_hall hhall]

/-! ### The mean (R105) -/

/-- The mean is the quotient of the sum by the count, rounded toward zero. -/
theorem average_floor {xs : List Nat} (h : xs ≠ []) :
    xs.length * average xs ≤ xs.sum ∧ xs.sum < xs.length * (average xs + 1) :=
  ⟨Nat.mul_div_le _ _, Nat.lt_mul_div_succ _ (List.length_pos_iff.mpr h)⟩

/-- Settles O27. -/
theorem averageIsTheTruncatedMean : Obligations.AverageIsTheTruncatedMean := by
  unfold Obligations.AverageIsTheTruncatedMean
  refine ⟨fun r ds k hl => ?_, fun xs hne => ⟨average_floor hne, fun hlen hr => ?_, ?_, fun w hr => ?_⟩⟩
  · rw [length_acquire]
    exact ⟨hl.samples, Nat.le_of_lt_succ r.snap.samples.isLt⟩
  · have hsum : xs.sum ≤ 255 * 4095 :=
      (sum_le_length_mul hr).trans (Nat.mul_le_mul_right 4095 hlen)
    exact ⟨hsum, Nat.lt_of_le_of_lt hsum (by decide)⟩
  · rintro x rfl
    simp [average]
  · have hpos := Nat.two_pow_pos w
    exact Nat.le_sub_one_of_lt (average_lt hpos fun x hx => Nat.lt_of_le_sub_one hpos (hr x hx))

/-! ### Rescaling (R106, R109) -/

/-- Rescaling to `k` bits fewer than the native width discards the low `k` bits, for every `k`. -/
theorem rescale_sub (v : Nat) {w k : Nat} (h : k ≤ w) : rescale v w (w - k) = v / 2 ^ k := by
  obtain rfl | hk := Nat.eq_zero_or_pos k
  · simp [rescale_same]
  · rw [rescale_narrow v (by omega), Nat.sub_sub_self h]

theorem rescale_mono {v v' : Nat} (w r : Nat) (h : v ≤ v') : rescale v w r ≤ rescale v' w r := by
  rcases Nat.lt_trichotomy r w with hr | rfl | hr
  · rw [rescale_narrow v hr, rescale_narrow v' hr]; exact Nat.div_le_div_right h
  · rwa [rescale_same, rescale_same]
  · rw [rescale_widen v hr, rescale_widen v' hr]; exact Nat.mul_le_mul_right _ h

/-- Settles O28. -/
theorem rescaleLaws : Obligations.RescaleLaws := by
  unfold Obligations.RescaleLaws
  refine ⟨fun v w r hv _ _ _ hr => ⟨?_, rescale_narrow v, rescale_widen v, ?_⟩, rescale_same,
    fun a w k hk => ?_, fun v v' w r h => rescale_mono w r h⟩
  · rintro rfl
    exact rescale_same v r
  · have hlt : v < 2 ^ w := Nat.lt_of_le_sub_one (Nat.two_pow_pos w) hv
    exact Nat.lt_of_lt_of_le (rescale_lt hlt) (Nat.pow_le_pow_right (by decide) hr)
  · rw [rescale_sub a hk, rescale_same, Nat.shiftRight_eq_div_pow, Nat.shiftLeft_eq]
    exact ⟨rfl, Nat.div_mul_self_eq_mod_sub_self⟩

/-! ### The reported code (R107, R108) -/

/-- With a legal resolution the 16-bit register truncates nothing. -/
theorem toNat_convert {r : BusRec} (h : r.snap.Legal) (ds : List RawSample) (k : Nat) :
    (convert r.snap (acquire r ds k)).toNat =
      rescale (average (acquire r ds k)) r.snap.width.toNat r.snap.res.toNat := by
  have hlt := rescale_average_acquire_lt r ds k
  have hres : 2 ^ r.snap.res.toNat ≤ 2 ^ 16 := Nat.pow_le_pow_right (by decide) h.res.2
  exact Nat.mod_eq_of_lt (Nat.lt_of_lt_of_le hlt hres)

theorem toNat_convert_le {r : BusRec} (h : r.snap.Legal) (ds : List RawSample) (k : Nat) :
    (convert r.snap (acquire r ds k)).toNat ≤ 2 ^ r.snap.res.toNat - 1 := by
  rw [toNat_convert h]
  exact Nat.le_sub_one_of_lt (rescale_average_acquire_lt r ds k)

/-- The code reported for draws that are all listed is the rescaled mean of the list. -/
theorem toNat_convert_listed {r : BusRec} (h : r.snap.Legal) {ds : List RawSample}
    (hlen : ds.length = r.snap.samples.toNat) (hr : ∀ x ∈ ds, x.toNat < 2 ^ r.snap.width.toNat)
    (k : Nat) : (convert r.snap (acquire r ds k)).toNat =
      rescale ((ds.map BitVec.toNat).sum / r.snap.samples.toNat) r.snap.width.toNat
        r.snap.res.toNat := by
  rw [toNat_convert h, acquire_of_listed hlen hr, average, List.length_map, hlen]

/-- Settles O29. -/
theorem resultFitsTheResolution : Obligations.ResultFitsTheResolution := by
  unfold Obligations.ResultFitsTheResolution
  refine fun r ds k h => ⟨toNat_convert h ds k, toNat_convert_le h ds k, fun hw => ?_⟩
  rw [toNat_convert h, rescale_widen _ hw]
  exact Nat.mul_mod_left _ _

/-- Settles O30: the listed draws depend on `samples` and `width` alone, and the code on their mean, `width`
and `res`. -/
theorem resultIgnoresTheOtherLatchedFields : Obligations.ResultIgnoresTheOtherLatchedFields := by
  unfold Obligations.ResultIgnoresTheOtherLatchedFields
  intro r q ds k m hsamples hwidth hres hlen
  have hdraws : acquire r ds k = acquire q ds m := by
    rw [acquire_eq_take hlen, acquire_eq_take (hsamples ▸ hlen), hsamples, hwidth]
  rw [hdraws, convert, convert, hwidth, hres]

/-! ### The difference of two Hall values (R7, R115, R118) -/

/-- The signed difference of two 16-bit codes fits 32 bits. -/
theorem toInt_hallCombine_difference (vP vN : Code) :
    (hallCombine .difference vP vN).toInt = (vP.toNat : Int) - vN.toNat := by
  have hP := vP.isLt
  have hN := vN.isLt
  rw [hallCombine, BitVec.toInt_ofInt, Int.bmod_eq_of_le] <;> omega

theorem hallDifference_range {vP vN : Code} {r : Nat} (hP : vP.toNat ≤ 2 ^ r - 1)
    (hN : vN.toNat ≤ 2 ^ r - 1) : -(2 ^ r - 1 : Int) ≤ (hallCombine .difference vP vN).toInt ∧
      (hallCombine .difference vP vN).toInt ≤ 2 ^ r - 1 := by
  have hpow : ((2 ^ r : Nat) : Int) = 2 ^ r := by push_cast; rfl
  have hpos := Nat.two_pow_pos r
  rw [toInt_hallCombine_difference, ← hpow]
  omega

/-- Settles O59. -/
theorem hallDifferenceIsExact : Obligations.HallDifferenceIsExact := by
  unfold Obligations.HallDifferenceIsExact
  exact ⟨toInt_hallCombine_difference, fun vP vN r hP hN => hallDifference_range hP hN⟩

end Sys2Proof.Machine
end

section
/-! SUPPORT. The issue step of each command, one equation per outcome, and the statements that are read off
them (40_attenuation.md, 41_sampling_config.md, 42_bus_arbiter.md, 44_compound.md). -/

namespace Sys2Proof.Machine

/-! ### An operand pin that is invalid (R121) -/

/-- Settles O40: the pin check is the first test of each of the seven commands. -/
theorem invalidPinIsRefused : Obligations.InvalidPinIsRefused := by
  unfold Obligations.InvalidPinIsRefused
  intro s p l i hm hi
  simp only [List.mem_cons, List.not_mem_nil, or_false] at hi
  obtain rfl | rfl | rfl | rfl | rfl | rfl | rfl := hi
  all_goals exact congrArg Host.Outcome.next (State.onPin_none hm _)

/-! ### The attenuation table (R74 to R76) -/

theorem exec_setPinAtten {s : State} {p : Pin} (hp : s.validPin p) (l : Level) :
    exec (.setPinAtten p l) s = .next (((s.attachPin p).setOverride p l).respond .ok 0) := by
  obtain ⟨b, hm⟩ := Option.isSome_iff_exists.mp hp
  exact congrArg Host.Outcome.next (State.onPin_some hm _)

/-- Settles O32. -/
theorem setAttenWritesTheDefault : Obligations.SetAttenWritesTheDefault := by
  unfold Obligations.SetAttenWritesTheDefault
  intro s l
  refine ⟨_, rfl, rfl, fun p hp => State.lookup_of_no_override hp, fun p hp => ?_⟩
  rw [State.lookup_of_override (s := s) hp]
  exact State.lookup_of_override hp

/-- Settles O33. -/
theorem setPinAttenOverridesOnePin : Obligations.SetPinAttenOverridesOnePin := by
  unfold Obligations.SetPinAttenOverridesOnePin
  intro s p l hp
  have hpin : (((s.attachPin p).setOverride p l).respond .ok 0).pin p =
      { attached := true, ovrValid := true, ovrLevel := l, altmode := false } := by
    rw [State.pin_respond, State.pin_setOverride, if_pos rfl, State.pin_attachPin, if_pos rfl]
  refine ⟨_, exec_setPinAtten hp l, rfl, rfl, hpin, fun q hq => ?_, ?_, rfl, rfl, ⟨rfl, rfl, rfl, rfl, rfl⟩⟩
  · rw [State.pin_respond, State.pin_setOverride, if_neg hq, State.pin_attachPin, if_neg hq]
  · rw [State.lookup_of_override (by rw [hpin]), hpin]

/-- Settles O34. -/
theorem getAttenReadsTheLevel : Obligations.GetAttenReadsTheLevel := by
  unfold Obligations.GetAttenReadsTheLevel
  intro s p hp
  exact ⟨_, exec_getAtten_of_validPin hp, BitVec.toNat_setWidth_of_le (by decide)⟩

/-! ### The sampling-parameter register file (R79 to R86) -/

theorem State.setCfg_reject {s : State} {lo hi : Nat} {v : Imm} (hr : s.platform.range = .reject)
    (h : ¬ (lo ≤ v.toNat ∧ v.toNat ≤ hi)) (w : Nat → CfgFile) :
    s.setCfg lo hi v w = s.fail .invalidConfig := by simp [State.setCfg, h, hr]

theorem State.setCfg_clamp_below {s : State} {lo hi : Nat} {v : Imm} (hr : s.platform.range = .clamp)
    (h : v.toNat < lo) (w : Nat → CfgFile) :
    s.setCfg lo hi v w = { s with cfg := w lo }.respond .ok 0 := by
  simp [State.setCfg, Nat.not_le.mpr h, hr, h]

theorem State.setCfg_clamp_above {s : State} {lo hi : Nat} {v : Imm} (hr : s.platform.range = .clamp)
    (hle : lo ≤ hi) (h : hi < v.toNat) (w : Nat → CfgFile) :
    s.setCfg lo hi v w = { s with cfg := w hi }.respond .ok 0 := by
  simp [State.setCfg, Nat.not_le.mpr h, hr, Nat.not_lt.mpr (Nat.le_of_lt (Nat.lt_of_le_of_lt hle h))]

/-- Settles O35. -/
theorem settersWriteLegalOperands : Obligations.SettersWriteLegalOperands := by
  unfold Obligations.SettersWriteLegalOperands
  have fits {n hi x : Nat} (h : x ≤ hi) (hn : hi < 2 ^ n) : (BitVec.ofNat n x).toNat = x :=
    Nat.mod_eq_of_lt (Nat.lt_of_le_of_lt h hn)
  intro s v
  refine ⟨fun h => ⟨_, fits h.2 (by decide), ?_⟩, fun h => ⟨_, fits h.2 (by decide), ?_⟩,
    fun h => ⟨_, fits h.2 (by decide), ?_⟩, fun h => ⟨_, fits h.2 (by decide), ?_⟩,
    fun h => ⟨_, fits h.2 (by decide), ?_⟩⟩
  all_goals exact congrArg Host.Outcome.next (State.setCfg_inRange s _ h)

/-- Settles O36. -/
theorem rejectingSettersChangeNothing : Obligations.RejectingSettersChangeNothing := by
  unfold Obligations.RejectingSettersChangeNothing
  intro s v hr
  refine ⟨fun h => congrArg Host.Outcome.next (State.setCfg_reject hr h _),
    fun h => congrArg Host.Outcome.next (State.setCfg_reject hr h _), fun h i hi => ?_⟩
  simp only [List.mem_cons, List.not_mem_nil, or_false] at hi
  obtain rfl | rfl | rfl := hi
  all_goals exact congrArg Host.Outcome.next (State.setCfg_reject hr h _)

/-- Settles O37. -/
theorem clampingSettersWriteTheBound : Obligations.ClampingSettersWriteTheBound := by
  unfold Obligations.ClampingSettersWriteTheBound
  intro s v hr
  have below {lo hi : Nat} (h : v.toNat < lo) (w : Nat → CfgFile) :=
    congrArg (Host.Outcome.next (φ := Fault) (ρ := Refusal)) (State.setCfg_clamp_below (hi := hi) hr h w)
  have above {lo hi : Nat} (hle : lo ≤ hi) (h : hi < v.toNat) (w : Nat → CfgFile) :=
    congrArg (Host.Outcome.next (φ := Fault) (ρ := Refusal)) (State.setCfg_clamp_above hr hle h w)
  exact ⟨(below · _), (above (by decide) · _), (below · _), (above (by decide) · _),
    (below · _), (above (by decide) · _), (below · _), (above (by decide) · _),
    (below · _), (above (by decide) · _)⟩

/-- GETCFG of a register answers its value (R86). -/
theorem exec_getCfg {s : State} {idx : BitVec 3} {v : Word} (h : s.readCfg idx = some v) :
    exec (.getCfg idx) s = .next (s.respond .ok v) := by
  show execGetCfg idx s = _
  simp [execGetCfg, h]

/-- Settles O38, register by register. -/
theorem getCfgReadsTheRegister : Obligations.GetCfgReadsTheRegister := by
  unfold Obligations.GetCfgReadsTheRegister
  have registers : ∀ idx : BitVec 3, idx.toNat ≤ 5 →
      idx = 0 ∨ idx = 1 ∨ idx = 2 ∨ idx = 3 ∨ idx = 4 ∨ idx = 5 := by decide
  have extended {n : Nat} (x : BitVec n) (h : n ≤ 32) : (x.setWidth 32).toNat = x.toNat :=
    BitVec.toNat_setWidth_of_le h
  intro s idx hle
  obtain rfl | rfl | rfl | rfl | rfl | rfl := registers idx hle
  all_goals refine ⟨_, exec_getCfg rfl, ?_⟩
  all_goals simp only [extended, Nat.reduceLeDiff]
  all_goals simp

/-! ### Setters and conversions in flight (R51, R77, R110) -/

/-- The step of a conversion agent reads the bus records and the count of draws alone. -/
theorem bus_complete_congr {s t : State} (hb : t.buses = s.buses) (hd : t.drawn = s.drawn) (b : Nat)
    (ds : List RawSample) (c : Nat) : (complete b ds t).bus c = (complete b ds s).bus c := by
  have hbus (d : Nat) : t.bus d = s.bus d := by rw [State.bus, State.bus, hb]
  have hconv : t.converting b = s.converting b := by rw [State.converting, State.converting, hbus]
  rw [bus_complete, bus_complete, hconv, hbus, hbus, hd]

/-- `SetCfg` reaches neither the bus records nor the count of draws. -/
theorem State.setCfg_buses_drawn (s : State) (lo hi : Nat) (v : Imm) (w : Nat → CfgFile) :
    (s.setCfg lo hi v w).buses = s.buses ∧ (s.setCfg lo hi v w).drawn = s.drawn := by
  unfold State.setCfg
  split
  · exact ⟨rfl, rfl⟩
  · split <;> exact ⟨rfl, rfl⟩

/-- Settles O39: no setter writes what the agents' steps read. -/
theorem settersLeaveConversionsAlone : Obligations.SettersLeaveConversionsAlone := by
  unfold Obligations.SettersLeaveConversionsAlone
  intro s t v l p i b ds hi h
  have hkept : t.buses = s.buses ∧ t.drawn = s.drawn := by
    simp only [List.mem_cons, List.not_mem_nil, or_false] at hi
    obtain rfl | rfl | rfl | rfl | rfl | rfl | rfl := hi <;> obtain rfl := Host.Outcome.next.inj h
    · exact State.setCfg_buses_drawn s 1 16 v _
    · exact State.setCfg_buses_drawn s 9 12 v _
    · exact State.setCfg_buses_drawn s 1 255 v _
    · exact State.setCfg_buses_drawn s 1 255 v _
    · exact State.setCfg_buses_drawn s 1 255 v _
    · exact ⟨rfl, rfl⟩
    · obtain ⟨_, e⟩ | ⟨b, _, e⟩ := State.onPin_cases s p _ <;> rw [e] <;> exact ⟨rfl, rfl⟩
  exact ⟨hkept.1, bus_complete_congr hkept.1 hkept.2 b ds b⟩

/-! ### The bus arbiter: ATTACH, START, BUSY, END (R89 to R94) -/

theorem exec_attach {s : State} {p : Pin} {b : Nat} (hm : s.pinMap p = some b) :
    exec (.attach p) s = .next ((s.attachPin p).respond .ok 1) :=
  congrArg Host.Outcome.next (State.onPin_some hm _)

theorem exec_start_busBusy {s : State} {p : Pin} {b : Nat} (hm : s.pinMap p = some b)
    (hf : s.busFree b p = false) : exec (.start p) s = .next (s.fail .busBusy) :=
  congrArg Host.Outcome.next ((State.onPin_some hm _).trans (if_pos hf))

theorem exec_start_notAttached {s : State} {p : Pin} {b : Nat} (hm : s.pinMap p = some b)
    (hf : s.busFree b p = true) (ha : (s.pin p).attached = false) :
    exec (.start p) s = .next (s.fail .notAttached) :=
  congrArg Host.Outcome.next ((State.onPin_some hm _).trans (by simp [hf, ha]))

theorem exec_start_claims {s : State} {p : Pin} {b : Nat} (hm : s.pinMap p = some b)
    (hf : s.busFree b p = true) (ha : (s.pin p).attached = true) :
    exec (.start p) s = .next ((s.claim b p false).respond .ok 1) :=
  congrArg Host.Outcome.next ((State.onPin_some hm _).trans (by simp [hf, ha]))

theorem exec_busy {s : State} {p : Pin} {b : Nat} (hm : s.pinMap p = some b) :
    exec (.busy p) s = .next (s.respond .ok (if s.pinState p = some .running then 1 else 0)) :=
  congrArg Host.Outcome.next (State.onPin_some hm _)

/-- BUSY of a valid pin that is not RUNNING answers 0. -/
theorem exec_busy_of_not_running {s : State} {p : Pin} {b : Nat} (hm : s.pinMap p = some b)
    (hr : s.pinState p ≠ some .running) : exec (.busy p) s = .next (s.respond .ok 0) := by
  rw [exec_busy hm, if_neg hr]

theorem exec_endConv_waits {s : State} {p : Pin} {b : Nat} (hm : s.pinMap p = some b)
    (ha : (s.pin p).attached = true) : exec (.endConv p) s = .next (s.waitFor (.wait p)) :=
  congrArg Host.Outcome.next ((State.onPin_some hm _).trans (by simp [ha]))

theorem exec_endConv_notAttached {s : State} {p : Pin} {b : Nat} (hm : s.pinMap p = some b)
    (ha : (s.pin p).attached = false) : exec (.endConv p) s = .next (s.fail .notAttached) :=
  congrArg Host.Outcome.next ((State.onPin_some hm _).trans (if_pos ha))

theorem State.bus_claim_self {s : State} {p : Pin} {b : Nat} (hm : s.pinMap p = some b) (q : Pin)
    (hall : Bool) : (s.claim b q hall).bus b = s.claimedBus b q hall := by
  rw [State.bus_claim, if_pos ⟨rfl, State.pinMap_lt hm⟩]
  rfl

/-- The claimed pin is RUNNING and its bus's agent enabled (R34, R92, R103). -/
theorem State.pinState_claim_running {s : State} {p : Pin} {b : Nat} (hm : s.pinMap p = some b)
    (ha : (s.pin p).attached = true) (hall : Bool) :
    (s.claim b p hall).pinState p = some .running ∧ (s.claim b p hall).converting b = true := by
  have hbus := State.bus_claim_self hm p hall
  refine ⟨(State.pinState_eq_running ((State.pinMap_claim s b p hall p).trans hm)).mpr ⟨ha, ?_⟩,
    (State.converting_iff _ _).mpr ?_⟩ <;> rw [hbus]
  · exact ⟨rfl, rfl, rfl⟩
  · exact ⟨rfl, rfl⟩

/-- The attach step leaves the state of an attached pin alone (R89). -/
theorem State.pinState_attachPin_of_attached {s : State} {p : Pin} (ha : (s.pin p).attached = true) :
    (s.attachPin p).pinState p = s.pinState p :=
  State.pinState_congr rfl ((State.pin_attachPin_self_attached s p).trans ha.symm) fun _ _ => rfl

/-- The attach step leaves the state of every other pin alone (R89). -/
theorem State.pinState_attachPin_ne (s : State) {p q : Pin} (h : q ≠ p) :
    (s.attachPin p).pinState q = s.pinState q :=
  State.pinState_congr rfl (by rw [State.pin_attachPin, if_neg h]) fun _ _ => rfl

theorem State.pin_attachPin_self (s : State) (p : Pin) :
    (s.attachPin p).pin p = { s.pin p with attached := true, altmode := false } := by
  rw [State.pin_attachPin, if_pos rfl]
theorem State.pin_attachPin_ne (s : State) {p q : Pin} (h : q ≠ p) :
    (s.attachPin p).pin q = s.pin q := by rw [State.pin_attachPin, if_neg h]

/-- What lies outside the block and the parameters stay through an attach step and a claim. -/
theorem State.outsideKept_claim {s u : State} (h : s.OutsideKept u) (b : Nat) (p : Pin) (hall : Bool) :
    s.OutsideKept (u.claim b p hall) := { h with nbus := (State.nbus_claim u b p hall).trans h.nbus }

theorem State.OutsideKept.refl (s : State) : s.OutsideKept s := ⟨rfl, rfl, rfl, rfl, rfl⟩

/-- Settles O41. -/
theorem attachMarksThePin : Obligations.AttachMarksThePin := by
  unfold Obligations.AttachMarksThePin
  intro s p hp
  obtain ⟨b, hm⟩ := Option.isSome_iff_exists.mp hp
  refine ⟨_, exec_attach hm, rfl, rfl, State.pin_attachPin_self s p,
    fun q hq => State.pin_attachPin_ne s hq, rfl, rfl, ⟨rfl, rfl, rfl, rfl, rfl⟩, fun hu => ?_,
    fun q hq => State.pinState_attachPin_ne s hq⟩
  exact State.pinState_attachPin_of_attached (State.attached_of_ne_unattached hm hu)

/-- Settles O42. -/
theorem busFreeRule : Obligations.BusFreeRule := by
  unfold Obligations.BusFreeRule
  intro s b p
  have hiff := State.busFree_iff s b p
  have refused (h : ¬ s.busFree b p = true) : s.busFree b p = false := Bool.eq_false_of_not_eq_true h
  refine ⟨fun hp => ?_, fun hp => ?_, fun hb hd => refused ?_, fun hb ho => refused ?_⟩
  · simpa [hp] using hiff
  · simpa [hp] using hiff
  · rw [hiff, hb, hd]; simp
  · rw [hiff, hb, ho]; simp

/-- Settles O43. -/
theorem startClaimsAFreeBus : Obligations.StartClaimsAFreeBus := by
  unfold Obligations.StartClaimsAFreeBus
  intro s p b hm hf ha
  obtain ⟨hrun, hconv⟩ := State.pinState_claim_running hm ha false
  exact ⟨_, exec_start_claims hm hf ha, rfl, rfl, State.bus_claim_self hm p false,
    fun c hc => State.bus_claim_ne s p false hc, rfl, rfl,
    { State.outsideKept_claim (.refl s) b p false with }, hrun, hconv⟩

/-- Settles O44. -/
theorem startIsRefused : Obligations.StartIsRefused := by
  unfold Obligations.StartIsRefused
  exact fun s p b hm => ⟨exec_start_busBusy hm, exec_start_notAttached hm⟩

/-- Settles O45. -/
theorem busyReportsRunning : Obligations.BusyReportsRunning := by
  unfold Obligations.BusyReportsRunning
  intro s p hp
  obtain ⟨b, hm⟩ := Option.isSome_iff_exists.mp hp
  refine ⟨_, exec_busy hm, fun hr => if_pos hr, fun h => if_neg ?_⟩
  obtain h | h | h := h <;> rw [h] <;> exact nofun

/-- Settles O46. -/
theorem endWaitsForThePin : Obligations.EndWaitsForThePin := by
  unfold Obligations.EndWaitsForThePin
  intro s p hp
  obtain ⟨b, hm⟩ := Option.isSome_iff_exists.mp hp
  exact ⟨exec_endConv_waits hm, exec_endConv_notAttached hm⟩

/-! ### The compound commands: READ and HALLREAD's issue steps (R111 to R113) -/

theorem exec_read_busBusy {s : State} {p : Pin} {b : Nat} (hm : s.pinMap p = some b)
    (hf : s.busFree b p = false) : exec (.read p) s = .next ((s.attachPin p).fail .busBusy) :=
  congrArg Host.Outcome.next ((State.onPin_some hm _).trans (if_pos hf))

theorem exec_read_claims {s : State} {p : Pin} {b : Nat} (hm : s.pinMap p = some b)
    (hf : s.busFree b p = true) :
    exec (.read p) s = .next (((s.attachPin p).claim b p false).waitFor (.wait p)) :=
  congrArg Host.Outcome.next ((State.onPin_some hm _).trans (by simp [hf]))

/-- The state in which HALLREAD claims its first bus: both Hall pins attached (R113). -/
def State.attachHall (s : State) : State :=
  (s.attachPin s.platform.hallP).attachPin s.platform.hallN

theorem exec_hallRead_busBusy {s : State} {bP bN : Nat} (hP : s.pinMap s.platform.hallP = some bP)
    (hN : s.pinMap s.platform.hallN = some bN)
    (hf : s.busFree bP s.platform.hallP = false ∨ s.busFree bN s.platform.hallN = false) :
    exec .hallRead s = .next (s.fail .busBusy) :=
  congrArg Host.Outcome.next
    ((State.onPin_some hP _).trans ((State.onPin_some hN _).trans (if_pos hf)))

theorem exec_hallRead_claims {s : State} {bP bN : Nat} (hP : s.pinMap s.platform.hallP = some bP)
    (hN : s.pinMap s.platform.hallN = some bN) (fP : s.busFree bP s.platform.hallP = true)
    (fN : s.busFree bN s.platform.hallN = true) : exec .hallRead s =
      .next ((s.attachHall.claim bP s.platform.hallP true).waitFor .hallWaitP) :=
  congrArg Host.Outcome.next
    ((State.onPin_some hP _).trans ((State.onPin_some hN _).trans (by simp [fP, fN, State.attachHall])))

theorem State.attachHall_attached (s : State) : (s.attachHall.pin s.platform.hallP).attached = true ∧
    (s.attachHall.pin s.platform.hallN).attached = true :=
  ⟨State.attached_attachPin _ (State.pin_attachPin_self_attached s _),
    State.pin_attachPin_self_attached _ _⟩

@[simp] theorem State.snapshot_attachHall (s : State) (p : Pin) (hall : Bool) :
    s.attachHall.snapshot p hall = s.snapshot p hall := by simp [State.attachHall]

/-- Settles O52. -/
theorem readAttachesAndClaims : Obligations.ReadAttachesAndClaims := by
  unfold Obligations.ReadAttachesAndClaims
  intro s p b hm hf
  have hm' : (s.attachPin p).pinMap p = some b := hm
  obtain ⟨hrun, _⟩ := State.pinState_claim_running hm' (State.pin_attachPin_self_attached s p) false
  refine ⟨_, exec_read_claims hm hf, rfl, rfl, State.pin_attachPin_self s p,
    fun q hq => State.pin_attachPin_ne s hq, ?_, fun c hc => State.bus_claim_ne _ p false hc, rfl,
    { State.outsideKept_claim (u := s.attachPin p) { State.OutsideKept.refl s with } b p false with },
    hrun⟩
  refine (State.bus_claim_self hm' p false).trans ?_
  rw [State.claimedBus, State.snapshot_attachPin]
  rfl

/-- Settles O53. -/
theorem failedReadKeepsTheAttach : Obligations.FailedReadKeepsTheAttach := by
  unfold Obligations.FailedReadKeepsTheAttach
  refine fun s p => ⟨fun b hm hf => ?_, fun hm =>
    congrArg Host.Outcome.next (State.onPin_none hm _)⟩
  exact ⟨_, exec_read_busBusy hm hf, rfl, rfl, State.pin_attachPin_self s p,
    fun q hq => State.pin_attachPin_ne s hq, rfl, rfl, ⟨rfl, rfl, rfl, rfl, rfl⟩⟩

/-- Settles O55. -/
theorem hallReadClaimsTheFirstPin : Obligations.HallReadClaimsTheFirstPin := by
  unfold Obligations.HallReadClaimsTheFirstPin
  intro s bP bN hP hN fP fN hne
  have hP' : s.attachHall.pinMap s.platform.hallP = some bP := hP
  have hpin (q : Pin) : ((s.attachHall.claim bP s.platform.hallP true).waitFor .hallWaitP).pin q =
      s.attachHall.pin q := rfl
  obtain ⟨haP, _⟩ := s.attachHall_attached
  obtain ⟨hrun, _⟩ := State.pinState_claim_running hP' haP true
  refine ⟨_, exec_hallRead_claims hP hN fP fN, rfl, rfl, ?_, ?_, fun q hqP hqN => ?_, ?_,
    fun c hc => State.bus_claim_ne _ _ true hc, rfl,
    { State.outsideKept_claim (u := s.attachHall) { State.OutsideKept.refl s with } bP
        s.platform.hallP true with }, hrun⟩
  · rw [hpin, State.attachHall, State.pin_attachPin_ne _ hne, State.pin_attachPin_self]
  · rw [hpin, State.attachHall, State.pin_attachPin_self, State.pin_attachPin_ne _ hne.symm]
  · rw [hpin, State.attachHall, State.pin_attachPin_ne _ hqN, State.pin_attachPin_ne _ hqP]
  · refine (State.bus_claim_self hP' _ true).trans ?_
    rw [State.claimedBus, State.snapshot_attachHall]
    rfl

/-- Settles O56. -/
theorem hallReadIsRefused : Obligations.HallReadIsRefused := by
  unfold Obligations.HallReadIsRefused
  exact fun s bP bN hP hN hf => exec_hallRead_busBusy hP hN hf

end Sys2Proof.Machine
end

section
/-! SUPPORT. Which command fails, with which status, and what it has changed (60_exceptions.md): one function
says the failure, one theorem ties it to `exec`, and the statements are read off the function. -/

namespace Sys2Proof.Machine

/-! ### The failure of a command -/

/-- The failure of a pin command: `InvalidPin`, or what `k` says for the pin's bus (R121). -/
def State.pinFailure (s : State) (p : Pin) (k : Nat → Option Status) : Option Status :=
  match s.pinMap p with
  | none => some .invalidPin
  | some b => k b

/-- The failure of a range-checked setter (R80, R124). -/
def State.rangeFailure (s : State) (lo hi : Nat) (v : Imm) : Option Status :=
  if (lo ≤ v.toNat ∧ v.toNat ≤ hi) ∨ s.platform.range = .clamp then none else some .invalidConfig

/-- The status with which the issue step of a command fails, if it fails (R121 to R125, R127). -/
def State.failure (s : State) : Instr → Option Status
  | .setPinAtten p _ | .attach p | .busy p | .getAtten p => s.pinFailure p fun _ => none
  | .read p => s.pinFailure p fun b => if s.busFree b p = false then some .busBusy else none
  | .start p => s.pinFailure p fun b =>
    if s.busFree b p = false then some .busBusy
    else if (s.pin p).attached = false then some .notAttached else none
  | .endConv p => s.pinFailure p fun _ =>
    if (s.pin p).attached = false then some .notAttached else none
  | .hallRead => s.pinFailure s.platform.hallP fun bP => s.pinFailure s.platform.hallN fun bN =>
    if s.busFree bP s.platform.hallP = false ∨ s.busFree bN s.platform.hallN = false then
      some .busBusy else none
  | .setRes v => s.rangeFailure 1 16 v
  | .setWidth v => s.rangeFailure 9 12 v
  | .setCycles v | .setSamples v | .setClkDiv v => s.rangeFailure 1 255 v
  | .setAtten _ => none
  | .getCfg idx => if (s.readCfg idx).isSome then none else some .illegalCmd

/-- The state `t` is what command `i` leads to from `s` with failure `f`: a failed command has changed
nothing but for the attach step of a READ answered `BusBusy` (R112, R128), and one that does not fail
answers `OK` if it answers. -/
def State.Fails (s : State) (i : Instr) (f : Option Status) (t : State) : Prop :=
  match f with
  | some st => t = s.fail st ∨ ∃ p, i = .read p ∧ st = .busBusy ∧ t = (s.attachPin p).fail .busBusy
  | none => ∀ r, t.rsp = some r → r.status = .ok

section
variable {s : State} {i : Instr}

theorem State.Fails.failed (st : Status) : s.Fails i (some st) (s.fail st) := .inl rfl

theorem State.Fails.answered (u : State) (v : Word) : s.Fails i none (u.respond .ok v) := by
  intro r hr
  rw [← Option.some.inj hr]

theorem State.Fails.waits (u : State) (q : Seq) : s.Fails i none (u.waitFor q) := nofun

theorem State.Fails.ite {c : Prop} [Decidable c] {f g : Option Status} {t u : State}
    (ht : s.Fails i f t) (hu : s.Fails i g u) :
    s.Fails i (if c then f else g) (if c then t else u) := by
  split
  · exact ht
  · exact hu

theorem State.Fails.onPin {p : Pin} {f : Nat → Option Status} {k : Nat → State}
    (hk : ∀ b, s.Fails i (f b) (k b)) : s.Fails i (s.pinFailure p f) (s.onPin p k) := by
  unfold State.pinFailure State.onPin
  cases s.pinMap p with
  | none => exact .failed _
  | some b => exact hk b

theorem State.Fails.setCfg (lo hi : Nat) (v : Imm) (w : Nat → CfgFile) :
    s.Fails i (s.rangeFailure lo hi v) (s.setCfg lo hi v w) := by
  unfold State.rangeFailure
  by_cases h : lo ≤ v.toNat ∧ v.toNat ≤ hi
  · rw [if_pos (.inl h), State.setCfg_inRange s w h]
    exact .answered _ _
  · cases hr : s.platform.range with
    | reject =>
      rw [if_neg (by simp [h]), State.setCfg_reject hr h]
      exact .failed _
    | clamp =>
      rw [if_pos (.inr rfl), State.setCfg, if_neg h, hr]
      exact .answered _ _

end

/-- The function says the failure of every command. -/
theorem exec_fails (i : Instr) (s : State) : ∃ t, exec i s = .next t ∧ s.Fails i (s.failure i) t := by
  cases i with
  | setPinAtten p | attach p | busy p | getAtten p =>
    exact ⟨_, rfl, .onPin fun _ => .answered _ _⟩
  | read p =>
    exact ⟨_, rfl, .onPin fun b => .ite (.inr ⟨p, rfl, rfl, rfl⟩) (.waits _ _)⟩
  | start p =>
    exact ⟨_, rfl, .onPin fun b => .ite (.failed _) (.ite (.failed _) (.answered _ _))⟩
  | endConv p => exact ⟨_, rfl, .onPin fun b => .ite (.failed _) (.waits _ _)⟩
  | hallRead => exact ⟨_, rfl, .onPin fun _ => .onPin fun _ => .ite (.failed _) (.waits _ _)⟩
  | setRes v | setWidth v | setCycles v | setSamples v | setClkDiv v =>
    exact ⟨_, rfl, .setCfg _ _ _ _⟩
  | setAtten l => exact ⟨_, rfl, .answered _ _⟩
  | getCfg idx =>
    refine ⟨_, rfl, ?_⟩
    simp only [State.failure]
    cases s.readCfg idx with
    | none => exact .failed _
    | some v => exact .answered _ _

theorem fails_of_exec {i : Instr} {s t : State} (h : exec i s = .next t) :
    s.Fails i (s.failure i) t := by
  obtain ⟨u, hu, hf⟩ := exec_fails i s
  obtain rfl := Host.Outcome.next.inj (h.symm.trans hu)
  exact hf

/-- A command that answers an error has failed with it; its value is 0 (R63). -/
theorem failed_of_exec {i : Instr} {s t : State} {r : Response} (h : exec i s = .next t)
    (hr : t.rsp = some r) (hne : r.status ≠ .ok) : s.failure i = some r.status ∧ r.value = 0 ∧
      (t = s.fail r.status ∨
        ∃ p, i = .read p ∧ r.status = .busBusy ∧ t = (s.attachPin p).fail r.status) := by
  have hf := fails_of_exec h
  cases hst : s.failure i with
  | none => rw [hst] at hf; exact absurd (hf r hr) hne
  | some st =>
    rw [hst] at hf
    obtain rfl | ⟨p, rfl, rfl, rfl⟩ := hf
    · obtain rfl := Option.some.inj hr
      exact ⟨rfl, rfl, .inl rfl⟩
    · obtain rfl := Option.some.inj hr
      exact ⟨rfl, rfl, .inr ⟨p, rfl, rfl, rfl⟩⟩

/-- A command answers an error exactly when it fails with it. -/
theorem status_eq_iff_failure {i : Instr} {s t : State} {r : Response} (h : exec i s = .next t)
    (hr : t.rsp = some r) {st : Status} (hst : st ≠ .ok) : r.status = st ↔ s.failure i = some st := by
  constructor
  · rintro rfl
    exact (failed_of_exec h hr hst).1
  · intro hf
    have hfails := fails_of_exec h
    rw [hf] at hfails
    obtain rfl | ⟨p, rfl, rfl, rfl⟩ := hfails <;> rw [← Option.some.inj hr]

/-! ### The causes of each status (R121 to R125) -/

section
variable (s : State) {p : Pin} {st : Status} {f : Nat → Option Status}

theorem State.pinFailure_eq_some_iff : s.pinFailure p f = some st ↔
    (s.pinMap p = none ∧ st = .invalidPin) ∨ ∃ b, s.pinMap p = some b ∧ f b = some st := by
  unfold State.pinFailure
  cases s.pinMap p <;> simp [eq_comm]

theorem State.rangeFailure_eq_some_iff {lo hi : Nat} {v : Imm} : s.rangeFailure lo hi v = some st ↔
    st = .invalidConfig ∧ s.platform.range = .reject ∧ ¬ (lo ≤ v.toNat ∧ v.toNat ≤ hi) := by
  unfold State.rangeFailure
  cases hr : s.platform.range <;> by_cases h : lo ≤ v.toNat ∧ v.toNat ≤ hi <;> simp [h, eq_comm]

theorem State.failure_eq_invalidPin_iff (hP : s.PlatformOk) (i : Instr) :
    s.failure i = some .invalidPin ↔ ∃ p l, i ∈ [.read p, .setPinAtten p l, .getAtten p, .attach p,
      .start p, .busy p, .endConv p] ∧ s.pinMap p = none := by
  have hvalidP := Option.isSome_iff_ne_none.mp hP.hallP_valid
  have hvalidN := Option.isSome_iff_ne_none.mp hP.hallN_valid
  have hlevel : Nonempty Level := ⟨.db0⟩
  cases i <;> simp [State.failure, State.pinFailure_eq_some_iff, State.rangeFailure_eq_some_iff,
    ite_eq_iff, hvalidP, hvalidN]

theorem State.failure_eq_notAttached_iff (i : Instr) :
    s.failure i = some .notAttached ↔ ∃ p b, s.pinMap p = some b ∧ (s.pin p).attached = false ∧
      (i = .endConv p ∨ (i = .start p ∧ s.busFree b p = true)) := by
  cases i with
  | start p =>
    simp [State.failure, State.pinFailure_eq_some_iff, ite_eq_iff, and_comm (a := s.busFree _ p = true)]
  | _ => simp [State.failure, State.pinFailure_eq_some_iff, State.rangeFailure_eq_some_iff, ite_eq_iff]

theorem State.failure_eq_busBusy_iff (hP : s.PlatformOk) (i : Instr) : s.failure i = some .busBusy ↔
    (∃ p b, s.pinMap p = some b ∧ s.busFree b p = false ∧ (i = .start p ∨ i = .read p)) ∨
    (i = .hallRead ∧ ∃ p b, (p = s.platform.hallP ∨ p = s.platform.hallN) ∧
      s.pinMap p = some b ∧ s.busFree b p = false) := by
  cases i with
  | hallRead =>
    obtain ⟨bP, hbP⟩ := Option.isSome_iff_exists.mp hP.hallP_valid
    obtain ⟨bN, hbN⟩ := Option.isSome_iff_exists.mp hP.hallN_valid
    cases hf : s.busFree bP s.platform.hallP <;>
      simp [State.failure, State.pinFailure_eq_some_iff, hbP, hbN, hf]
  | _ => simp [State.failure, State.pinFailure_eq_some_iff, State.rangeFailure_eq_some_iff, ite_eq_iff]

theorem State.failure_eq_invalidConfig_iff (i : Instr) : s.failure i = some .invalidConfig ↔
    s.platform.range = .reject ∧ ∃ v : Imm,
      (i = .setRes v ∧ ¬ (1 ≤ v.toNat ∧ v.toNat ≤ 16)) ∨
      (i = .setWidth v ∧ ¬ (9 ≤ v.toNat ∧ v.toNat ≤ 12)) ∨
      (i ∈ [.setCycles v, .setSamples v, .setClkDiv v] ∧ ¬ (1 ≤ v.toNat ∧ v.toNat ≤ 255)) := by
  cases i <;> simp [State.failure, State.pinFailure_eq_some_iff, State.rangeFailure_eq_some_iff,
    ite_eq_iff]

/-- A command that some word spells is answered `IllegalCmd` never: its register exists (R61, R125). -/
theorem State.failure_ne_illegalCmd {i : Instr} (hwf : i.wf = true) :
    s.failure i ≠ some .illegalCmd := by
  cases i with
  | getCfg idx =>
    have registers : ∀ idx : BitVec 3, (Instr.getCfg idx).wf = true →
        idx = 0 ∨ idx = 1 ∨ idx = 2 ∨ idx = 3 ∨ idx = 4 ∨ idx = 5 := by decide
    obtain rfl | rfl | rfl | rfl | rfl | rfl := registers idx hwf <;> exact nofun
  | _ => simp [State.failure, State.pinFailure_eq_some_iff, State.rangeFailure_eq_some_iff, ite_eq_iff]

end

/-- Settles O22, status by status, from the failure of a command. -/
theorem statusCauses : Obligations.StatusCauses := by
  unfold Obligations.StatusCauses
  intro i s t r hP h hr
  have cause (st : Status) (hst : st ≠ .ok) : r.status = st ↔ s.failure i = some st :=
    status_eq_iff_failure h hr hst
  refine ⟨(cause .invalidPin nofun).trans (s.failure_eq_invalidPin_iff hP i),
    (cause .notAttached nofun).trans (s.failure_eq_notAttached_iff i),
    (cause .busBusy nofun).trans (s.failure_eq_busBusy_iff hP i),
    (cause .invalidConfig nofun).trans (s.failure_eq_invalidConfig_iff i), fun hst => ?_,
    fun hwf hst => s.failure_ne_illegalCmd hwf ((cause .illegalCmd nofun).mp hst)⟩
  obtain ⟨_, _, rfl | ⟨p, rfl, hbusy, rfl⟩⟩ := failed_of_exec h hr (by rw [hst]; exact nofun)
  · rw [← hr]
    rfl
  · rw [hbusy] at hst; cases hst

/-! ### The values answered (R63) -/

/-- A range-checked setter answers value 0, whether it succeeds or not. -/
theorem State.setCfg_value {s : State} {lo hi : Nat} {v : Imm} {w : Nat → CfgFile} {r : Response}
    (hr : (s.setCfg lo hi v w).rsp = some r) : r.value = 0 := by
  unfold State.setCfg at hr
  split at hr
  · rw [← Option.some.inj hr]
  · split at hr <;> rw [← Option.some.inj hr]

/-- A pin command that succeeds answers as it does past the pin check. -/
theorem State.onPin_response {s : State} {p : Pin} {k : Nat → State} {r : Response}
    {P : Word → Prop} (hr : (s.onPin p k).rsp = some r) (hok : r.status = .ok)
    (hk : ∀ b, (k b).rsp = some r → P r.value) : P r.value := by
  obtain ⟨_, e⟩ | ⟨b, _, e⟩ := State.onPin_cases s p k <;> rw [e] at hr
  · rw [← Option.some.inj hr] at hok; cases hok
  · exact hk b hr

/-- Settles O23. -/
theorem responseValues : Obligations.ResponseValues := by
  unfold Obligations.ResponseValues
  intro i s t r _ h hr
  have value {u : State} {st : Status} {v : Word} (hu : (u.respond st v).rsp = some r) : r.value = v := by
    rw [← Option.some.inj hu]
  refine ⟨fun hne => (failed_of_exec h hr hne).2.1, fun hok v l p => ⟨fun hi => ?_, fun hi => ?_, ?_⟩⟩
  · simp only [List.mem_cons, List.not_mem_nil, or_false] at hi
    obtain rfl | rfl | rfl | rfl | rfl | rfl | rfl := hi <;> obtain rfl := Host.Outcome.next.inj h
    · exact State.setCfg_value hr
    · exact State.setCfg_value hr
    · exact State.setCfg_value hr
    · exact State.setCfg_value hr
    · exact State.setCfg_value hr
    · exact value hr
    · exact State.onPin_response (P := (· = 0)) hr hok fun _ => value
  · simp only [List.mem_cons, List.not_mem_nil, or_false] at hi
    obtain rfl | rfl := hi <;> obtain rfl := Host.Outcome.next.inj h
    · exact State.onPin_response (P := (· = 1)) hr hok fun _ => value
    · refine State.onPin_response (P := (· = 1)) hr hok fun b hb => ?_
      have failed (st : Status) (hst : st ≠ .ok) (hf : (s.fail st).rsp = some r) : r.value = 1 := by
        rw [← Option.some.inj hf] at hok
        exact absurd hok hst
      split at hb
      · exact failed .busBusy nofun hb
      · split at hb
        · exact failed .notAttached nofun hb
        · exact value hb
  · rintro rfl
    obtain rfl := Host.Outcome.next.inj h
    refine State.onPin_response (P := fun v => v = 0 ∨ v = 1) hr hok fun b hb => ?_
    rw [value hb]
    split
    · exact .inr rfl
    · exact .inl rfl

/-! ### What a failing command has changed (R112, R128) -/

/-- A READ that fails at the idle port, as an update of the state before the step. -/
theorem State.fail_attachPin_accept {s : State} {w : Word} {rest : List Word} (hs : s.seq = .idle)
    (hc : s.commands = w :: rest) (p : Pin) (st : Status) : (s.accept.attachPin p).fail st =
      { s.attachPin p with rsp := some ⟨st, 0⟩, turns := s.turns.tail, commands := rest } := by
  cases s
  obtain rfl : _ = Seq.idle := hs
  obtain rfl : _ = w :: rest := hc
  rfl

@[simp] theorem State.rsp_setAltmode (s : State) (p : Pin) : (s.setAltmode p).rsp = s.rsp := by
  unfold State.setAltmode; split <;> rfl

/-- An error is answered by an issue step alone. -/
theorem Stepped.issue_of_error {s t : State} (hst : Stepped s t) {r : Response} (hr : t.rsp = some r)
    (hne : r.status ≠ .ok) : s.nextTurn = .host ∧ s.seq = .idle := by
  have ok {u : State} {v : Word} (hu : (u.respond .ok v).rsp = some r) : False :=
    hne (by rw [← Option.some.inj hu])
  cases hst with
  | issued hn hs => exact ⟨hn, hs⟩
  | resumed => exact (ok hr).elim
  | hallN => exact (ok hr).elim
  | quiet => cases hr
  | hallP => cases hr
  | engine => rw [complete_rsp] at hr; cases hr
  | altmode => rw [State.rsp_setAltmode] at hr; cases hr
  | reset => cases hr

/-- Settles O21. -/
theorem failingCommandChangesNothing : Obligations.FailingCommandChangesNothing := by
  unfold Obligations.FailingCommandChangesNothing
  intro s t r h hr hne
  obtain ⟨hn, hs⟩ := (stepped_of_step h).issue_of_error hr hne
  obtain rfl | ⟨w, rest, hc, hw⟩ := issue_of_step_idle hn hs h
  · cases hr
  unfold issue at hw
  split at hw
  · next i hi =>
    obtain ⟨_, hvalue, hcases⟩ := failed_of_exec hw hr hne
    have hresp : (⟨r.status, 0⟩ : Response) = r := by rw [← hvalue]
    obtain rfl | ⟨p, rfl, hbusy, rfl⟩ := hcases
    · refine ⟨hn, hs, rfl, w, rest, hc, .inl ?_⟩
      rw [State.fail_accept hs hc, hresp]
    · refine ⟨hn, hs, rfl, w, rest, hc, .inr ⟨p, hi, hbusy, ?_⟩⟩
      rw [State.fail_attachPin_accept hs hc, hresp]
  · obtain rfl := Host.Outcome.next.inj hw
    obtain rfl := Option.some.inj hr
    exact ⟨hn, hs, rfl, w, rest, hc, .inl (State.fail_accept hs hc _)⟩

end Sys2Proof.Machine
end

section
/-! SUPPORT. The step as a whole: that there is one, what it keeps, the inputs that are no command, and
`Complete(b)` (R3, R13, R26, R57, R107, R135). -/

namespace Sys2Proof.Machine

/-! ### Every step (R13, R57, R126) -/

/-- Settles O7. -/
theorem everyStepGoesOn : Obligations.EveryStepGoesOn := by
  unfold Obligations.EveryStepGoesOn
  intro s
  obtain ⟨t, ht, _⟩ := step_stepped s
  exact ⟨t, ht⟩

/-- Settles O8. -/
theorem stepKeepsTheParameters : Obligations.StepKeepsTheParameters := by
  unfold Obligations.StepKeepsTheParameters
  intro s t h
  have hst := stepped_of_step h
  exact ⟨hst.platform_nbus.1, hst.platform_nbus.2, hst.pinMap⟩

/-- The collaborator's step reaches no field but the pin table. -/
theorem State.setAltmode_rest (s : State) (p : Pin) : (s.setAltmode p).cfg = s.cfg ∧
    (s.setAltmode p).buses = s.buses ∧ (s.setAltmode p).seq = s.seq ∧
    (s.setAltmode p).commands = s.commands ∧ (s.setAltmode p).turns = s.turns ∧
    (s.setAltmode p).drawn = s.drawn := by
  unfold State.setAltmode
  split <;> exact ⟨rfl, rfl, rfl, rfl, rfl, rfl⟩

/-- Every step uses up one listed turn. -/
theorem Stepped.turns {s t : State} (hst : Stepped s t) : t.turns = s.turns.tail := by
  cases hst with
  | issued _ _ _ hiss => cases hiss <;> rfl
  | engine b ds => exact complete_turns b ds _
  | altmode p =>
    obtain ⟨_, _, _, _, hturns, _⟩ := s.beginTurn.setAltmode_rest p
    exact hturns
  | quiet | resumed | hallP | hallN | reset => rfl

/-- While a command holds the port no step takes a word, and a response frees the port (R33, R57). -/
theorem Stepped.of_portHeld {s t : State} (hst : Stepped s t) (hh : s.PortHeld) :
    t.commands = s.commands ∧ (t.rsp ≠ none → t.seq = .idle) := by
  cases hst with
  | issued _ hs => exact absurd hs hh
  | resumed | hallN | reset => exact ⟨rfl, fun _ => rfl⟩
  | quiet | hallP => exact ⟨rfl, fun hr => absurd rfl hr⟩
  | engine b ds => exact ⟨complete_commands b ds _, fun hr => absurd (complete_rsp b ds _) hr⟩
  | altmode p =>
    obtain ⟨_, _, _, hcommands, _⟩ := s.beginTurn.setAltmode_rest p
    exact ⟨hcommands, fun hr => absurd (State.rsp_setAltmode _ p) hr⟩

/-- Settles O9. -/
theorem heldPortAcceptsNothing : Obligations.HeldPortAcceptsNothing := by
  unfold Obligations.HeldPortAcceptsNothing
  exact fun s t hh h => (stepped_of_step h).of_portHeld hh

/-! ### Reset and the collaborator (R26, R40, R135) -/

/-- Settles O10. -/
theorem resetValues : Obligations.ResetValues := by
  unfold Obligations.ResetValues
  have hpin (p : Pin) : State.reset.pin p = .reset := State.pin_resetOn _ _ p
  have hbus (b : Nat) : State.reset.bus b = .reset := State.bus_resetOn _ _ b
  refine ⟨rfl, rfl, rfl, rfl, rfl, rfl, rfl, fun p => ?_, fun b => ?_, fun p hp => ?_⟩
  · rw [hpin]; exact ⟨rfl, rfl, rfl⟩
  · rw [State.doneOut, State.converting, hbus]; exact ⟨rfl, rfl, rfl, rfl⟩
  · obtain ⟨b, hm⟩ := Option.isSome_iff_exists.mp hp
    exact ⟨(State.pinState_eq_unattached hm).mpr (by rw [hpin]; rfl),
      State.lookup_of_no_override (by rw [hpin]; rfl)⟩

/-- Settles O12. -/
theorem resetInputResets : Obligations.ResetInputResets := by
  unfold Obligations.ResetInputResets
  intro s hn
  refine ⟨_, step_reset hn, rfl, fun p => ?_, fun b => ?_, rfl, rfl, rfl, State.nbus_assertReset _,
    rfl, rfl, rfl⟩
  · rw [State.pin_assertReset]; exact PinEntry.atReset_reset
  · rw [State.converting, State.bus_assertReset]; exact ⟨rfl, rfl, rfl⟩

/-- Settles O13. -/
theorem collaboratorSetsAltmode : Obligations.CollaboratorSetsAltmode := by
  unfold Obligations.CollaboratorSetsAltmode
  intro s p hn hp
  have hp' : (s.beginTurn.pinMap p).isSome := hp
  have hset : s.beginTurn.setAltmode p = s.beginTurn.setPin p { s.pin p with altmode := true } :=
    if_pos hp'
  rw [step_altmode hn, hset]
  exact ⟨_, rfl, State.pin_setPin_self _ p _, fun q hq => State.pin_setPin_ne _ _ hq, rfl, rfl, rfl,
    rfl, rfl, rfl, rfl⟩

/-! ### `Complete(b)` (R103, R107) -/

/-- The step of a running bus's agent: the result latched, `done` set, the draws counted. -/
theorem complete_of_converting {s : State} {b : Nat} (hc : s.converting b = true)
    (ds : List RawSample) : (complete b ds s).bus b = s.completedBus b ds ∧
      (complete b ds s).drawn = s.drawn + (s.bus b).snap.samples.toNat := by
  refine ⟨by rw [bus_complete, if_pos ⟨rfl, hc⟩]; rfl, ?_⟩
  rw [complete, if_pos hc]

theorem complete_of_not_converting {s : State} {b : Nat} (hc : s.converting b = false)
    (ds : List RawSample) : complete b ds s = s := by
  rw [complete, if_neg (by rw [hc]; exact nofun)]

theorem bus_complete_ne (s : State) {b c : Nat} (ds : List RawSample) (h : c ≠ b) :
    (complete b ds s).bus c = s.bus c := by rw [bus_complete, if_neg fun hc => h hc.1]

/-- A RUNNING pin's bus is converting. -/
theorem State.converting_of_running {s : State} {p : Pin} {b : Nat} (hm : s.pinMap p = some b)
    (hr : s.pinState p = some .running) : s.converting b = true := by
  obtain ⟨_, hbusy, _, hdone⟩ := (State.pinState_eq_running hm).mp hr
  exact (s.converting_iff b).mpr ⟨hbusy, hdone⟩

/-- A RUNNING pin is DONE after the turn of its bus's agent (R34, R107). -/
theorem pinState_complete_done {s : State} {p : Pin} {b : Nat} (hm : s.pinMap p = some b)
    (hr : s.pinState p = some .running) (ds : List RawSample) :
    (complete b ds s).pinState p = some .done := by
  obtain ⟨ha, hbusy, howner, _⟩ := (State.pinState_eq_running hm).mp hr
  obtain ⟨hbus, _⟩ := complete_of_converting (State.converting_of_running hm hr) ds
  refine (State.pinState_eq_done ((complete_pinMap b ds s p).trans hm)).mpr ?_
  rw [complete_pin, hbus]
  exact ⟨ha, hbusy, howner, rfl⟩

/-- Settles O25. -/
theorem completeLatchesTheResult : Obligations.CompleteLatchesTheResult := by
  unfold Obligations.CompleteLatchesTheResult
  intro s b ds hn
  refine ⟨_, step_engine hn, fun ⟨hbusy, hdone⟩ => ?_, fun hnot => ?_,
    fun c hc => bus_complete_ne s.beginTurn ds hc, complete_nbus b ds _, complete_cfg b ds _,
    complete_pins b ds _, complete_seq b ds _, complete_rsp b ds _, complete_platform b ds _,
    complete_commands b ds _, complete_turns b ds _⟩
  · have hconv : s.beginTurn.converting b = true := (s.converting_iff b).mpr ⟨hbusy, hdone⟩
    obtain ⟨hbus, hdrawn⟩ := complete_of_converting hconv ds
    refine ⟨⟨_, rfl, length_acquire _ _ _, fun x hx => Nat.le_sub_one_of_lt (acquire_lt hx), ?_⟩, hdrawn,
      fun hi => ?_⟩
    · rw [hbus, State.completedBus, convert, average, length_acquire]
      rfl
    · have hm : s.beginTurn.pinMap (s.bus b).owner = some b := (hi.buses b).owner_maps hbusy
      have hd := pinState_complete_done hm (hi.owner_running hbusy hdone) ds
      exact ⟨hd, exec_busy_of_not_running ((complete_pinMap b ds _ _).trans hm) (by rw [hd]; exact nofun)⟩
  · have hconv : s.beginTurn.converting b = false :=
      Bool.eq_false_of_not_eq_true fun hc => hnot ((s.converting_iff b).mp hc)
    rw [complete_of_not_converting hconv]
    exact ⟨rfl, rfl⟩

/-! ### The resume steps of HALLREAD (R114, R115) -/

/-- Releasing one bus frees it and leaves every other bus as free as it was (R90, R96). -/
theorem State.busFree_release_mono {s : State} {c : Nat} {q : Pin} (h : s.busFree c q = true) (b : Nat) :
    (s.release b).busFree c q = true := by
  by_cases hc : c = b
  · rw [hc]; exact State.busFree_release s b q
  · rw [State.busFree_congr (State.bus_release_ne s hc) rfl, h]

/-- Settles O57. -/
theorem hallResumePClaimsTheSecondPin : Obligations.HallResumePClaimsTheSecondPin := by
  unfold Obligations.HallResumePClaimsTheSecondPin
  refine ⟨fun s bP bN hn hs hP hN hd => ⟨fun hi => ?_, ?_⟩, fun s hn hs hnd => ?_⟩
  · obtain hsame | hfree := hi.hallN_bus hs hN
    · obtain rfl := Option.some.inj (hP.symm.trans hsame)
      exact State.busFree_release s bP _
    · exact State.busFree_release_mono hfree bP
  · have hstep := (step_hallWaitP hn hs).trans
      (congrArg _ (hallResumeP_of_done (s := s.beginTurn) hP hN hd))
    have hN' : (s.beginTurn.release bP).pinMap s.platform.hallN = some bN :=
      (State.pinMap_release _ _ _).trans hN
    refine ⟨_, hstep, rfl, rfl, ?_, fun hne => ?_, fun c hcP hcN => ?_, rfl, rfl, rfl, ?_, rfl, rfl, rfl⟩
    · refine (State.bus_claim_self hN' s.platform.hallN true).trans ?_
      rw [State.claimedBus, State.result_release]
      rfl
    · exact (State.bus_claim_ne _ _ true hne).trans (State.bus_release_self hP)
    · exact (State.bus_claim_ne _ _ true hcN).trans (State.bus_release_ne _ hcP)
    · rw [State.nbus_waitFor, State.nbus_claim, State.nbus_release]
      rfl
  · exact (step_hallWaitP hn hs).trans
      (congrArg _ (hallResumeP_of_not_done (s := s.beginTurn) hnd))

/-- Settles O58. -/
theorem hallResumeNCombinesTheValues : Obligations.HallResumeNCombinesTheValues := by
  unfold Obligations.HallResumeNCombinesTheValues
  refine ⟨fun s vP bN hn hs hN hd => ?_, fun s vP hn hs hnd => ?_⟩
  · have hN' : s.beginTurn.pinMap s.platform.hallN = some bN := hN
    obtain ⟨ha, _⟩ := (State.pinState_eq_done hN).mp hd
    exact ⟨_, (step_hallWaitN hn hs).trans (congrArg _ (hallResumeN_of_done vP hN' hd)), rfl, rfl,
      State.bus_release_self hN', fun c hc => State.bus_release_ne _ hc,
      State.pinState_release_idle hN' ha, rfl, rfl, rfl, by simp, rfl, rfl, rfl⟩
  · exact (step_hallWaitN hn hs).trans
      (congrArg _ (hallResumeN_of_not_done (s := s.beginTurn) vP hnd))

end Sys2Proof.Machine
end

section
/-! SUPPORT. Runs of several steps: the delivery of a result by END, READ and HALLREAD, eviction, and the
stuck port (R94 to R96, R101, R111 to R118, R141). -/

namespace Sys2Proof.Machine

/-! ### END (R94 to R96) and eviction (R101, R147) -/

/-- Settles O47, from the issue step and the resume step. -/
theorem endDeliversTheResult : Obligations.EndDeliversTheResult := by
  unfold Obligations.EndDeliversTheResult
  intro s p b hm hd hn
  obtain ⟨ha, _⟩ := (State.pinState_eq_done hm).mp hd
  have hn' : (s.waitFor (.wait p)).nextTurn = .host := hn
  obtain ⟨u, hu, hfacts⟩ := resumeRespondsWhenDone.1 (s.waitFor (.wait p)) p b hn' rfl hm hd
  exact ⟨_, u, exec_endConv_waits hm ha, rfl, hu, hfacts⟩

/-- Settles O51: the claim makes the bus another pin's, and nothing of the evicted pin's is left to wait
for. -/
theorem evictionLosesTheResult : Obligations.EvictionLosesTheResult := by
  unfold Obligations.EvictionLosesTheResult
  intro s p q b hev hp hq hne hd haq
  obtain ⟨hap, _, howner, hdone⟩ := (State.pinState_eq_done hp).mp hd
  have hf : s.busFree b q = true :=
    (State.busFree_iff s b q).mpr (.inr ⟨hev, hdone, by rwa [howner]⟩)
  have hp' : (s.claim b q false).pinMap p = some b := (State.pinMap_claim s b q false p).trans hp
  have hidle : (s.claim b q false).pinState p = some .idle := by
    refine (State.pinState_eq_idle hp').mpr ⟨hap, ?_⟩
    rw [State.bus_claim_self hq q false]
    exact fun hc => hne hc.2.symm
  refine ⟨_, exec_start_claims hq hf haq, rfl, (State.pinState_claim_running hq haq false).1, hidle,
    exec_busy_of_not_running hp (by rw [hd]; exact nofun),
    exec_busy_of_not_running (s := (s.claim b q false).respond .ok 1) hp' ?_,
    _, exec_endConv_waits (s := (s.claim b q false).respond .ok 1) hp' hap, p, rfl, hidle⟩
  rw [State.pinState_respond, hidle]
  exact nofun

/-! ### The stuck port (R141) -/

/-- What holds of every state of a run follows from what holds at its start and what each step keeps. -/
theorem run_keeps {P : State → Prop} (hstep : ∀ s t, P s → Stepped s t → P t) (k : Nat) :
    ∀ s, P s → ∃ u, Host.Core.run Sys2Proof.core k s = .next u ∧ P u := by
  induction k with
  | zero => exact fun s hs => ⟨s, rfl, hs⟩
  | succ k ih =>
    intro s hs
    obtain ⟨t, ht, hst⟩ := step_stepped s
    rw [run_succ ht]
    exact ih t (hstep s t hs hst)

/-- No reset is among the listed turns. -/
def State.NoReset (s : State) : Prop := ∀ x ∈ s.turns, x ≠ .reset

theorem State.NoReset.next {s t : State} (h : s.NoReset) (hst : Stepped s t) : t.NoReset := by
  intro x hx
  rw [hst.turns] at hx
  exact h x (List.mem_of_mem_tail hx)

/-- The port waits for the IDLE pin `p`, with the words `ws` still to be presented, and answers nothing. -/
structure State.StuckFor (s : State) (p : Pin) (ws : List Word) : Prop where
  seq : s.seq = .wait p
  idle : s.pinState p = some .idle
  commands : s.commands = ws
  rsp : s.rsp = none

/-- While the port waits, no step claims the bus of an IDLE pin for it. -/
theorem Stepped.idle_of_wait {s t : State} (hst : Stepped s t) (hr : s.nextTurn ≠ .reset) {p q : Pin}
    (hs : s.seq = .wait q) (hp : s.pinState p = some .idle) : t.pinState p = some .idle := by
  obtain ⟨b, hm⟩ := State.validPin_of_pinState hp
  obtain ⟨ha, hnot⟩ := (State.pinState_eq_idle hm).mp hp
  refine (State.pinState_eq_idle ((hst.pinMap p).trans hm)).mpr ⟨hst.attached_of_attached hr ha, ?_⟩
  cases hst.busStep hr b with
  | kept h => rw [h]; exact hnot
  | released _ _ _ _ _ h => rw [h]; exact nofun
  | claimed _ _ _ _ hg =>
    obtain ⟨hs', _⟩ | ⟨hs', _⟩ := hg <;> rw [hs] at hs' <;> cases hs'
  | completed _ _ _ h => rw [h]; exact hnot

theorem State.StuckFor.next {s t : State} {p : Pin} {ws : List Word} (h : s.StuckFor p ws)
    (hst : Stepped s t) (hr : s.nextTurn ≠ .reset) : t.StuckFor p ws := by
  have hheld : s.PortHeld := by rw [State.PortHeld, h.seq]; exact nofun
  obtain ⟨hcommands, hanswer⟩ := hst.of_portHeld hheld
  have hseq : t.seq = .wait p := by
    have other {x : Seq} (hx : s.seq = x) (hne : Seq.wait p ≠ x) : False := hne (h.seq.symm.trans hx)
    cases hst with
    | quiet => exact h.seq
    | issued _ hs => exact (other hs nofun).elim
    | hallP _ hs => exact (other hs nofun).elim
    | hallN _ _ hs => exact (other hs nofun).elim
    | resumed _ q hs b hq hd =>
      obtain rfl := Seq.wait.inj (h.seq.symm.trans hs)
      rw [h.idle] at hd; cases hd
    | engine b ds => rw [complete_seq]; exact h.seq
    | altmode q =>
      obtain ⟨_, _, hkept, _⟩ := s.beginTurn.setAltmode_rest q
      exact hkept.trans h.seq
    | reset hn => exact absurd hn hr
  refine ⟨hseq, hst.idle_of_wait hr h.seq h.idle, hcommands.trans h.commands, ?_⟩
  by_contra hrsp
  have hidle := hanswer hrsp
  rw [hseq] at hidle; cases hidle

/-- Settles O50: to be stuck is kept by every step but the reset input, which frees the port. -/
theorem stuckPortStaysStuck : Obligations.StuckPortStaysStuck := by
  unfold Obligations.StuckPortStaysStuck
  intro k s p hp hturns
  obtain ⟨b, hm⟩ := State.validPin_of_pinState hp
  obtain ⟨ha, _⟩ := (State.pinState_eq_idle hm).mp hp
  have hstart : (s.waitFor (.wait p)).StuckFor p s.commands ∧ (s.waitFor (.wait p)).NoReset :=
    ⟨⟨rfl, hp, rfl, rfl⟩, hturns⟩
  have hkeeps (u v : State) (hu : u.StuckFor p s.commands ∧ u.NoReset) (hst : Stepped u v) :
      v.StuckFor p s.commands ∧ v.NoReset :=
    ⟨hu.1.next hst (State.nextTurn_ne_reset hu.2), hu.2.next hst⟩
  obtain ⟨u, hrun, hstuck, _⟩ := run_keeps hkeeps k _ hstart
  exact ⟨_, u, exec_endConv_waits hm ha, hrun, hstuck.seq, hstuck.idle, ⟨p, hstuck.seq, hstuck.idle⟩,
    hstuck.commands, hstuck.rsp, _, step_reset rfl, rfl⟩

/-! ### A conversion delivered (R95, R107, R111) -/

/-- With the agent of its bus next and then the host, the port that waits for a RUNNING pin answers the code
the engine latches. -/
theorem run_engine_host_of_wait {s : State} {p : Pin} {b : Nat} {ds : List RawSample}
    {rest : List Turn} (hm : s.pinMap p = some b) (hr : s.pinState p = some .running)
    (hs : s.seq = .wait p) (ht : s.turns = .engine b ds :: .host :: rest) :
    ∃ u, Host.Core.run Sys2Proof.core 2 s = .next u ∧
      u.rsp = some ⟨.ok, (convert (s.bus b).snap (acquire (s.bus b) ds s.drawn)).setWidth 32⟩ ∧
      u.seq = .idle ∧ u.pinState p = some .idle ∧ (u.bus b).busy = false ∧ (u.bus b).done = false ∧
      (∀ c, c ≠ b → u.bus c = s.bus c) ∧ u.pins = s.pins ∧ u.cfg = s.cfg ∧ u.turns = rest := by
  have hconv : s.beginTurn.converting b = true := State.converting_of_running hm hr
  obtain ⟨hbus, _⟩ := complete_of_converting hconv ds
  have hturns : (complete b ds s.beginTurn).turns = .host :: rest := by
    rw [complete_turns, State.beginTurn_turns, ht]; rfl
  have hm' : (complete b ds s.beginTurn).pinMap p = some b := (complete_pinMap b ds _ p).trans hm
  obtain ⟨u, hu, hrsp, hseq, hfree, hother, hidle, _, hpins, hcfg, _, _, _, hturns', _⟩ :=
    resumeRespondsWhenDone.1 (complete b ds s.beginTurn) p b (State.nextTurn_cons hturns)
      ((complete_seq b ds _).trans hs) hm' (pinState_complete_done (s := s.beginTurn) hm hr ds)
  refine ⟨u, ?_, ?_, hseq, hidle, by rw [hfree], by rw [hfree], fun c hc => ?_, ?_, ?_, ?_⟩
  · rw [run_succ (step_engine (State.nextTurn_cons ht)), run_succ hu, run_zero]
  · rw [hrsp, hbus]; rfl
  · exact (hother c hc).trans (bus_complete_ne _ ds hc)
  · exact hpins.trans (complete_pins b ds _)
  · exact hcfg.trans (complete_cfg b ds _)
  · rw [hturns', hturns]; rfl

/-- The code of a conversion claimed under a legal configuration, for draws that are all listed: the rescaled
mean at the registers that were latched, a code of `RES` bits. -/
theorem toNat_convert_snapshot {s : State} {p : Pin} {hall : Bool} {r : BusRec} {ds : List RawSample}
    (hsnap : r.snap = s.snapshot p hall) (hc : s.cfg.Legal) (hlen : ds.length = s.cfg.samples.toNat)
    (hr : ∀ x ∈ ds, x.toNat < 2 ^ s.cfg.width.toNat) (k : Nat) :
    (convert r.snap (acquire r ds k)).toNat =
      rescale ((ds.map BitVec.toNat).sum / s.cfg.samples.toNat) s.cfg.width.toNat s.cfg.res.toNat ∧
    (convert r.snap (acquire r ds k)).toNat ≤ 2 ^ s.cfg.res.toNat - 1 := by
  have hlegal : r.snap.Legal := hsnap ▸ State.snapshot_legal hc p hall
  have hle := toNat_convert_le hlegal ds k
  have hval := toNat_convert_listed hlegal (ds := ds) (by rw [hsnap]; exact hlen)
    (by rw [hsnap]; exact hr) k
  rw [hsnap] at hle hval
  rw [hsnap]
  exact ⟨hval, hle⟩

/-- Settles O54. -/
theorem readDeliversTheConversion : Obligations.ReadDeliversTheConversion := by
  unfold Obligations.ReadDeliversTheConversion
  intro s p b ds rest hm hf hc hlen hr hturns
  have hm' : (s.attachPin p).pinMap p = some b := hm
  have ha := State.pin_attachPin_self_attached s p
  have hmt : (((s.attachPin p).claim b p false).waitFor (.wait p)).pinMap p = some b :=
    (State.pinMap_claim _ b p false p).trans hm'
  obtain ⟨u, hrun, hrsp, hseq, hidle, hbusy, hdone, hother, hpins, hcfg, _⟩ :=
    run_engine_host_of_wait hmt (State.pinState_claim_running hm' ha false).1 rfl hturns
  have hsnap : ((((s.attachPin p).claim b p false).waitFor (.wait p)).bus b).snap =
      s.snapshot p false := by
    rw [State.bus_waitFor, State.bus_claim_self hm' p false]
    exact State.snapshot_attachPin s p p false
  obtain ⟨hval, hle⟩ := toNat_convert_snapshot hsnap hc hlen hr
    (((s.attachPin p).claim b p false).waitFor (.wait p)).drawn
  rw [← BitVec.toNat_setWidth_of_le (w' := 32) (by decide)] at hval hle
  refine ⟨_, u, _, exec_read_claims hm hf, hrun, hrsp, hval, hle, hseq, ?_, hidle, hbusy, hdone,
    fun c hc => (hother c hc).trans (State.bus_claim_ne _ p false hc), hcfg⟩
  have hpin : u.pin p = (s.attachPin p).pin p := by
    unfold State.pin
    rw [hpins]
    rfl
  rw [hpin]
  exact ha

/-! ### HALLREAD (R113 to R118) -/

/-- A run of `j + k` steps is one of `k` steps from where one of `j` steps ends. -/
theorem run_add {j : Nat} (k : Nat) : ∀ {s t : State}, Host.Core.run Sys2Proof.core j s = .next t →
    Host.Core.run Sys2Proof.core (j + k) s = Host.Core.run Sys2Proof.core k t := by
  induction j with
  | zero =>
    intro s t h
    rw [Nat.zero_add, Host.Outcome.next.inj h]
  | succ j ih =>
    intro s t h
    obtain ⟨u, hu, _⟩ := step_stepped s
    rw [run_succ hu] at h
    rw [Nat.succ_add, run_succ hu, ih h]

/-- With the agent of HALL_P's bus next and then the host, a HALLREAD that waits for its first conversion
holds the code the engine latches, and its second pin is RUNNING on a bus claimed with the Hall mark. -/
theorem run_engine_host_of_hallWaitP {s : State} {bP bN : Nat} {ds : List RawSample} {rest : List Turn}
    (hP : s.pinMap s.platform.hallP = some bP) (hN : s.pinMap s.platform.hallN = some bN)
    (hr : s.pinState s.platform.hallP = some .running) (ha : (s.pin s.platform.hallN).attached = true)
    (hs : s.seq = .hallWaitP) (ht : s.turns = .engine bP ds :: .host :: rest) :
    ∃ u, Host.Core.run Sys2Proof.core 2 s = .next u ∧
      u.seq = .hallWaitN (convert (s.bus bP).snap (acquire (s.bus bP) ds s.drawn)) ∧
      u.pinState s.platform.hallN = some .running ∧
      (u.bus bN).snap = s.snapshot s.platform.hallN true ∧
      (bP ≠ bN → (u.bus bP).busy = false) ∧ u.pins = s.pins ∧ u.cfg = s.cfg ∧
      u.platform = s.platform ∧ u.nbus = s.nbus ∧ u.turns = rest := by
  have hconv : s.beginTurn.converting bP = true := State.converting_of_running hP hr
  obtain ⟨hbus, _⟩ := complete_of_converting hconv ds
  have hplatform : (complete bP ds s.beginTurn).platform = s.platform := complete_platform bP ds _
  have hm (p : Pin) : (complete bP ds s.beginTurn).pinMap p = s.pinMap p := complete_pinMap bP ds _ p
  have hturns : (complete bP ds s.beginTurn).turns = .host :: rest := by
    rw [complete_turns, State.beginTurn_turns, ht]; rfl
  have hresume := hallResumePClaimsTheSecondPin.1 (complete bP ds s.beginTurn) bP bN
    (State.nextTurn_cons hturns) ((complete_seq bP ds _).trans hs)
  rw [hplatform, hm, hm, hbus] at hresume
  obtain ⟨_, u, hu, _, hseq, hclaimed, hfreed, _, hpins, hcfg, hplatform', hnbus, _, hturns', _⟩ :=
    hresume hP hN (pinState_complete_done (s := s.beginTurn) hP hr ds)
  have hpins' : u.pins = s.pins := hpins.trans (complete_pins bP ds _)
  have hnbus' : u.nbus = s.nbus := hnbus.trans (complete_nbus bP ds _)
  have hmu : u.pinMap s.platform.hallN = some bN := (State.pinMap_congr hplatform' hnbus' _).trans hN
  have hsnap : (u.bus bN).snap = s.snapshot s.platform.hallN true := by
    rw [hclaimed]
    simp only [complete_cfg, State.lookup, complete_pin]
    rfl
  have hatt : (u.pin s.platform.hallN).attached = true := by
    unfold State.pin
    rw [hpins']
    exact ha
  refine ⟨u, ?_, hseq, (State.pinState_eq_running hmu).mpr ⟨hatt, ?_⟩, hsnap,
    fun hne => by rw [hfreed hne], hpins', hcfg.trans (complete_cfg bP ds _), hplatform', hnbus', ?_⟩
  · rw [run_succ (step_engine (State.nextTurn_cons ht)), run_succ hu, run_zero]
  · rw [hclaimed]; exact ⟨rfl, rfl, rfl⟩
  · rw [hturns', hturns]; rfl

/-- With the agent of HALL_N's bus next and then the host, a HALLREAD that waits for its second conversion
answers the combination of the value it holds and the code the engine latches. -/
theorem run_engine_host_of_hallWaitN {s : State} {bN : Nat} {vP : Code} {ds : List RawSample}
    {rest : List Turn} (hN : s.pinMap s.platform.hallN = some bN)
    (hr : s.pinState s.platform.hallN = some .running) (hs : s.seq = .hallWaitN vP)
    (ht : s.turns = .engine bN ds :: .host :: rest) :
    ∃ u, Host.Core.run Sys2Proof.core 2 s = .next u ∧
      u.rsp = some ⟨.ok, hallCombine s.platform.hall vP
        (convert (s.bus bN).snap (acquire (s.bus bN) ds s.drawn))⟩ ∧
      u.seq = .idle ∧ u.pinState s.platform.hallN = some .idle ∧ (u.bus bN).busy = false ∧
      (∀ c, c ≠ bN → u.bus c = s.bus c) ∧ u.pins = s.pins ∧ u.cfg = s.cfg ∧
      u.platform = s.platform ∧ u.nbus = s.nbus := by
  have hconv : s.beginTurn.converting bN = true := State.converting_of_running hN hr
  obtain ⟨hbus, _⟩ := complete_of_converting hconv ds
  have hplatform : (complete bN ds s.beginTurn).platform = s.platform := complete_platform bN ds _
  have hm (p : Pin) : (complete bN ds s.beginTurn).pinMap p = s.pinMap p := complete_pinMap bN ds _ p
  have hturns : (complete bN ds s.beginTurn).turns = .host :: rest := by
    rw [complete_turns, State.beginTurn_turns, ht]; rfl
  have hresume := hallResumeNCombinesTheValues.1 (complete bN ds s.beginTurn) vP bN
    (State.nextTurn_cons hturns) ((complete_seq bN ds _).trans hs)
  rw [hplatform, hm, hbus] at hresume
  obtain ⟨u, hu, hrsp, hseq, hfreed, hother, hidle, hpins, hcfg, hplatform', hnbus, _⟩ :=
    hresume hN (pinState_complete_done (s := s.beginTurn) hN hr ds)
  refine ⟨u, ?_, hrsp, hseq, hidle, by rw [hfreed], fun c hc => ?_, hpins.trans (complete_pins bN ds _),
    hcfg.trans (complete_cfg bN ds _), hplatform', hnbus.trans (complete_nbus bN ds _)⟩
  · rw [run_succ (step_engine (State.nextTurn_cons ht)), run_succ hu, run_zero]
  · exact (hother c hc).trans (bus_complete_ne _ ds hc)

/-- Settles O60: two conversions one after the other, each by the agent of its bus and the host. -/
theorem hallReadDeliversTheDifference : Obligations.HallReadDeliversTheDifference := by
  unfold Obligations.HallReadDeliversTheDifference
  intro s bP bN dP dN rest hP hN fP fN _ hdiff hc hlenP hlenN hrP hrN hturns
  obtain ⟨haP, haN⟩ := s.attachHall_attached
  have hP₀ : s.attachHall.pinMap s.platform.hallP = some bP := hP
  have hm₀ (p : Pin) : ((s.attachHall.claim bP s.platform.hallP true).waitFor .hallWaitP).pinMap p =
      s.pinMap p := State.pinMap_claim s.attachHall bP _ true p
  obtain ⟨t, hrunP, hseq, hrun, hsnapN, hfreed, hpins, hcfg, hplatform, hnbus, hturns'⟩ :=
    run_engine_host_of_hallWaitP (s := (s.attachHall.claim bP s.platform.hallP true).waitFor .hallWaitP)
      ((hm₀ _).trans hP) ((hm₀ _).trans hN) (State.pinState_claim_running hP₀ haP true).1 haN rfl hturns
  have hm (p : Pin) : t.pinMap p = s.pinMap p := (State.pinMap_congr hplatform hnbus p).trans (hm₀ p)
  have hplatform' : t.platform = s.platform := hplatform
  obtain ⟨u, hrunN, hrsp, hseq', hidleN, hfreeN, hother, hpins', hcfg', hplatform'', hnbus'⟩ :=
    run_engine_host_of_hallWaitN (s := t) (bN := bN) (by rw [hplatform', hm]; exact hN)
      (by rw [hplatform']; exact hrun) hseq hturns'
  rw [hplatform'] at hrsp hidleN
  rw [hdiff] at hrsp
  have hsnapP : (((s.attachHall.claim bP s.platform.hallP true).waitFor .hallWaitP).bus bP).snap =
      s.snapshot s.platform.hallP true := by
    rw [State.bus_waitFor, State.bus_claim_self hP₀ _ true]
    exact State.snapshot_attachHall s _ true
  have hsnapN' : (t.bus bN).snap = s.snapshot s.platform.hallN true :=
    hsnapN.trans (State.snapshot_attachHall s _ true)
  obtain ⟨hvalP, hleP⟩ := toNat_convert_snapshot hsnapP hc hlenP hrP
    ((s.attachHall.claim bP s.platform.hallP true).waitFor .hallWaitP).drawn
  obtain ⟨hvalN, hleN⟩ := toNat_convert_snapshot hsnapN' hc hlenN hrN t.drawn
  obtain ⟨hlow, hhigh⟩ := hallDifference_range hleP hleN
  have hfreeP : (u.bus bP).busy = false := by
    by_cases hb : bP = bN
    · rw [hb]; exact hfreeN
    · rw [hother bP hb]; exact hfreed hb
  have hidleP : u.pinState s.platform.hallP = some .idle := by
    have hmu : u.pinMap s.platform.hallP = some bP :=
      ((State.pinMap_congr hplatform'' hnbus' _).trans (hm _)).trans hP
    have hatt : (u.pin s.platform.hallP).attached = true := by
      unfold State.pin
      rw [hpins', hpins]
      exact haP
    exact (State.pinState_eq_idle hmu).mpr ⟨hatt, by rw [hfreeP]; exact nofun⟩
  refine ⟨_, u, _, exec_hallRead_claims hP hN fP fN, (run_add 2 hrunP).trans hrunN, hrsp, ?_, hlow, hhigh,
    hseq', hidleP, hidleN, hfreeP, hfreeN, hcfg'.trans hcfg⟩
  rw [toInt_hallCombine_difference, hvalP, hvalN]

end Sys2Proof.Machine
end

section
/-! SUPPORT. Fairness and bounded response (R12, R103, R151): in the machine's own order enabled steps fire
and blocking commands respond within a bound, and in every weakly fair order they respond at last. -/

namespace Sys2Proof.Machine

/-! ### Reaching a state by a falling measure -/

/-- A run reaches `Q` within `f` steps where each step short of `Q` keeps `P` and lowers `f`. -/
theorem run_reaches {P Q : State → Prop} (f : State → Nat)
    (h : ∀ s, P s → Q s ∨ ∃ t, step s = .next t ∧ P t ∧ f t < f s) (n : Nat) :
    ∀ s, P s → f s ≤ n → ∃ k t, k ≤ n ∧ Host.Core.run Sys2Proof.core k s = .next t ∧ P t ∧ Q t := by
  induction n with
  | zero =>
    intro s hs hn
    obtain hq | ⟨t, _, _, hlt⟩ := h s hs
    · exact ⟨0, s, Nat.le_refl 0, rfl, hs, hq⟩
    · omega
  | succ n ih =>
    intro s hs hn
    obtain hq | ⟨t, hstep, ht, hlt⟩ := h s hs
    · exact ⟨0, s, Nat.zero_le _, rfl, hs, hq⟩
    · obtain ⟨k, u, hk, hrun, hu⟩ := ih t ht (by omega)
      exact ⟨k + 1, u, Nat.succ_le_succ hk, by rw [run_succ hstep, hrun], hu⟩

/-- The measure of a run in the machine's own order: `f` once no turn is listed, and before that the listed
turns and the bound `B` on what `f` can be when they are used up. -/
def State.stepsLeft (f : State → Nat) (B : Nat) (s : State) : Nat :=
  if s.turns = [] then f s else s.turns.length + B

theorem State.stepsLeft_le {f : State → Nat} {B : Nat} {s : State} (h : f s ≤ B) :
    s.stepsLeft f B ≤ s.turns.length + B := by
  unfold State.stepsLeft
  split <;> omega

theorem Stepped.stepsLeft_lt {f : State → Nat} {B : Nat} {s t : State} (hst : Stepped s t)
    (hB : f t ≤ B) (hf : s.turns = [] → f t < f s) : t.stepsLeft f B < s.stepsLeft f B := by
  have hle := State.stepsLeft_le hB
  cases hs : s.turns with
  | nil =>
    have ht : t.turns = [] := by rw [hst.turns, hs]; rfl
    simpa [State.stepsLeft, hs, ht] using hf hs
  | cons x xs =>
    have ht : t.turns = xs := by rw [hst.turns, hs]; rfl
    have hleft : s.stepsLeft f B = xs.length + 1 + B := by simp [State.stepsLeft, hs]
    rw [ht] at hle
    omega

/-- In the machine's own order a run without a reset reaches `Q` within `B` steps beyond the listed turns,
where each step short of `Q` keeps `P` and, once no turn is listed, lowers `f`, which is at most `B`. -/
theorem run_reaches_beyond_listed {P Q : State → Prop} (f : State → Nat) (B : Nat)
    (hB : ∀ s, P s → f s ≤ B)
    (h : ∀ s, P s → s.nextTurn ≠ .reset → Q s ∨ ∃ t, step s = .next t ∧ P t ∧ (s.turns = [] → f t < f s))
    {s : State} (hs : P s) (hr : s.NoReset) : ∃ k t, k ≤ s.turns.length + B ∧
      Host.Core.run Sys2Proof.core k s = .next t ∧ P t ∧ Q t := by
  have hstep : ∀ u, P u ∧ u.NoReset → Q u ∨ ∃ t, step u = .next t ∧ (P t ∧ t.NoReset) ∧
      t.stepsLeft f B < u.stepsLeft f B := by
    rintro u ⟨hu, hur⟩
    refine (h u hu (State.nextTurn_ne_reset hur)).imp_right ?_
    rintro ⟨t, ht, hPt, hlt⟩
    have hst := stepped_of_step ht
    exact ⟨t, ht, ⟨hPt, hur.next hst⟩, hst.stepsLeft_lt (hB t hPt) hlt⟩
  obtain ⟨k, t, hk, hrun, ⟨hPt, _⟩, hQ⟩ :=
    run_reaches (State.stepsLeft f B) hstep _ s ⟨hs, hr⟩ (State.stepsLeft_le (hB s hs))
  exact ⟨k, t, hk, hrun, hPt, hQ⟩

/-! ### How many conversions run -/

/-- How many of the buses below `n` are converting. -/
def State.load (n : Nat) (s : State) : Nat :=
  ((Finset.range n).filter fun c => s.converting c = true).card

theorem State.load_le (n : Nat) (s : State) : s.load n ≤ n :=
  (Finset.card_filter_le _ _).trans_eq (Finset.card_range n)

/-- `Complete(b)` stops the conversion of its own bus alone. -/
theorem converting_complete (s : State) (b : Nat) (ds : List RawSample) (c : Nat) :
    (complete b ds s).converting c = true ↔ s.converting c = true ∧ c ≠ b := by
  by_cases hc : c = b
  · subst hc
    refine iff_of_false (fun h => ?_) fun h => h.2 rfl
    obtain ⟨_, hdone⟩ := (State.converting_iff _ _).mp h
    cases hconv : s.converting c with
    | true => rw [(complete_of_converting hconv ds).1] at hdone; cases hdone
    | false => rw [complete_of_not_converting hconv, hconv] at h; cases h
  · simp only [State.converting, bus_complete_ne s ds hc, ne_eq, hc, not_false_eq_true, and_true]

theorem load_complete_lt {s : State} {c n : Nat} (hc : s.converting c = true) (hn : c < n)
    (ds : List RawSample) : (complete c ds s).load n < s.load n := by
  refine Finset.card_lt_card ⟨fun d hd => ?_, fun hsub => ?_⟩
  · obtain ⟨hd, hconv⟩ := Finset.mem_filter.mp hd
    exact Finset.mem_filter.mpr ⟨hd, ((converting_complete s c ds d).mp hconv).1⟩
  · obtain ⟨_, hconv⟩ := Finset.mem_filter.mp (hsub (Finset.mem_filter.mpr ⟨Finset.mem_range.mpr hn, hc⟩))
    exact ((converting_complete s c ds c).mp hconv).2 rfl

/-- Where no turn is listed, the step is `Complete` of the first converting bus and lowers the load, or the
host moves and no bus is converting (log entry 15). -/
theorem unlisted_step {s t : State} (h : step s = .next t) (ht : s.turns = []) :
    (∃ c, s.nextTurn = .engine c [] ∧ s.converting c = true ∧ (∀ d, d < c → s.converting d = false) ∧
      ∀ n, c < n → t.load n < s.load n) ∨
    (s.nextTurn = .host ∧ ∀ c, s.converting c = false) := by
  rw [State.nextTurn_nil ht]
  refine s.unlistedTurn_cases.imp_left ?_
  rintro ⟨c, hn, hc, hlow⟩
  refine ⟨c, hn, hc, hlow, fun n hlt => ?_⟩
  obtain rfl := Host.Outcome.next.inj (h.symm.trans (step_engine ((State.nextTurn_nil ht).trans hn)))
  exact load_complete_lt (s := s.beginTurn) hc hlt []

/-! ### Enabled steps stay enabled until they fire -/

/-- A converting bus is converting until its agent moves (R39, R107). -/
theorem Stepped.converting_of_converting {s t : State} (hst : Stepped s t) (hr : s.nextTurn ≠ .reset)
    {b : Nat} (hc : s.converting b = true) (hn : ∀ ds, s.nextTurn ≠ .engine b ds) :
    t.converting b = true := by
  obtain ⟨hbusy, hdone⟩ := (s.converting_iff b).mp hc
  refine (t.converting_iff b).mpr ?_
  cases hst.busStep hr b with
  | kept h => rw [h]; exact ⟨hbusy, hdone⟩
  | released _ p hp hd =>
    obtain ⟨_, hd'⟩ := State.owner_of_pinState_done hp hd
    rw [hdone] at hd'; cases hd'
  | claimed _ _ _ _ _ h => rw [h]; exact ⟨rfl, rfl⟩
  | completed ds hn' => exact absurd hn' (hn ds)

/-- A DONE pin is DONE until the host moves. -/
theorem Stepped.done_of_not_host {s t : State} (hst : Stepped s t) (hr : s.nextTurn ≠ .reset)
    (hn : s.nextTurn ≠ .host) {p : Pin} (hp : s.pinState p = some .done) : t.pinState p = some .done := by
  obtain ⟨b, hm⟩ := State.validPin_of_pinState hp
  obtain ⟨ha, hbusy, howner, hdone⟩ := (State.pinState_eq_done hm).mp hp
  refine (State.pinState_eq_done ((hst.pinMap p).trans hm)).mpr ⟨hst.attached_of_attached hr ha, ?_⟩
  cases hst.busStep hr b with
  | kept h => rw [h]; exact ⟨hbusy, howner, hdone⟩
  | released hn' => exact absurd hn' hn
  | claimed hn' => exact absurd hn' hn
  | completed _ _ _ h => rw [h]; exact ⟨hbusy, howner, rfl⟩

/-- Only the host and the reset input write the port. -/
theorem Stepped.seq_of_not_host {s t : State} (hst : Stepped s t) (hr : s.nextTurn ≠ .reset)
    (hn : s.nextTurn ≠ .host) : t.seq = s.seq := by
  cases hst with
  | engine b ds => exact complete_seq b ds _
  | altmode p =>
    obtain ⟨_, _, hseq, _⟩ := s.beginTurn.setAltmode_rest p
    exact hseq
  | reset hn' => exact absurd hn' hr
  | quiet hn' | issued hn' | resumed hn' | hallP hn' | hallN hn' => exact absurd hn' hn

theorem State.awaited_congr {s t : State} (hs : t.seq = s.seq) (hp : t.platform = s.platform) :
    t.awaited = s.awaited := by
  unfold State.awaited
  rw [hs, hp]

/-- Every enabled `Complete(b)` fires: its agent's turn comes within `b` steps beyond the listed turns, while
its bus is still converting. -/
theorem run_reaches_engine {s : State} {b : Nat} (hc : s.converting b = true) (hr : s.NoReset) :
    ∃ k t, k ≤ s.turns.length + b ∧ Host.Core.run Sys2Proof.core k s = .next t ∧
      t.converting b = true ∧ ∃ ds, t.nextTurn = .engine b ds := by
  refine run_reaches_beyond_listed (P := fun u => u.converting b = true)
    (Q := fun u => ∃ ds, u.nextTurn = .engine b ds) (State.load b) b (fun u _ => u.load_le b)
    (fun u hu hur => or_iff_not_imp_left.mpr fun hn => ?_) hc hr
  obtain ⟨t, ht, hst⟩ := step_stepped u
  have hn' (ds : List RawSample) : u.nextTurn ≠ .engine b ds := fun e => hn ⟨ds, e⟩
  refine ⟨t, ht, hst.converting_of_converting hur hu hn', fun hnil => ?_⟩
  obtain ⟨c, hnc, _, hlow, hlt⟩ | ⟨_, hnone⟩ := unlisted_step ht hnil
  · obtain hcb | rfl | hbc := Nat.lt_trichotomy c b
    · exact hlt b hcb
    · exact absurd hnc (hn' [])
    · rw [hlow b hbc] at hu; cases hu
  · rw [hnone b] at hu; cases hu

/-- Every enabled resume step fires: the host's turn comes within `NBUS` steps beyond the listed turns, while
the step is still enabled. -/
theorem run_reaches_host {s : State} {p : Pin} (ha : s.awaited = some p)
    (hd : s.pinState p = some .done) (hr : s.NoReset) :
    ∃ k t, k ≤ s.turns.length + s.nbus ∧ Host.Core.run Sys2Proof.core k s = .next t ∧
      (t.awaited = some p ∧ t.pinState p = some .done ∧ t.nbus = s.nbus) ∧ t.nextTurn = .host := by
  refine run_reaches_beyond_listed
    (P := fun u => u.awaited = some p ∧ u.pinState p = some .done ∧ u.nbus = s.nbus)
    (Q := fun u => u.nextTurn = .host) (State.load s.nbus) s.nbus (fun u _ => u.load_le _)
    (fun u hu hur => or_iff_not_imp_left.mpr fun hn => ?_) ⟨ha, hd, rfl⟩ hr
  obtain ⟨hua, hud, hun⟩ := hu
  obtain ⟨t, ht, hst⟩ := step_stepped u
  have hawait := State.awaited_congr (hst.seq_of_not_host hur hn) hst.platform_nbus.1
  refine ⟨t, ht, ⟨hawait.trans hua, hst.done_of_not_host hur hn hud, hst.platform_nbus.2.trans hun⟩,
    fun hnil => ?_⟩
  obtain ⟨c, _, hconv, _, hlt⟩ | ⟨hhost, _⟩ := unlisted_step ht hnil
  · exact hlt _ (hun ▸ State.converting_lt hconv)
  · exact absurd hhost hn

/-! ### A blocking command at the port -/

/-- A command holds the port and waits for pin `p`, which is RUNNING or DONE; the words `ws` are still to be
presented. -/
structure State.Pending (s : State) (p : Pin) (ws : List Word) : Prop where
  inv : s.Inv
  awaited : s.awaited = some p
  owns : s.Owns p
  commands : s.commands = ws

/-- The last step has answered `OK` and freed the port; the words `ws` are still to be presented. -/
def State.Answered (s : State) (ws : List Word) : Prop :=
  ∃ v, s.rsp = some ⟨.ok, v⟩ ∧ s.seq = .idle ∧ s.commands = ws

/-- A command that holds the port after its issue step waits for a pin that owns its bus: what READ and
HALLREAD have claimed, and what the caller of an END has started. -/
theorem pending_of_exec {i : Instr} {s t : State} (hi : s.Inv) (h : exec i s = .next t)
    (hh : t.PortHeld) (hown : ∀ p, i = .endConv p → s.Owns p) : ∃ p, t.Pending p s.commands := by
  have hinv := (issued_of_exec h).inv hi.core
  have answered {u : State} {st : Status} {v : Word} (e : exec i s = .next (u.respond st v)) : False := by
    obtain rfl := Host.Outcome.next.inj (h.symm.trans e)
    exact hh rfl
  have waits {u : State} {q : Seq} (e : exec i s = .next (u.waitFor q)) : t = u.waitFor q :=
    Host.Outcome.next.inj (h.symm.trans e)
  have onPin {p : Pin} {u : State} {st : Status} {v : Word}
      (e : exec i s = .next (s.onPin p fun _ => u.respond st v)) : False := by
    obtain ⟨_, e'⟩ | ⟨_, _, e'⟩ := State.onPin_cases s p fun _ => u.respond st v
    all_goals rw [e'] at e; exact answered e
  have setCfg {lo hi : Nat} {v : Imm} {w : Nat → CfgFile} (hr : lo ≤ hi)
      (e : exec i s = .next (s.setCfg lo hi v w)) : False := by
    obtain ⟨_, _, _, e'⟩ | ⟨_, e'⟩ := State.setCfg_cases s hr v w
    all_goals rw [e'] at e; exact answered e
  cases i with
  | read p =>
    obtain ⟨e, _⟩ | ⟨b, hm, ⟨_, e⟩ | ⟨_, e⟩⟩ := execRead_cases p s
    · exact (answered e).elim
    · exact (answered e).elim
    · obtain rfl := waits e
      exact ⟨p, hinv, rfl,
        State.owns_claim (s := s.attachPin p) hm (State.pin_attachPin_self_attached s p) false, rfl⟩
  | endConv p =>
    obtain ⟨e, _⟩ | ⟨b, hm, ⟨_, e⟩ | ⟨_, e⟩⟩ := execEnd_cases p s
    · exact (answered e).elim
    · exact (answered e).elim
    · obtain rfl := waits e
      exact ⟨p, hinv, rfl, hown p rfl, rfl⟩
  | hallRead =>
    obtain e | ⟨bP, bN, hP, hN, ⟨_, e⟩ | ⟨_, _, e⟩⟩ := execHallRead_cases s
    · exact (answered e).elim
    · exact (answered e).elim
    · obtain rfl := waits e
      exact ⟨s.platform.hallP, hinv, rfl,
        State.owns_claim (s := s.attachHall) hP s.attachHall_attached.1 true, rfl⟩
  | start p =>
    obtain ⟨e, _⟩ | ⟨b, hm, ⟨_, e⟩ | ⟨_, _, e⟩ | ⟨_, _, e⟩⟩ := execStart_cases p s
    all_goals exact (answered e).elim
  | getCfg idx =>
    obtain ⟨v, _, e⟩ | ⟨_, e⟩ := execGetCfg_cases idx s
    all_goals exact (answered e).elim
  | setPinAtten p l => exact (onPin (p := p) rfl).elim
  | attach p => exact (onPin (p := p) rfl).elim
  | busy p => exact (onPin (p := p) rfl).elim
  | getAtten p => exact (onPin (p := p) rfl).elim
  | setAtten l => exact (answered rfl).elim
  | setRes v => exact (setCfg (by decide) rfl).elim
  | setWidth v => exact (setCfg (by decide) rfl).elim
  | setCycles v => exact (setCfg (by decide) rfl).elim
  | setSamples v => exact (setCfg (by decide) rfl).elim
  | setClkDiv v => exact (setCfg (by decide) rfl).elim

section
variable {s t : State} {p : Pin} {ws : List Word}

theorem State.Pending.portHeld (h : s.Pending p ws) : s.PortHeld := State.portHeld_of_awaited h.awaited

/-- A step that is not the enabled resume step leaves the command waiting for the same pin. -/
theorem State.Pending.waits (h : s.Pending p ws) (hst : Stepped s t) (hr : s.nextTurn ≠ .reset)
    (hn : s.nextTurn = .host → s.pinState p ≠ some .done) : t.Pending p ws ∧ t.seq = s.seq := by
  have howns : t.Owns p := h.owns.elim (hst.owns_of_running h.inv hr) fun hd =>
    .inr (hst.done_of_not_host hr (fun hhost => hn hhost hd) hd)
  have disabled {q : Pin} (ha : s.awaited = some q) (hd : s.pinState q = some .done)
      (hhost : s.nextTurn = .host) : False := by
    obtain rfl := Option.some.inj (h.awaited.symm.trans ha)
    exact hn hhost hd
  have hseq : t.seq = s.seq := by
    cases hst with
    | quiet => rfl
    | issued _ hs => exact absurd hs h.portHeld
    | resumed hhost q hs b hq hd => exact (disabled (State.awaited_wait hs) hd hhost).elim
    | hallP hhost hs bP bN hP hN hd => exact (disabled (State.awaited_hallWaitP hs) hd hhost).elim
    | hallN hhost v hs bN hN hd => exact (disabled (State.awaited_hallWaitN hs) hd hhost).elim
    | engine b ds => exact complete_seq b ds _
    | altmode q =>
      obtain ⟨_, _, hkept, _⟩ := s.beginTurn.setAltmode_rest q
      exact hkept
    | reset hn' => exact absurd hn' hr
  exact ⟨⟨hst.inv h.inv, (State.awaited_congr hseq hst.platform_nbus.1).trans h.awaited, howns,
    (hst.of_portHeld h.portHeld).1.trans h.commands⟩, hseq⟩

/-- The enabled resume step answers the command, or is the first of a HALLREAD's two (R95, R114, R115). -/
theorem State.Pending.resumes (h : s.Pending p ws) (hstep : step s = .next t) (hn : s.nextTurn = .host)
    (hd : s.pinState p = some .done) : t.Answered ws ∨
      (s.seq = .hallWaitP ∧ (∃ v, t.seq = .hallWaitN v) ∧ t.Pending s.platform.hallN ws) := by
  have hst := stepped_of_step hstep
  have hcommands := (hst.of_portHeld h.portHeld).1.trans h.commands
  have hawait := h.awaited
  unfold State.awaited at hawait
  cases hs : s.seq with
  | idle => exact absurd hs h.portHeld
  | wait q =>
    simp only [hs, Option.some.injEq] at hawait
    obtain rfl := hawait
    obtain ⟨b, hm⟩ := State.validPin_of_pinState hd
    obtain ⟨u, hu, hrsp, hseq, _⟩ := resumeRespondsWhenDone.1 s q b hn hs hm hd
    obtain rfl := Host.Outcome.next.inj (hstep.symm.trans hu)
    exact .inl ⟨_, hrsp, hseq, hcommands⟩
  | hallWaitP =>
    simp only [hs, Option.some.injEq] at hawait
    obtain rfl := hawait
    obtain ⟨bP, hP⟩ := State.validPin_of_pinState hd
    obtain ⟨bN, hN⟩ := Option.isSome_iff_exists.mp h.inv.platform.hallN_valid
    obtain ⟨_, u, hu, _, hseq, _⟩ := hallResumePClaimsTheSecondPin.1 s bP bN hn hs hP hN hd
    obtain rfl := Host.Outcome.next.inj (hstep.symm.trans hu)
    have hinv := hst.inv h.inv
    have howns := hinv.seq
    simp only [State.SeqOk, hseq] at howns
    rw [hst.platform_nbus.1] at howns
    refine .inr ⟨rfl, ⟨_, hseq⟩, hinv, ?_, howns, hcommands⟩
    rw [State.awaited_hallWaitN hseq, hst.platform_nbus.1]
  | hallWaitN v =>
    simp only [hs, Option.some.injEq] at hawait
    obtain rfl := hawait
    obtain ⟨bN, hN⟩ := State.validPin_of_pinState hd
    obtain ⟨u, hu, hrsp, hseq, _⟩ := hallResumeNCombinesTheValues.1 s v bN hn hs hN hd
    obtain rfl := Host.Outcome.next.inj (hstep.symm.trans hu)
    exact .inl ⟨_, hrsp, hseq, hcommands⟩

/-- Where no bus is converting, the first resume step of a HALLREAD leaves at most one that is: the one it
claims. -/
theorem Stepped.load_le_one (hst : Stepped s t) (hr : s.nextTurn ≠ .reset) (hs : s.seq = .hallWaitP)
    (hnone : ∀ c, s.converting c = false) (n : Nat) : t.load n ≤ 1 := by
  have claimed {c : Nat} (hc : t.converting c = true) : s.pinMap s.platform.hallN = some c := by
    obtain ⟨hbusy, hdone⟩ := (t.converting_iff c).mp hc
    cases hst.busStep hr c with
    | kept h =>
      rw [h] at hbusy hdone
      have hconv := (s.converting_iff c).mpr ⟨hbusy, hdone⟩
      rw [hnone c] at hconv; cases hconv
    | released _ _ _ _ _ h => rw [h] at hbusy; cases hbusy
    | claimed _ q _ hq hg =>
      obtain ⟨hs', _⟩ | ⟨_, rfl, _⟩ := hg
      · rw [hs] at hs'; cases hs'
      · exact hq
    | completed _ _ _ h => rw [h] at hdone; cases hdone
  refine Finset.card_le_one.mpr fun c hc d hd => ?_
  have hc' := claimed (Finset.mem_filter.mp hc).2
  have hd' := claimed (Finset.mem_filter.mp hd).2
  exact Option.some.inj (hc'.symm.trans hd')

end

/-! ### Response within a bound, in the machine's own order -/

/-- What a waiting command has still to see once no turn is listed: the running conversions done, and of a
HALLREAD that waits for its first conversion the resume step and the second conversion. -/
def State.toAnswer (n : Nat) (s : State) : Nat := s.load n + if s.seq = .hallWaitP then 2 else 0

/-- A waiting command is answered within `NBUS + 3` steps beyond the listed turns. -/
theorem State.Pending.answered_within {s : State} {p : Pin} {ws : List Word} (h : s.Pending p ws)
    (hr : s.NoReset) : ∃ k u, k ≤ s.turns.length + s.nbus + 3 ∧
      Host.Core.run Sys2Proof.core k s = .next u ∧ u.Answered ws := by
  have hbound (u : State) : u.toAnswer s.nbus ≤ s.nbus + 2 := by
    have := u.load_le s.nbus
    unfold State.toAnswer
    split <;> omega
  have hreach : ∃ k t, k ≤ s.turns.length + (s.nbus + 2) ∧
      Host.Core.run Sys2Proof.core k s = .next t ∧ ((∃ q, t.Pending q ws) ∧ t.nbus = s.nbus) ∧
      ∃ u, step t = .next u ∧ u.Answered ws := by
    refine run_reaches_beyond_listed (P := fun u => (∃ q, u.Pending q ws) ∧ u.nbus = s.nbus)
      (Q := fun t => ∃ u, step t = .next u ∧ u.Answered ws) (State.toAnswer s.nbus) (s.nbus + 2)
      (fun u _ => hbound u) (fun u hu hur => ?_) ⟨⟨p, h⟩, rfl⟩ hr
    obtain ⟨⟨q, hq⟩, hun⟩ := hu
    obtain ⟨t, ht, hst⟩ := step_stepped u
    have htn := hst.platform_nbus.2.trans hun
    by_cases hfires : u.nextTurn = .host ∧ u.pinState q = some .done
    · obtain ⟨hhost, hd⟩ := hfires
      obtain hanswer | ⟨hs, ⟨v, hv⟩, hnext⟩ := hq.resumes ht hhost hd
      · exact .inl ⟨t, ht, hanswer⟩
      · refine .inr ⟨t, ht, ⟨⟨_, hnext⟩, htn⟩, fun hnil => ?_⟩
        obtain ⟨c, hc, _⟩ | ⟨_, hnone⟩ := unlisted_step ht hnil
        · rw [hhost] at hc; cases hc
        · have hone := hst.load_le_one hur hs hnone s.nbus
          rw [State.toAnswer, State.toAnswer, if_pos hs, if_neg (by rw [hv]; exact nofun)]
          omega
    · obtain ⟨hnext, hseq⟩ := hq.waits hst hur fun hhost hd => hfires ⟨hhost, hd⟩
      refine .inr ⟨t, ht, ⟨⟨q, hnext⟩, htn⟩, fun hnil => ?_⟩
      obtain ⟨c, _, hconv, _, hlt⟩ | ⟨hhost, hnone⟩ := unlisted_step ht hnil
      · rw [State.toAnswer, State.toAnswer, hseq]
        exact Nat.add_lt_add_right (hlt _ (hun ▸ State.converting_lt hconv)) _
      · refine absurd ⟨hhost, hq.owns.resolve_left fun hrun => ?_⟩ hfires
        obtain ⟨b, hm⟩ := State.validPin_of_pinState hrun
        have hconv := State.converting_of_running hm hrun
        rw [hnone b] at hconv; cases hconv
  obtain ⟨k, t, hk, hrun, _, u, hu, hanswer⟩ := hreach
  exact ⟨k + 1, u, by omega, by rw [run_add 1 hrun, run_succ hu, run_zero], hanswer⟩

/-! ### Response in every weakly fair order -/

/-- Along an order of turns, a condition that lasts until a helpful turn comes, and that a helpful turn
cannot leave alone for ever, meets one. -/
theorem along_leads_to {s : State} {σ : Nat → Turn} {P : State → Prop} {help : Turn → Prop}
    (keep : ∀ n, P (s.along σ n) → ¬ help (σ n) → P (s.along σ (n + 1)))
    (fair : ∀ n, P (s.along σ n) → ∃ m, n ≤ m ∧ (¬ P (s.along σ m) ∨ help (σ m)))
    {n : Nat} (h : P (s.along σ n)) : ∃ m, n ≤ m ∧ P (s.along σ m) ∧ help (σ m) := by
  by_contra hnever
  have hlasts : ∀ m, n ≤ m → P (s.along σ m) := fun m hm => by
    induction m, hm using Nat.le_induction with
    | base => exact h
    | succ m hm ih => exact keep m ih fun hhelp => hnever ⟨m, hm, ih, hhelp⟩
  obtain ⟨m, hm, hnot | hhelp⟩ := fair n h
  · exact hnot (hlasts m hm)
  · exact hnever ⟨m, hm, hlasts m hm, hhelp⟩

/-- The listed turns do not enter what a waiting command waits for. -/
theorem State.Pending.of_turns {s : State} {p : Pin} {ws : List Word} (h : s.Pending p ws)
    (ts : List Turn) : ({ s with turns := ts } : State).Pending p ws where
  inv := State.CoreInv.inv (h.inv.core.of_eq rfl rfl rfl rfl) h.inv.seq
  awaited := h.awaited
  owns := h.owns
  commands := h.commands

/-! ### One turn taken, whatever is listed -/

section
variable {s : State} {x : Turn} {p : Pin} {ws : List Word}

theorem State.stepped_takes (s : State) (x : Turn) : Stepped { s with turns := [x] } (s.takes x) :=
  stepped_of_step (s.step_takes x)

theorem State.pinMap_takes (s : State) (x : Turn) (p : Pin) : (s.takes x).pinMap p = s.pinMap p :=
  (s.stepped_takes x).pinMap p

theorem State.Pending.takes_waits (h : s.Pending p ws) (hx : x ≠ .reset)
    (hn : x = .host → s.pinState p ≠ some .done) :
    (s.takes x).Pending p ws ∧ (s.takes x).seq = s.seq :=
  (h.of_turns [x]).waits (s.stepped_takes x) hx hn

theorem State.Pending.takes_resumes (h : s.Pending p ws) (hd : s.pinState p = some .done) :
    (s.takes .host).Answered ws ∨ (s.seq = .hallWaitP ∧ (∃ v, (s.takes .host).seq = .hallWaitN v) ∧
      (s.takes .host).Pending s.platform.hallN ws) :=
  (h.of_turns [.host]).resumes (s.step_takes .host) rfl hd

theorem State.done_takes (hd : s.pinState p = some .done) (hx : x ≠ .reset) (hn : x ≠ .host) :
    (s.takes x).pinState p = some .done :=
  (s.stepped_takes x).done_of_not_host hx hn hd

theorem State.Pending.takes_running (h : s.Pending p ws) (hx : x ≠ .reset) {b : Nat}
    (hm : s.pinMap p = some b) (hrun : s.pinState p = some .running) (hn : ∀ ds, x ≠ .engine b ds) :
    (s.takes x).pinState p = some .running := by
  have hne : s.pinState p ≠ some .done := by rw [hrun]; exact nofun
  refine (h.takes_waits hx fun _ => hne).1.owns.resolve_right fun hd => ?_
  obtain ⟨_, c, ds, hc, hturn⟩ :=
    (s.stepped_takes x).running_of_becomes_done (h.of_turns [x]).inv hne hd
  obtain rfl := Option.some.inj (hm.symm.trans hc)
  exact hn ds hturn

theorem State.takes_engine_done {b : Nat} (hm : s.pinMap p = some b)
    (hrun : s.pinState p = some .running) (ds : List RawSample) :
    (s.takes (.engine b ds)).pinState p = some .done := by
  have htakes : s.takes (.engine b ds) = complete b ds { s with rsp := none, turns := [] } := rfl
  rw [htakes]
  exact pinState_complete_done (s := { s with rsp := none, turns := [] }) hm hrun ds

end

section
variable {s : State} {σ : Nat → Turn} {p : Pin} {q : Seq} {ws : List Word}

/-- A RUNNING pin is DONE at some later instant of a weakly fair order, and is waited for until then. -/
theorem State.WeaklyFair.becomes_done (hf : s.WeaklyFair σ) (hσ : ∀ n, σ n ≠ .reset) {n : Nat}
    (h : (s.along σ n).Pending p ws) (hs : (s.along σ n).seq = q)
    (hrun : (s.along σ n).pinState p = some .running) :
    ∃ m, (s.along σ m).Pending p ws ∧ (s.along σ m).seq = q ∧
      (s.along σ m).pinState p = some .done := by
  obtain ⟨b, hm⟩ := State.validPin_of_pinState hrun
  obtain ⟨m, _, ⟨hmm, hpend, hseq, hrun'⟩, ds, hds⟩ := along_leads_to (s := s) (σ := σ)
    (P := fun u => u.pinMap p = some b ∧ u.Pending p ws ∧ u.seq = q ∧ u.pinState p = some .running)
    (help := fun x => ∃ ds, x = .engine b ds)
    (fun k ⟨hk, hpk, hsk, hrk⟩ hnot => by
      obtain ⟨hnext, hseq⟩ := hpk.takes_waits (hσ k) fun _ => by rw [hrk]; exact nofun
      exact ⟨(State.pinMap_takes _ _ p).trans hk, hnext, hseq.trans hsk,
        hpk.takes_running (hσ k) hk hrk fun ds hds => hnot ⟨ds, hds⟩⟩)
    (fun k ⟨hk, _, _, hrk⟩ => by
      obtain ⟨m, hkm, hoff | hfire⟩ := hf.complete k b (State.converting_of_running hk hrk)
      · refine ⟨m, hkm, .inl fun ⟨hm', _, _, hrm⟩ => ?_⟩
        rw [State.converting_of_running hm' hrm] at hoff; cases hoff
      · exact ⟨m, hkm, .inr hfire⟩)
    ⟨hm, h, hs, hrun⟩
  obtain ⟨hnext, hseq'⟩ := hpend.takes_waits (hσ m) fun _ => by rw [hrun']; exact nofun
  refine ⟨m + 1, hnext, hseq'.trans hseq, ?_⟩
  rw [State.along_succ, hds]
  exact State.takes_engine_done hmm hrun' ds

/-- A command that waits is resumed at some later instant of a weakly fair order: answered, or a HALLREAD
goes on to its second conversion. -/
theorem State.WeaklyFair.resumes (hf : s.WeaklyFair σ) (hσ : ∀ n, σ n ≠ .reset) {n : Nat}
    (h : (s.along σ n).Pending p ws) (hs : (s.along σ n).seq = q) :
    ∃ m, (s.along σ (m + 1)).Answered ws ∨ (q = .hallWaitP ∧
      (∃ v, (s.along σ (m + 1)).seq = .hallWaitN v) ∧ ∃ r, (s.along σ (m + 1)).Pending r ws) := by
  obtain ⟨n', hdone⟩ : ∃ k, (s.along σ k).Pending p ws ∧ (s.along σ k).seq = q ∧
      (s.along σ k).pinState p = some .done := by
    obtain hrun | hd := h.owns
    · exact hf.becomes_done hσ h hs hrun
    · exact ⟨n, h, hs, hd⟩
  obtain ⟨m, _, ⟨hpend, hseq, hd⟩, hhost⟩ := along_leads_to (s := s) (σ := σ)
    (P := fun u => u.Pending p ws ∧ u.seq = q ∧ u.pinState p = some .done)
    (help := fun x => x = .host)
    (fun k ⟨hpk, hsk, hdk⟩ hnot => by
      obtain ⟨hnext, hseq⟩ := hpk.takes_waits (hσ k) fun hhost => absurd hhost hnot
      exact ⟨hnext, hseq.trans hsk, State.done_takes hdk (hσ k) hnot⟩)
    (fun k ⟨hpk, _, hdk⟩ => by
      obtain ⟨m, hkm, hoff | hfire⟩ := hf.resume k ⟨p, hpk.awaited, hdk⟩
      · exact ⟨m, hkm, .inl fun ⟨hpm, _, hdm⟩ => hoff ⟨p, hpm.awaited, hdm⟩⟩
      · exact ⟨m, hkm, .inr hfire⟩)
    hdone
  refine ⟨m, ?_⟩
  rw [State.along_succ, hhost]
  refine (hpend.takes_resumes hd).imp_right ?_
  rintro ⟨hP, hN, hnext⟩
  exact ⟨hseq.symm.trans hP, hN, _, hnext⟩

/-- A command that waits is answered at some instant of every weakly fair order without a reset. -/
theorem State.WeaklyFair.answered (hf : s.WeaklyFair σ) (hσ : ∀ n, σ n ≠ .reset)
    (h : s.Pending p ws) : ∃ n, (s.along σ (n + 1)).Answered ws := by
  obtain ⟨m, hanswer | ⟨_, ⟨v, hv⟩, r, hr⟩⟩ := hf.resumes hσ (n := 0) h rfl
  · exact ⟨m, hanswer⟩
  · obtain ⟨k, hanswer | ⟨hP, _⟩⟩ := hf.resumes hσ hr hv
    · exact ⟨k, hanswer⟩
    · cases hP

end

/-! ### The statement -/

theorem Issued.turns {s t : State} (hi : Issued s t) : t.turns = s.turns := by cases hi <;> rfl

/-- Settles O48: its four parts, each by the theorem that says it for the waiting port. -/
theorem enabledStepsFireAndBlockingCommandsRespond :
    Obligations.EnabledStepsFireAndBlockingCommandsRespond := by
  unfold Obligations.EnabledStepsFireAndBlockingCommandsRespond
  refine ⟨fun s p b ds rest hm hrun hturns => ?_, fun s b hc hr => ?_, fun s p ha hd hr => ?_,
    fun i s t hi h hh hown => ?_⟩
  · obtain ⟨hatt, _⟩ := (State.pinState_eq_running hm).mp hrun
    obtain ⟨u, hu, hrsp, hseq, hidle, hbusy, _, _, _, _, hrest⟩ :=
      run_engine_host_of_wait (s := s.waitFor (.wait p)) hm hrun rfl hturns
    exact ⟨_, u, exec_endConv_waits hm hatt, hu, hrsp, hseq, hidle, hbusy, hrest⟩
  · obtain ⟨k, t, hk, hrun, hconv, ds, hn⟩ := run_reaches_engine hc hr
    exact ⟨k, t, ds, hk, hrun, hconv, hn⟩
  · obtain ⟨k, t, hk, hrun, ⟨ha', hd', _⟩, hn⟩ := run_reaches_host ha hd hr
    exact ⟨k, t, hk, hrun, ha', hd', hn⟩
  · have hissued := issued_of_exec h
    obtain ⟨p, hpend⟩ := pending_of_exec hi h hh hown
    refine ⟨fun hr => ?_, fun σ hσ hf => ?_⟩
    · have hr' : t.NoReset := fun x hx => hr x (hissued.turns ▸ hx)
      obtain ⟨k, u, hk, hrun, v, hrsp, hseq, hcommands⟩ := hpend.answered_within hr'
      rw [hissued.turns, hissued.platform_nbus.2] at hk
      exact ⟨k, u, v, hk, hrun, hrsp, hseq, hcommands⟩
    · obtain ⟨n, v, hanswer⟩ := hf.answered hσ hpend
      exact ⟨n, v, hanswer⟩

end Sys2Proof.Machine
end
